-- ==== Sys2Proof/Word.lean ====
section
/-! DEFINITION. The words of the block (00_scope.md R7): bytes, 16-bit and 32-bit unsigned values, and single pixels.
No value of the block is signed (R8). -/

namespace Sys2Proof

/-- One byte of LMEM, of a protocol unit or of an RLE stream. -/
abbrev Byte := BitVec 8

/-- A 16-bit value: the checksum accumulator, a table entry, a sequence number. -/
abbrev Half := BitVec 16

/-- A 32-bit value: a register, a command word, a length, an LMEM offset as held in a register. -/
abbrev Word := BitVec 32

/-- One pixel of a plane: ink or no ink (R7: "a pixel value is 1 bit"). -/
abbrev Pixel := Bool

end Sys2Proof
end

