-- ==== Sys2Proof/Config.lean ====
section
/-! DEFINITION. What an implementation fixes (00_scope.md R6) and the free values.

The OPEN parameters LMEM_SIZE and CK_TABLE are a record `Params`, which State carries, so that every meaning takes them
as an argument. Which record a chip has is an opaque constant: nothing can be proved of it but what its type says.
The OPEN parameters of the platform around the block are a record `PlatformParams`, an argument of the definitions that
use them.
The free values (93_implementation_defined.md, "any value") are opaque functions of a draw number. -/

namespace Sys2Proof

/-- The OPEN parameters of R6 that the block itself uses. `lmemTop` is LMEM_SIZE − 1, so that
1 ≤ LMEM_SIZE ≤ 0x100000 holds by the type; `ckTable` is CK_TABLE (R150), 16 entries of 16 bits. -/
structure Params where
  lmemTop : Fin 0x100000
  ckTable : Vector Half 16
deriving DecidableEq, Repr, Inhabited

/-- LMEM_SIZE (R6, R60). -/
def Params.lmemSize (p : Params) : Nat := p.lmemTop.val + 1

/-- The OPEN parameters of R6 and 20_memory.md R61 outside the block (93 U3, U4): where the platform places it, and the
host's two durations. Each is an argument of what uses it (log 19). -/
structure PlatformParams where
  /-- BLOCK_BASE (R61). -/
  blockBase : Nat
  /-- SETTLE_DELAY (70_reset_and_hazards.md R293). -/
  settleDelay : Nat
  /-- PACKET_DELAY (70_reset_and_hazards.md R293). -/
  packetDelay : Nat
deriving DecidableEq, Repr

namespace Config

/-- The reference size of R6 with the candidate table of 41_checksum.md R150 (the CRC-16 nibble table). Only tests use
it: R154 says that a model must not assume anything of CK_TABLE. -/
def candidate : Params :=
  { lmemTop := 0xFFFFF
    ckTable := #v[0x0000, 0x1021, 0x2042, 0x3063, 0x4084, 0x50A5, 0x60C6, 0x70E7,
                  0x8108, 0x9129, 0xA14A, 0xB16B, 0xC18C, 0xD1AD, 0xE1CE, 0xF1EF] }

/-- The parameters of the chip (U1, U2). OPEN: no value. -/
opaque params : Params

/-- What the LMEM byte at an offset holds after power-on (R282, U5): any value. -/
opaque powerOnByte : Nat → Byte

/-- The unspecified byte of draw number n (R255, R283, R288, R289). -/
opaque freeByte : Nat → Byte

/-- The unspecified 16-bit value of draw number n (ACC, R288 and R289). -/
opaque freeHalf : Nat → Half

/-- The unspecified 32-bit value of draw number n (RESULT, R288 and R289). -/
opaque freeWord : Nat → Word

/-- The unspecified choice of draw number n (which error code, R289). -/
opaque freeIndex : Nat → Nat

/-- CK_SEED (R6, 41_checksum.md R152). -/
def ckSeed : Half := 0xFFFF

/-- KEY_SEED (R6, 42_framecodec.md R170). -/
def keySeed : Byte := 0x31

/-- CHUNK (R6): the payload bytes of one packet. -/
def chunkBytes : Nat := 200

/-- PKT_BYTES (R6). -/
def packetBytes : Nat := 204

/-- PH_BYTES (R6). -/
def planeHeaderBytes : Nat := 13

/-- TH_BYTES (R6). -/
def txnHeaderBytes : Nat := 20

/-- RUN_CAP (R6, 43_rle.md R201). -/
def runCap : Nat := 0xFFFF

/-- LIT_PIXELS (R6, 43_rle.md R203). -/
def literalPixels : Nat := 7

/-- The constant of the ID register (10_state.md R36): "ETAG" as a big-endian number. -/
def idWord : Word := 0x45544147

/-- DIM after reset (10_state.md R31, R44): 800 × 480. -/
def dimReset : BitVec 31 := 0x01DF031F

end Config

end Sys2Proof
end

