-- ==== Sys2Proof/Syntax.lean ====
section
/-! DEFINITION. The instructions: one constructor per row of spec/opcode_table.json. The fourteen commands of
30_encoding.md R91 have no operand field in their word (R93: operands come from the latch). The four RLE tokens of R94
carry the fields of their bytes (R95). -/

namespace Sys2Proof

/-- The two encoded languages of 30_encoding.md: command words and the RLE token byte-code. -/
inductive Instr where
  /-- NOP, word 0x00000000 (R140). -/
  | nop
  /-- CK_INIT, word 0x00000001 (R155). -/
  | ckInit
  /-- CK_BYTE, word 0x00000002 (R156). -/
  | ckByte
  /-- CK_RUN, word 0x00000003 (R157). -/
  | ckRun
  /-- CK_CALC, word 0x00000004 (R158). -/
  | ckCalc
  /-- KEY_LOAD, word 0x00000010 (R172). -/
  | keyLoad
  /-- KEY_CLEAR, word 0x00000011 (R173). -/
  | keyClear
  /-- XOR_BLOCK, word 0x00000012 (R174). -/
  | xorBlock
  /-- PH_BUILD, word 0x00000013 (R177). -/
  | phBuild
  /-- TH_BUILD, word 0x00000014 (R180). -/
  | thBuild
  /-- RLE_ENC, word 0x00000020 (R212). -/
  | rleEnc
  /-- RLE_DEC, word 0x00000021 (R213). -/
  | rleDec
  /-- PKT_BUILD, word 0x00000030 (R233). -/
  | pktBuild
  /-- PKT_STREAM, word 0x00000031 (R234). -/
  | pktStream
  /-- RLE_LIT, byte `1ppppppp` (R214): `pixels` holds seven pixel values, the first in bit 6. -/
  | rleLit (pixels : BitVec 7)
  /-- RLE_RUN3, bytes `0v000000`, `lo`, `hi` (R215). -/
  | rleRun3 (v : Pixel) (lo hi : Byte)
  /-- RLE_RUN2, bytes `0v000001`, `n` (R216). -/
  | rleRun2 (v : Pixel) (n : Byte)
  /-- RLE_RUN1, byte `0vxrrrrr` (R217); bit 5, `x`, is ignored by the decoder. -/
  | rleRun1 (v x : Pixel) (r : BitVec 5)
deriving DecidableEq, Repr

/-- True for the fourteen commands, false for the four RLE tokens. -/
def Instr.isCommand : Instr → Bool
  | .nop | .ckInit | .ckByte | .ckRun | .ckCalc => true
  | .keyLoad | .keyClear | .xorBlock | .phBuild | .thBuild => true
  | .rleEnc | .rleDec | .pktBuild | .pktStream => true
  | .rleLit _ | .rleRun3 _ _ _ | .rleRun2 _ _ | .rleRun1 _ _ _ => false

end Sys2Proof
end

