-- ==== Sys2Proof/Machine/State.lean ====
section
/-! DEFINITION. The state of the block (10_state.md), of the two agents that act on it, and the reasons a step can stop.
Plain data throughout. INVENTORY.md lists every field with its rule and its reset value. -/

namespace Sys2Proof.Machine

/-- The error codes of 60_exceptions.md R250, as STATUS.ERRCODE holds them; no other code is ever written. -/
inductive ErrCode where
  | noError
  | illegalCmd
  | badParam
  | noKey
  | keyLocked
  | countOverflow
  | badSeq
  | range
  | overlap
  | encOverflow
  | decTruncated
  | decUnderrun
  | decOverrun
  | decTrailing
deriving DecidableEq, Repr

/-- The stored bits of CTRL (R23). SRST has no storage; the reserved bits read 0. -/
structure Ctrl where
  ieDone : Bool
  ieErr : Bool
deriving DecidableEq, Repr

/-- The stored fields of STATUS (R24); `keyv` is also the engine's KEYV (R37). -/
structure Status where
  busy : Bool
  done : Bool
  err : Bool
  keyv : Bool
  ovr : Bool
  errcode : ErrCode
deriving DecidableEq, Repr

/-- The operand latch (R38). -/
structure Latch where
  cmd : Word
  src : Word
  dst : Word
  len : Word
  param : Word
  dim : BitVec 31
  addrLo : Word
  addrHi : Half
deriving DecidableEq, Repr

/-- The hidden state of a running RLE_DEC (R39, 43_rle.md R207 and section 4): the stream S read from LMEM, the pixel
count N, the pixels produced so far and the cursor p. `active` says that the engine is inside a command that it walks
token by token. -/
structure Decoder where
  active : Bool
  stream : List Byte
  total : Nat
  out : List Pixel
  pos : Nat
deriving DecidableEq, Repr

/-- LMEM: the bytes written since power-on, at strictly rising offsets. An offset that is not listed has not been written,
and `Memory.read` answers no value for it. -/
abbrev Memory := List Host.Cell

/-- The width of a host access (20_memory.md R70). -/
inductive Width where
  | b1
  | b2
  | b4
deriving DecidableEq, Repr

/-- One host access at a block-relative address of 21 bits (R61, R70). A write's data stands in the low bits. -/
inductive HostAccess where
  | read (w : Width) (a : BitVec 21)
  | write (w : Width) (a : BitVec 21) (data : Word)
deriving DecidableEq, Repr

/-- Whose step is next (R76: an interleaving of host accesses and engine steps). `engine` is the engine's one step of
R134. `engineByToken` is the same step walked token by token where the command is RLE_DEC (R39, R207): no host access
comes between its tokens (R74, R137). `wait` is the host inside the line `wait` of 30_encoding.md R101: a read of STATUS,
repeated until the value read has BUSY = 0. How many polls come before the engine's step is open (R136): `polls` more come
after the next one, if that still reads BUSY = 1 (log 20). -/
inductive Turn where
  | engine
  | engineByToken
  | host (access : HostAccess)
  | wait (polls : Nat)
deriving DecidableEq, Repr

/-- The state of the block and of its surroundings. The last four fields are the model's own. -/
structure State where
  /-- LMEM_SIZE and CK_TABLE (R6): constants that no step changes. -/
  params : Params
  ctrl : Ctrl
  status : Status
  cmd : Word
  src : Word
  dst : Word
  len : Word
  param : Word
  dim : BitVec 31
  addrLo : Word
  addrHi : Half
  key8 : Byte
  acc : Half
  result : Word
  lat : Latch
  dec : Decoder
  mem : Memory
  /-- LMEM offsets in the running command's ranges that the host wrote while BUSY = 1 (R289). -/
  touched : List Nat
  /-- How many free values have been drawn. -/
  draw : Nat
  /-- The schedule; when it runs out the engine moves (R136). -/
  turns : List Turn
  /-- The answers to the host's reads, newest first. -/
  busReads : List Word
deriving DecidableEq, Repr

/-- No decode in progress. -/
def Decoder.idle : Decoder :=
  { active := false, stream := [], total := 0, out := [], pos := 0 }

/-- The latch before the first command: unspecified by R44 and never read before it is written. DESIGN CHOICE zero. -/
def Latch.zero : Latch :=
  { cmd := 0, src := 0, dst := 0, len := 0, param := 0, dim := 0, addrLo := 0, addrHi := 0 }

/-- The block right after power-on reset (R44, R280, R282): no LMEM byte has a known value, and no host access is
scheduled. -/
def State.reset : State :=
  { params := Config.params
    ctrl := { ieDone := false, ieErr := false }
    status := { busy := false, done := false, err := false, keyv := false, ovr := false, errcode := .noError }
    cmd := 0
    src := 0
    dst := 0
    len := 0
    param := 0
    dim := Config.dimReset
    addrLo := 0
    addrHi := 0
    key8 := 0
    acc := Config.ckSeed
    result := 0
    lat := Latch.zero
    dec := Decoder.idle
    mem := []
    touched := []
    draw := 0
    turns := []
    busReads := [] }

/-- Why a host access is a bus error (20_memory.md R71 to R73). -/
inductive BusError where
  /-- A CSR access that is not 4 bytes wide (R71). -/
  | csrWidth
  /-- A CSR access at an address that is no multiple of 4 (R71). -/
  | csrMisaligned
  /-- An access to a reserved CSR offset 0x38 to 0xFC (R42, R73). -/
  | csrReserved
  /-- An access to an unmapped range (R62, R73). -/
  | unmapped
  /-- An LMEM access that is not naturally aligned (R72). -/
  | lmemMisaligned
  /-- An LMEM access that starts inside the window and runs past its end (R72). -/
  | lmemPastEnd
deriving DecidableEq, Repr

/-- The one way the machine stops. -/
inductive Fault where
  /-- Raised by a host access that gets a bus error. R73: "a model treats a host access that gets a bus error as a fault
  of the host agent", and the block's state is unchanged. Safe: the run ends where the spec says the host faults. -/
  | busError (why : BusError)
deriving DecidableEq, Repr

/-- Why an instruction has no meaning. -/
inductive Refusal where
  /-- Reserved for an arm of `exec` without a meaning. No arm of this model answers it, so it is safe. -/
  | notModelled (mnemonic : String)
deriving DecidableEq, Repr

end Sys2Proof.Machine
end

