-- ==== Sys2Proof/Machine/Ops.lean ====
section
/-! DEFINITION. The named operations over LMEM and the registers: byte lists (00_scope.md R10), LMEM and its canonical
form (R60, R63), planes (R68), unspecified bytes (R255), and completion of a command with and without an error (R135,
R253). -/

namespace Sys2Proof.Machine

/-! ### Byte lists (R10) -/

/-- `be_n(v)`: the n bytes of v, the most significant first (R10). -/
def beBytes (n v : Nat) : List Byte :=
  (List.range n).map fun i => BitVec.ofNat 8 (v >>> (8 * (n - 1 - i)))

/-- `xor_k(L)` (R10, R171). -/
def xorBytes (k : Byte) (L : List Byte) : List Byte := L.map fun b => b ^^^ k

/-- The first `n` elements, padded with `x` where the list is shorter. -/
def takePad {α : Type} (n : Nat) (x : α) (L : List α) : List α :=
  L.take n ++ List.replicate (n - L.length) x

/-! ### LMEM -/

/-- The canonical form: offsets strictly rising. An unlisted offset reads as no value, so no entry repeats one. -/
abbrev Memory.wf (m : Memory) : Prop := m.Pairwise fun x y => x.1 < y.1

/-- The byte written last at an offset, or none where nothing has been written. This is the one place that says what an
unlisted offset holds: no known value (R282). -/
def Memory.read (m : Memory) (a : Nat) : Option Byte :=
  match m with
  | [] => none
  | (k, b) :: rest => if k = a then some b else Memory.read rest a

/-- Write one byte, keeping the offsets strictly rising. -/
def Memory.write (m : Memory) (a : Nat) (b : Byte) : Memory :=
  match m with
  | [] => [(a, b)]
  | (k, c) :: rest =>
    if a < k then (a, b) :: (k, c) :: rest
    else if a = k then (a, b) :: rest
    else (k, c) :: Memory.write rest a b

/-- Write the bytes of a list at increasing offsets (R11, MemWrite). -/
def Memory.writeList (m : Memory) (a : Nat) : List Byte → Memory
  | [] => m
  | b :: bs => Memory.writeList (Memory.write m a b) (a + 1) bs

/-- Write the unspecified bytes of draw numbers n, n + 1, … at the given offsets. -/
def Memory.drawInto (m : Memory) (n : Nat) : List Nat → Memory
  | [] => m
  | a :: as => Memory.drawInto (Memory.write m a (Config.freeByte n)) (n + 1) as

/-- LMEM[a]: the byte written last, else what power-on left there, a free value (R282, U5). -/
def readByte (s : State) (a : Nat) : Byte :=
  (Memory.read s.mem a).getD (Config.powerOnByte a)

/-- `MemRead(a, n)` (R11). -/
def memRead (s : State) (a n : Nat) : List Byte :=
  (List.range n).map fun i => readByte s (a + i)

/-- Replace LMEM. -/
def setMem (m : Memory) (s : State) : State := { s with mem := m }

/-- `MemWrite(a, len(L), L)` (R11). -/
def memWrite (a : Nat) (L : List Byte) (s : State) : State := setMem (Memory.writeList s.mem a L) s

/-- Every byte at the given offsets becomes unspecified: a free value each (R255, R283, R289). -/
def unspecify (offs : List Nat) (s : State) : State :=
  { s with mem := Memory.drawInto s.mem s.draw offs, draw := s.draw + offs.length }

/-! ### Planes (R68) -/

/-- PB(N): the bytes of a plane of N pixels (R68). -/
def planeSize (n : Nat) : Nat := (n + 7) / 8

/-- The number whose bits are the given pixels, the first pixel in the most significant bit. -/
def packBits (L : List Pixel) : Nat := L.foldl (fun acc p => 2 * acc + p.toNat) 0

/-- The 8 pixels of a byte, bit 7 first (R68). -/
def bytePixels (b : Byte) : List Pixel := (List.range 8).map fun i => b.getLsbD (7 - i)

/-- The `n` bytes that hold the pixels of a plane, padding bits 0 (R68). -/
def planeBytes (n : Nat) (P : List Pixel) : List Byte :=
  match n with
  | 0 => []
  | n + 1 => BitVec.ofNat 8 (packBits (takePad 8 false P)) :: planeBytes n (P.drop 8)

/-- `PlaneRead(p, N)` (R68). -/
def planeRead (s : State) (p n : Nat) : List Pixel :=
  ((memRead s p (planeSize n)).flatMap bytePixels).take n

/-- `PlaneWrite(p, N, P)`: all PB(N) bytes, padding bits 0 (R68). -/
def planeWrite (p n : Nat) (P : List Pixel) (s : State) : State :=
  memWrite p (planeBytes (planeSize n) P) s

/-! ### Registers a command writes -/

/-- ACC <- h (R34). -/
def setAcc (h : Half) (s : State) : State := { s with acc := h }

/-- KEY8 <- k and KEYV <- v (R37). -/
def setKey (k : Byte) (v : Bool) (s : State) : State :=
  { s with key8 := k, status := { s.status with keyv := v } }

/-- Replace the hidden state of RLE_DEC (R39). -/
def setDec (d : Decoder) (s : State) : State := { s with dec := d }

/-- Advance the counter of drawn free values. -/
def setDraw (n : Nat) (s : State) : State := { s with draw := n }

/-- Replace the rest of the schedule. -/
def setTurns (ts : List Turn) (s : State) : State := { s with turns := ts }

/-! ### Completion (R135) and the error entry (R253) -/

/-- Completion with a code and a result (R135): RESULT, ERRCODE, ERR where the code is an error, DONE, BUSY. The hidden
state of the command ends with it (R39). -/
def finish (code : ErrCode) (res : Word) (s : State) : State :=
  { s with
    result := res
    status := { s.status with
      errcode := code
      err := s.status.err || (code != .noError)
      done := true
      busy := false }
    dec := Decoder.idle
    touched := [] }

/-- `complete(res)` (R256): completion without an error. -/
def complete (res : Word) (s : State) : State := finish .noError res s

/-- `raise E(res)` (R253, R256): taking the machine's exception. No other register is saved and nothing moves; the host
returns from it by clearing the STATUS bits (R258, `clearStatus`). -/
def raiseError (e : ErrCode) (res : Word) (s : State) : State := finish e res s

end Sys2Proof.Machine
end

