-- ==== Sys2Proof/Machine/Flags.lean ====
section
/-! DEFINITION. The status and control words and the interrupt line: the numbers of the error codes (60_exceptions.md
R250), what a read of STATUS, CTRL, KEY, ACC, DIM and ADDR_HI shows (10_state.md R23, R24, R31 to R34, R42), the
write-1-to-clear of STATUS (R25) and IRQ (R262). -/

namespace Sys2Proof.Machine

/-- The code of R250, as bits 15:8 of STATUS show it. -/
def errNumber : ErrCode → Byte
  | .noError => 0x00
  | .illegalCmd => 0x01
  | .badParam => 0x02
  | .noKey => 0x03
  | .keyLocked => 0x04
  | .countOverflow => 0x05
  | .badSeq => 0x06
  | .range => 0x07
  | .overlap => 0x08
  | .encOverflow => 0x09
  | .decTruncated => 0x0A
  | .decUnderrun => 0x0B
  | .decOverrun => 0x0C
  | .decTrailing => 0x0D

/-- A bit at a position of a 32-bit word. -/
def bitAt (i : Nat) (b : Bool) : Word := (BitVec.ofBool b).zeroExtend 32 <<< i

/-- The STATUS word of R24 with an 8-bit ERRCODE field; the reserved bits read 0 (R42). -/
def statusWord (st : Status) (errcode : Byte) : Word :=
  bitAt 0 st.busy ||| bitAt 1 st.done ||| bitAt 2 st.err ||| bitAt 3 st.keyv ||| bitAt 4 st.ovr |||
    (errcode.zeroExtend 32 <<< 8)

/-- The CTRL word of R23: SRST and the reserved bits read 0. -/
def ctrlWord (c : Ctrl) : Word := bitAt 0 c.ieDone ||| bitAt 1 c.ieErr

/-- The KEY word of R33: KEY8 while a key is loaded, else 0. -/
def keyWord (s : State) : Word := if s.status.keyv then s.key8.zeroExtend 32 else 0

/-- A host write of w to STATUS (R25): write 1 to clear DONE, ERR and OVR; every other bit is ignored. -/
def clearStatus (w : Word) (st : Status) : Status :=
  { st with
    done := st.done && !w.getLsbD 1
    err := st.err && !w.getLsbD 2
    ovr := st.ovr && !w.getLsbD 4 }

/-- The interrupt line of R262, a function of STATUS and CTRL at every moment. -/
def irq (s : State) : Bool :=
  (s.status.done && s.ctrl.ieDone) || (s.status.err && s.ctrl.ieErr)

end Sys2Proof.Machine
end

