-- ==== Sys2Proof/WellFormed.lean ====
section
/-! DEFINITION. Which instructions have an encoding. Every command and every literal, 2-byte and 3-byte token has one. A
1-byte run token whose first byte would be that of a 3-byte or 2-byte token (x = 0 and r ≤ 1) is none: 30_encoding.md R94
tests those two kinds first, so sb & 0x3F ∉ {0x00, 0x01}. -/

namespace Sys2Proof

/-- The instruction has an encoding of its own (R94). -/
def Instr.wellFormed : Instr → Bool
  | .nop | .ckInit | .ckByte | .ckRun | .ckCalc => true
  | .keyLoad | .keyClear | .xorBlock | .phBuild | .thBuild => true
  | .rleEnc | .rleDec | .pktBuild | .pktStream => true
  | .rleLit _ | .rleRun3 _ _ _ | .rleRun2 _ _ => true
  | .rleRun1 _ x r => x || decide (2 ≤ r.toNat)

end Sys2Proof
end

