-- ==== Sys2Proof/Decode.lean ====
section
/-! DEFINITION. Decoding and encoding of the two languages of 30_encoding.md: command words (R90 to R92) and RLE tokens
(R94, R95). Both decoders are total and reject by name. -/

namespace Sys2Proof

/-- Why a command word is illegal (R90). -/
inductive CommandReject where
  /-- One of the bits 31:8 is 1. -/
  | reservedBits
  /-- The opcode is none of the fourteen of R91. -/
  | unassignedOpcode
deriving DecidableEq, Repr

/-- Why no token can be read from the rest of a stream (R94 leaves no byte value without a kind). -/
inductive TokenReject where
  /-- There is no byte left. -/
  | emptyStream
  /-- The first byte announces operand bytes that the stream does not have. -/
  | truncatedToken
deriving DecidableEq, Repr

/-- The opcode map of R91. -/
def opcodeMap : List (Byte × Instr) :=
  [(0x00, .nop), (0x01, .ckInit), (0x02, .ckByte), (0x03, .ckRun), (0x04, .ckCalc),
   (0x10, .keyLoad), (0x11, .keyClear), (0x12, .xorBlock), (0x13, .phBuild), (0x14, .thBuild),
   (0x20, .rleEnc), (0x21, .rleDec), (0x30, .pktBuild), (0x31, .pktStream)]

/-- OP, bits 7:0 of a command word (R90). -/
def opField (w : Word) : Byte := w.extractLsb' 0 8

/-- Bits 31:8 of a command word, reserved (R90). -/
def reservedField (w : Word) : BitVec 24 := w.extractLsb' 8 24

/-- The command of a word, or why the word is illegal (R90, R91). -/
def decodeCommand (w : Word) : Except CommandReject Instr :=
  if reservedField w ≠ 0 then .error .reservedBits
  else
    match opcodeMap.find? (fun row => row.1 == opField w) with
    | some row => .ok row.2
    | none => .error .unassignedOpcode

/-- The token at the front of a stream. The first byte decides the kind, in the order literal, 3-byte run, 2-byte run,
1-byte run (R94); its fields are those of R95. -/
def decodeToken : List Byte → Except TokenReject Instr
  | [] => .error .emptyStream
  | sb :: rest =>
    if sb &&& 0x80 = 0x80 then .ok (.rleLit (sb.extractLsb' 0 7))
    else if sb &&& 0xBF = 0x00 then
      match rest with
      | lo :: hi :: _ => .ok (.rleRun3 (sb.getLsbD 6) lo hi)
      | _ => .error .truncatedToken
    else if sb &&& 0xBF = 0x01 then
      match rest with
      | n :: _ => .ok (.rleRun2 (sb.getLsbD 6) n)
      | _ => .error .truncatedToken
    else .ok (.rleRun1 (sb.getLsbD 6) (sb.getLsbD 5) (sb.extractLsb' 0 5))

/-- The `k` bytes of a number, the least significant first (R10, le_n). -/
def leBytes (k v : Nat) : List Byte :=
  (List.range k).map fun i => BitVec.ofNat 8 (v >>> (8 * i))

/-- The number whose bytes are given, the least significant first. -/
def leValue : List Byte → Nat
  | [] => 0
  | b :: bs => b.toNat + 256 * leValue bs

/-- The instruction of a row of spec/opcode_table.json given as a number of `nbits` bits: a token for rows of at most
three bytes (operand bytes the table gives no bits are 0), a command word for the others. -/
def decodeTableWord (nbits w : Nat) : Option Instr :=
  if nbits ≤ 24 then (decodeToken (leBytes 3 (w % 2 ^ nbits))).toOption
  else (decodeCommand (BitVec.ofNat 32 w)).toOption

/-- The command word of an opcode: OP in bits 7:0 and zeros above (R90). -/
def commandWord (op : Byte) : Word := op.zeroExtend 32

/-- The opcode of a command (R91); a token has none. -/
def opcodeOf : Instr → Option Byte
  | .nop => some 0x00
  | .ckInit => some 0x01
  | .ckByte => some 0x02
  | .ckRun => some 0x03
  | .ckCalc => some 0x04
  | .keyLoad => some 0x10
  | .keyClear => some 0x11
  | .xorBlock => some 0x12
  | .phBuild => some 0x13
  | .thBuild => some 0x14
  | .rleEnc => some 0x20
  | .rleDec => some 0x21
  | .pktBuild => some 0x30
  | .pktStream => some 0x31
  | .rleLit _ => none
  | .rleRun3 _ _ _ => none
  | .rleRun2 _ _ => none
  | .rleRun1 _ _ _ => none

/-- The bytes of a token (R94, R95); a command has none. -/
def tokenBytes : Instr → List Byte
  | .rleLit p => [(1#1 ++ p : BitVec 8)]
  | .rleRun3 v lo hi => [(0#1 ++ BitVec.ofBool v ++ 0#6 : BitVec 8), lo, hi]
  | .rleRun2 v n => [(0#1 ++ BitVec.ofBool v ++ 1#6 : BitVec 8), n]
  | .rleRun1 v x r => [(0#1 ++ BitVec.ofBool v ++ BitVec.ofBool x ++ r : BitVec 8)]
  | .nop | .ckInit | .ckByte | .ckRun | .ckCalc => []
  | .keyLoad | .keyClear | .xorBlock | .phBuild | .thBuild => []
  | .rleEnc | .rleDec | .pktBuild | .pktStream => []

/-- The bytes of an instruction: those of its command word, the least significant first, or those of its token. A command
word is written to CMD in one access and has no byte order of its own (20_memory.md R69): the order is a DESIGN CHOICE. -/
def encode (i : Instr) : List Byte :=
  match opcodeOf i with
  | some op => leBytes 4 (commandWord op).toNat
  | none => tokenBytes i

/-- The decoder of an instruction's own language on a list of bytes: for a command the 32-bit word of the first four
bytes, for a token the front of the stream. -/
def decodeAs (command : Bool) (bs : List Byte) : Option Instr :=
  if command then
    if 4 ≤ bs.length then (decodeCommand (BitVec.ofNat 32 (leValue (bs.take 4)))).toOption else none
  else (decodeToken bs).toOption

end Sys2Proof
end

