-- ==== Sys2Proof/Machine/Operands.lean ====
section
/-! DEFINITION. What a command takes from the latch (30_encoding.md R93), the LMEM ranges of every command
(40_dispatch.md R139), the errors it can end with (60_exceptions.md R251), the common checks in their order (R133), and
what every command does around its own effect (R133, R289). -/

namespace Sys2Proof.Machine

/-! ### Operand assembly (R93): all from the latch, zero-extended, never scaled -/

/-- `a = LAT.SRC`. -/
def opSrc (l : Latch) : Nat := l.src.toNat

/-- `d = LAT.DST`. -/
def opDst (l : Latch) : Nat := l.dst.toNat

/-- `n = LAT.LEN`. -/
def opLen (l : Latch) : Nat := l.len.toNat

/-- `b = LAT.PARAM[7:0]` (CK_BYTE). -/
def opByte (l : Latch) : Byte := l.param.extractLsb' 0 8

/-- `red = LAT.PARAM[0]` (PH_BUILD). -/
def opRed (l : Latch) : Bool := l.param.getLsbD 0

/-- `seq = LAT.PARAM[15:0]` (PKT_BUILD). -/
def opSeq (l : Latch) : Nat := (l.param.extractLsb' 0 16).toNat

/-- `W = LAT.DIM[15:0] + 1`. -/
def opWidth (l : Latch) : Nat := (l.dim.extractLsb' 0 16).toNat + 1

/-- `H = LAT.DIM[30:16] + 1`. -/
def opHeight (l : Latch) : Nat := (l.dim.extractLsb' 16 15).toNat + 1

/-- `N_PIX = W × H`. -/
def opPixels (l : Latch) : Nat := opWidth l * opHeight l

/-- The six address bytes a0 to a5 (R32, R93). -/
def opAddr (l : Latch) : List Byte :=
  [l.addrHi.extractLsb' 8 8, l.addrHi.extractLsb' 0 8, l.addrLo.extractLsb' 24 8, l.addrLo.extractLsb' 16 8,
   l.addrLo.extractLsb' 8 8, l.addrLo.extractLsb' 0 8]

/-- `packet_count(N)` (44_packetizer.md R230). -/
def packetCount (n : Nat) : Nat := n / Config.chunkBytes + 1

/-! ### Ranges -/

/-- An LMEM range of `len` bytes from offset `start`. -/
structure Range where
  start : Nat
  len : Nat
deriving DecidableEq, Repr

/-- The range is valid (20_memory.md R64), on unbounded naturals. -/
def Range.valid (size : Nat) (r : Range) : Bool := decide (r.start + r.len ≤ size)

/-- The two ranges overlap (20_memory.md R65). -/
def Range.overlaps (r t : Range) : Bool :=
  decide (0 < r.len ∧ 0 < t.len ∧ r.start < t.start + t.len ∧ t.start < r.start + r.len)

/-- The offset lies in the range. -/
def Range.has (r : Range) (a : Nat) : Bool := decide (r.start ≤ a ∧ a < r.start + r.len)

/-- The offsets of the range that exist in an LMEM of the given size. -/
def Range.offsets (size : Nat) (r : Range) : List Nat :=
  (List.range (min r.len (size - r.start))).map fun i => r.start + i

/-- The input range of a command (R139). -/
def inputRange (i : Instr) (l : Latch) : Option Range :=
  match i with
  | .ckRun | .ckCalc => some ⟨opSrc l, opLen l⟩
  | .xorBlock => some ⟨opSrc l, opLen l⟩
  | .rleEnc => some ⟨opSrc l, planeSize (opPixels l)⟩
  | .rleDec => some ⟨opSrc l, opLen l⟩
  | .pktBuild | .pktStream => some ⟨opSrc l, opLen l⟩
  | .nop | .ckInit | .ckByte | .keyLoad | .keyClear | .phBuild | .thBuild => none
  | .rleLit _ | .rleRun3 _ _ _ | .rleRun2 _ _ | .rleRun1 _ _ _ => none

/-- The output range of a command (R139). -/
def outputRange (i : Instr) (l : Latch) : Option Range :=
  match i with
  | .xorBlock => some ⟨opDst l, opLen l⟩
  | .phBuild => some ⟨opDst l, Config.planeHeaderBytes⟩
  | .thBuild => some ⟨opDst l, Config.txnHeaderBytes⟩
  | .rleEnc => some ⟨opDst l, opLen l⟩
  | .rleDec => some ⟨opDst l, planeSize (opPixels l)⟩
  | .pktBuild => some ⟨opDst l, Config.packetBytes⟩
  | .pktStream => some ⟨opDst l, Config.packetBytes * packetCount (opLen l)⟩
  | .nop | .ckInit | .ckByte | .ckRun | .ckCalc | .keyLoad | .keyClear => none
  | .rleLit _ | .rleRun3 _ _ _ | .rleRun2 _ _ | .rleRun1 _ _ _ => none

/-- The offset lies in an optional range. -/
def inRange (r : Option Range) (a : Nat) : Bool :=
  match r with
  | none => false
  | some r => r.has a

/-- The existing offsets of an optional range. -/
def rangeOffsets (size : Nat) (r : Option Range) : List Nat :=
  match r with
  | none => []
  | some r => r.offsets size

/-! ### The common checks (R133) -/

/-- Check 2: a PARAM bit the command does not use is 1. -/
def badParam (i : Instr) (l : Latch) : Bool :=
  match i with
  | .ckByte => l.param.extractLsb' 8 24 != 0
  | .phBuild => l.param.extractLsb' 1 31 != 0
  | .pktBuild => l.param.extractLsb' 16 16 != 0
  | .nop | .ckInit | .ckRun | .ckCalc | .keyLoad | .keyClear | .xorBlock | .thBuild => false
  | .rleEnc | .rleDec | .pktStream => false
  | .rleLit _ | .rleRun3 _ _ _ | .rleRun2 _ _ | .rleRun1 _ _ _ => false

/-- The command works with the key (check 3, R139). -/
def needsKey : Instr → Bool
  | .xorBlock | .thBuild | .pktBuild | .pktStream => true
  | .nop | .ckInit | .ckByte | .ckRun | .ckCalc | .keyLoad | .keyClear | .phBuild => false
  | .rleEnc | .rleDec => false
  | .rleLit _ | .rleRun3 _ _ _ | .rleRun2 _ _ | .rleRun1 _ _ _ => false

/-- Check 3, second half: KEY_LOAD needs that no key is loaded. -/
def locksKey : Instr → Bool
  | .keyLoad => true
  | .nop | .ckInit | .ckByte | .ckRun | .ckCalc | .keyClear | .xorBlock | .phBuild | .thBuild => false
  | .rleEnc | .rleDec | .pktBuild | .pktStream => false
  | .rleLit _ | .rleRun3 _ _ _ | .rleRun2 _ _ | .rleRun1 _ _ _ => false

/-- The command produces or announces packets (check 4). -/
def countsPackets : Instr → Bool
  | .thBuild | .pktBuild | .pktStream => true
  | .nop | .ckInit | .ckByte | .ckRun | .ckCalc | .keyLoad | .keyClear | .xorBlock | .phBuild => false
  | .rleEnc | .rleDec => false
  | .rleLit _ | .rleRun3 _ _ _ | .rleRun2 _ _ | .rleRun1 _ _ _ => false

/-- Check 5: the sequence number of PKT_BUILD is 0 or past the packet count. -/
def badSeq (i : Instr) (l : Latch) : Bool :=
  match i with
  | .pktBuild => decide (opSeq l = 0 ∨ packetCount (opLen l) < opSeq l)
  | .nop | .ckInit | .ckByte | .ckRun | .ckCalc | .keyLoad | .keyClear | .xorBlock | .phBuild | .thBuild => false
  | .rleEnc | .rleDec | .pktStream => false
  | .rleLit _ | .rleRun3 _ _ _ | .rleRun2 _ _ | .rleRun1 _ _ _ => false

/-- An optional range is not valid (check 6). -/
def badRange (size : Nat) (r : Option Range) : Bool :=
  match r with
  | none => false
  | some r => !r.valid size

/-- Check 7: the input and the output range overlap, but for XOR_BLOCK in place (R65, R133). -/
def badOverlap (i : Instr) (l : Latch) : Bool :=
  match inputRange i l, outputRange i l with
  | some r, some t => r.overlaps t && !(decide (i = .xorBlock) && decide (opSrc l = opDst l))
  | some _, none => false
  | none, some _ => false
  | none, none => false

/-- The first error of a list of checks. -/
def firstError : List (Bool × ErrCode) → Option ErrCode
  | [] => none
  | (failed, e) :: rest => if failed then some e else firstError rest

/-- The checks 2 to 7 of R133 in their order; check 1 is the decoder's. -/
def commonCheck (i : Instr) (s : State) : Option ErrCode :=
  firstError
    [(badParam i s.lat, .badParam),
     (needsKey i && !s.status.keyv, .noKey),
     (locksKey i && s.status.keyv, .keyLocked),
     (countsPackets i && decide (0xFFFF < packetCount (opLen s.lat)), .countOverflow),
     (badSeq i s.lat, .badSeq),
     (badRange s.params.lmemSize (inputRange i s.lat), .range),
     (badRange s.params.lmemSize (outputRange i s.lat), .range),
     (badOverlap i s.lat, .overlap)]

/-! ### What a command can end with -/

/-- The error codes of a command (R251). -/
def commandCodes : Instr → List ErrCode
  | .nop | .ckInit | .keyClear => []
  | .ckByte => [.badParam]
  | .ckRun | .ckCalc => [.range]
  | .keyLoad => [.keyLocked]
  | .xorBlock => [.noKey, .range, .overlap]
  | .phBuild => [.badParam, .range]
  | .thBuild => [.noKey, .countOverflow, .range]
  | .rleEnc => [.range, .overlap, .encOverflow]
  | .rleDec => [.range, .overlap, .decTruncated, .decUnderrun, .decOverrun, .decTrailing]
  | .pktBuild => [.badParam, .noKey, .countOverflow, .badSeq, .range, .overlap]
  | .pktStream => [.noKey, .countOverflow, .range, .overlap]
  | .rleLit _ | .rleRun3 _ _ _ | .rleRun2 _ _ | .rleRun1 _ _ _ => []

/-- The command writes ACC (R34). -/
def writesAcc : Instr → Bool
  | .ckInit | .ckByte | .ckRun | .ckCalc | .thBuild | .pktBuild | .pktStream => true
  | .nop | .keyLoad | .keyClear | .xorBlock | .phBuild | .rleEnc | .rleDec => false
  | .rleLit _ | .rleRun3 _ _ _ | .rleRun2 _ _ | .rleRun1 _ _ _ => false

/-! ### Around a command's own effect -/

/-- Which code a disturbed command ends with: NONE or one of R251, unspecified which (R289). -/
def disturbedCode (i : Instr) (n : Nat) : ErrCode :=
  (ErrCode.noError :: commandCodes i).getD (Config.freeIndex n % (commandCodes i).length.succ) .noError

/-- ACC after a disturbed command: unspecified if the command writes ACC (R289). -/
def disturbedAcc (i : Instr) (acc : Half) (n : Nat) : Half := if writesAcc i then Config.freeHalf n else acc

/-- The completion of a command into whose ranges the host wrote while it ran (70_reset_and_hazards.md R289): the output
range and the written bytes are unspecified, so are RESULT and, if the command writes ACC, ACC; the code is NONE or one
of R251. -/
def finishDisturbed (i : Instr) (s : State) : State :=
  let t := unspecify (rangeOffsets s.params.lmemSize (outputRange i s.lat) ++ s.touched) s
  finish (disturbedCode i (t.draw + 1)) (Config.freeWord (t.draw + 2))
    (setDraw (t.draw + 3) (setAcc (disturbedAcc i t.acc t.draw) t))

/-- One command (R133, R134): unspecified where the host disturbed it (R289), the first error of the common checks with
RESULT 0 (R250, R254), else its own effect. -/
def runCommand (i : Instr) (effect : State → State) (s : State) : State :=
  if s.touched ≠ [] then finishDisturbed i s
  else
    match commonCheck i s with
    | some e => raiseError e 0 s
    | none => effect s

end Sys2Proof.Machine
end

