-- ==== Sys2Proof/Machine/Bus.lean ====
section
/-! DEFINITION. The host agent (20_memory.md sections 1, 4 and 5): the address map, the registers as the host reads and
writes them (10_state.md), acceptance of a command (40_dispatch.md R131, R132), soft reset (70_reset_and_hazards.md
R283), and what the host sees and disturbs while a command runs (R288, R289). -/

namespace Sys2Proof.Machine

/-- The fourteen registers of 10_state.md R22. -/
inductive Csr where
  | ctrl
  | status
  | cmd
  | src
  | dst
  | len
  | param
  | dim
  | addrLo
  | addrHi
  | key
  | acc
  | result
  | id
deriving DecidableEq, Repr

/-- The byte offset of a register in the CSR window (R22). -/
def csrOffset : Csr → Nat
  | .ctrl => 0x00
  | .status => 0x04
  | .cmd => 0x08
  | .src => 0x0C
  | .dst => 0x10
  | .len => 0x14
  | .param => 0x18
  | .dim => 0x1C
  | .addrLo => 0x20
  | .addrHi => 0x24
  | .key => 0x28
  | .acc => 0x2C
  | .result => 0x30
  | .id => 0x34

/-- The registers in the order of their offsets. -/
def csrList : List Csr :=
  [.ctrl, .status, .cmd, .src, .dst, .len, .param, .dim, .addrLo, .addrHi, .key, .acc, .result, .id]

/-- Bytes moved by an access (R70). -/
def widthBytes : Width → Nat
  | .b1 => 1
  | .b2 => 2
  | .b4 => 4

/-- What an access that is no bus error reaches. -/
inductive BusTarget where
  | csr (reg : Csr)
  | lmem (off : Nat)
deriving DecidableEq, Repr

/-- The first address past the CSR window (R62). -/
def csrWindowEnd : Nat := 0x100

/-- The address of LMEM byte 0 (R62). -/
def lmemBase : Nat := 0x100000

/-- The host address map with the width and alignment rules (R62, R71 to R73). -/
def busTarget (size : Nat) (w : Width) (a : BitVec 21) : Except BusError BusTarget :=
  if a.toNat < csrWindowEnd then
    if w ≠ .b4 then .error .csrWidth
    else if a.toNat % 4 ≠ 0 then .error .csrMisaligned
    else
      match csrList.find? (fun c => csrOffset c == a.toNat) with
      | some c => .ok (.csr c)
      | none => .error .csrReserved
  else if a.toNat < lmemBase then .error .unmapped
  else if size ≤ a.toNat - lmemBase then .error .unmapped
  else if a.toNat % widthBytes w ≠ 0 then .error .lmemMisaligned
  else if size < a.toNat - lmemBase + widthBytes w then .error .lmemPastEnd
  else .ok (.lmem (a.toNat - lmemBase))

/-! ### The running command, as the host's accesses meet it -/

/-- The input range of the running command; none while idle or for an illegal word. -/
def runningInput (s : State) : Option Range :=
  if s.status.busy then
    match decodeCommand s.lat.cmd with
    | .ok i => inputRange i s.lat
    | .error _ => none
  else none

/-- The output range of the running command; none while idle or for an illegal word. -/
def runningOutput (s : State) : Option Range :=
  if s.status.busy then
    match decodeCommand s.lat.cmd with
    | .ok i => outputRange i s.lat
    | .error _ => none
  else none

/-! ### Reads -/

/-- What a host read of a register returns: its value, but an unspecified value of its field for ACC, RESULT, KEY and
ERRCODE while a command runs (R288). Reserved bits read 0 in every case (R42). -/
def csrRead (c : Csr) (s : State) : Word :=
  match c with
  | .ctrl => ctrlWord s.ctrl
  | .status => statusWord s.status (if s.status.busy then Config.freeByte s.draw else errNumber s.status.errcode)
  | .cmd => s.cmd
  | .src => s.src
  | .dst => s.dst
  | .len => s.len
  | .param => s.param
  | .dim => s.dim.zeroExtend 32
  | .addrLo => s.addrLo
  | .addrHi => s.addrHi.zeroExtend 32
  | .key => if s.status.busy then (Config.freeByte s.draw).zeroExtend 32 else keyWord s
  | .acc => (if s.status.busy then Config.freeHalf s.draw else s.acc).zeroExtend 32
  | .result => if s.status.busy then Config.freeWord s.draw else s.result
  | .id => Config.idWord

/-- The byte a host read of LMEM offset `off + i` returns: unspecified in the running command's output range (R288). -/
def hostByte (s : State) (off i : Nat) : Byte :=
  if inRange (runningOutput s) (off + i) then Config.freeByte (s.draw + i) else readByte s (off + i)

/-- What a host read of LMEM returns, in little-endian lanes (R69). -/
def lmemRead (w : Width) (off : Nat) (s : State) : Word :=
  BitVec.ofNat 32 (leValue ((List.range (widthBytes w)).map fun i => hostByte s off i))

/-- Answer a host read. The block's state is unchanged (R41, R75); a read while a command runs may have drawn free
values. -/
def answer (v : Word) (s : State) : State :=
  { s with
    busReads := v :: s.busReads
    draw := if s.status.busy then s.draw + 4 else s.draw }

/-! ### Writes -/

/-- Acceptance of a command word (R131): CMD, the latch, BUSY. -/
def acceptCommand (w : Word) (s : State) : State :=
  { s with
    cmd := w
    lat := { cmd := w, src := s.src, dst := s.dst, len := s.len, param := s.param, dim := s.dim,
             addrLo := s.addrLo, addrHi := s.addrHi }
    status := { s.status with busy := true } }

/-- A host write to CMD: accepted while idle (R131), dropped with OVR while a command runs (R132). -/
def writeCmd (w : Word) (s : State) : State :=
  if s.status.busy then { s with status := { s.status with ovr := true } } else acceptCommand w s

/-- Soft reset (R283): every register and the engine state as after power-on reset; a running command is aborted and its
output range is unspecified; every other LMEM byte is kept. -/
def softReset (s : State) : State :=
  let s1 := unspecify (rangeOffsets s.params.lmemSize (runningOutput s)) s
  { State.reset with
    params := s1.params
    mem := s1.mem
    draw := s1.draw
    turns := s1.turns
    busReads := s1.busReads }

/-- A host write to CTRL (R23, R283). -/
def writeCtrl (w : Word) (s : State) : State :=
  if w.getLsbD 31 then softReset s
  else { s with ctrl := { ieDone := w.getLsbD 0, ieErr := w.getLsbD 1 } }

/-- A host write to a register (10_state.md). Reserved bits and read-only registers ignore it (R42, R43). -/
def csrWrite (c : Csr) (w : Word) (s : State) : State :=
  match c with
  | .ctrl => writeCtrl w s
  | .status => { s with status := clearStatus w s.status }
  | .cmd => writeCmd w s
  | .src => { s with src := w }
  | .dst => { s with dst := w }
  | .len => { s with len := w }
  | .param => { s with param := w }
  | .dim => { s with dim := w.extractLsb' 0 31 }
  | .addrLo => { s with addrLo := w }
  | .addrHi => { s with addrHi := w.extractLsb' 0 16 }
  | .key => s
  | .acc => s
  | .result => s
  | .id => s

/-- The offsets of a host write that lie in the running command's ranges (R289). -/
def disturbedOffsets (s : State) (off n : Nat) : List Nat :=
  ((List.range n).map fun i => off + i).filter fun a => inRange (runningInput s) a || inRange (runningOutput s) a

/-- A host write to LMEM, in little-endian lanes (R69). -/
def lmemWrite (w : Width) (off : Nat) (data : Word) (s : State) : State :=
  memWrite off (leBytes (widthBytes w) data.toNat)
    { s with touched := s.touched ++ disturbedOffsets s off (widthBytes w) }

/-- One host access (R70): its effect, or the bus error that is a fault of the host agent (R73). -/
def hostStep (h : HostAccess) (s : State) : Host.Outcome State Fault Refusal :=
  match h with
  | .read w a =>
    match busTarget s.params.lmemSize w a with
    | .error e => .fault (.busError e)
    | .ok (.csr c) => .next (answer (csrRead c s) s)
    | .ok (.lmem off) => .next (answer (lmemRead w off s) s)
  | .write w a data =>
    match busTarget s.params.lmemSize w a with
    | .error e => .fault (.busError e)
    | .ok (.csr c) => .next (csrWrite c data s)
    | .ok (.lmem off) => .next (lmemWrite w off data s)

/-- The block-relative address of a register (R22, R62). -/
def csrAddress (c : Csr) : BitVec 21 := BitVec.ofNat 21 (csrOffset c)

/-- What follows a poll that has read BUSY = 1: the next poll, and before it the engine's step once the polls that the
schedule puts ahead of that step are made (R136). -/
def pollAgain (polls : Nat) (ts : List Turn) : List Turn :=
  match polls with
  | 0 => .engine :: .wait 0 :: ts
  | n + 1 => .wait n :: ts

/-- One poll of the line `wait` (30_encoding.md R101): `rd STATUS`, again while the value read has bit 0 = 1. That bit is
the true BUSY, also while a command runs (R288; `csrRead_status_busy`). -/
def waitStep (polls : Nat) (ts : List Turn) (s : State) : Host.Outcome State Fault Refusal :=
  hostStep (.read .b4 (csrAddress .status))
    (setTurns (if s.status.busy then pollAgain polls ts else ts) s)

end Sys2Proof.Machine
end

