-- ==== Sys2Proof/Machine/Checksum.lean ====
section
/-! DEFINITION. The checksum unit (41_checksum.md): the two nibble steps, the fold, and the four checksum commands. Every
checksum of the block is `checksum` (R152). -/

namespace Sys2Proof.Machine

/-- CK_TABLE[i] for a nibble i (R150). -/
def tableEntry (p : Params) (i : Nat) : Half := p.ckTable.get (Fin.ofNat 16 i)

/-- One pass of the loop of R151 on the naturals t and x: the new t. -/
def ckNibble (p : Params) (t x : Nat) : Nat :=
  (t <<< 4) ^^^ (tableEntry p ((((t >>> 8) ^^^ x) >>> 4) &&& 0xF)).toNat

/-- `ck_step(acc, b)` (R151): two passes, masked to 16 bits after the byte. -/
def ckStep (p : Params) (acc : Half) (b : Byte) : Half :=
  let t1 := ckNibble p acc.toNat b.toNat
  BitVec.ofNat 16 (ckNibble p t1 (b.toNat <<< 4))

/-- `ck_fold(acc, L)` (R152). -/
def ckFold (p : Params) (acc : Half) (L : List Byte) : Half := L.foldl (ckStep p) acc

/-- `checksum(L)` (R152). -/
def checksum (p : Params) (L : List Byte) : Half := ckFold p Config.ckSeed L

/-- ACC <- h and complete with ACC as the result. -/
def finishAcc (h : Half) (s : State) : State := complete (h.zeroExtend 32) (setAcc h s)

/-- The effect of CK_INIT (R155). -/
def ckInitEffect (s : State) : State := finishAcc Config.ckSeed s

/-- The effect of CK_BYTE (R156). -/
def ckByteEffect (s : State) : State := finishAcc (ckStep s.params s.acc (opByte s.lat)) s

/-- The effect of CK_RUN (R157). -/
def ckRunEffect (s : State) : State :=
  finishAcc (ckFold s.params s.acc (memRead s (opSrc s.lat) (opLen s.lat))) s

/-- The effect of CK_CALC (R158). -/
def ckCalcEffect (s : State) : State :=
  finishAcc (checksum s.params (memRead s (opSrc s.lat) (opLen s.lat))) s

/-- CK_INIT (R155). -/
def execCkInit (s : State) : Host.Outcome State Fault Refusal := .next (runCommand .ckInit ckInitEffect s)

/-- CK_BYTE (R156). -/
def execCkByte (s : State) : Host.Outcome State Fault Refusal := .next (runCommand .ckByte ckByteEffect s)

/-- CK_RUN (R157). -/
def execCkRun (s : State) : Host.Outcome State Fault Refusal := .next (runCommand .ckRun ckRunEffect s)

/-- CK_CALC (R158). -/
def execCkCalc (s : State) : Host.Outcome State Fault Refusal := .next (runCommand .ckCalc ckCalcEffect s)

end Sys2Proof.Machine
end

