-- ==== Sys2Proof/Machine/Control.lean ====
section
/-! DEFINITION. NOP and the illegal command word (40_dispatch.md section 2). -/

namespace Sys2Proof.Machine

/-- NOP (R140): `complete(0)`. -/
def execNop (s : State) : Host.Outcome State Fault Refusal := .next (runCommand .nop (complete 0) s)

/-- An illegal command word completes with ILLEGAL_CMD and RESULT 0 and changes nothing else (R90, R141). -/
def illegalCommand (s : State) : State := raiseError .illegalCmd 0 s

end Sys2Proof.Machine
end

