-- ==== Sys2Proof/Machine/FrameCodec.lean ====
section
/-! DEFINITION. The frame codec (42_framecodec.md): the session key, obfuscation, the plane header and the transaction
header with its byte-9 quirk, and the five commands over them. -/

namespace Sys2Proof.Machine

/-- `derive_key(addr)` (R170). -/
def deriveKey (addr : List Byte) : Byte := addr.foldl (fun k a => k ^^^ a) Config.keySeed

/-- `plane_header(red, W, H, L)` (R175; the layout of 30_encoding.md R97). -/
def planeHeader (red : Bool) (w h len : Nat) : List Byte :=
  let ptype := if red then 0x80000000 else 0x00000000
  let hfield := (h - 1) ||| (if red then 0x8000 else 0x0000)
  [0xFC] ++ beBytes 4 ptype ++ beBytes 2 hfield ++ beBytes 2 (w - 1) ++ beBytes 4 len

/-- `txn_raw(N)` (R178; the layout of 30_encoding.md R98): the 18 bytes before the checksum, with the tag "easyTag". -/
def txnRaw (n : Nat) : List Byte :=
  [0xFF, 0xFC] ++ [0x65, 0x61, 0x73, 0x79, 0x54, 0x61, 0x67] ++ [0x62] ++ beBytes 4 n ++
    beBytes 2 (packetCount n) ++ [0x42, 0x54]

/-- `txn_ck(N)` (R178). -/
def txnChecksum (p : Params) (n : Nat) : Half := checksum p (txnRaw n)

/-- `txn_plain(N)` (R178): the 20 bytes before obfuscation. -/
def txnPlain (p : Params) (n : Nat) : List Byte := txnRaw n ++ beBytes 2 (txnChecksum p n).toNat

/-- `txn_header(N, k)` (R179): byte 9 is XORed first, then every byte, byte 9 again included. -/
def txnHeader (p : Params) (n : Nat) (k : Byte) : List Byte :=
  xorBytes k ((txnPlain p n).modify 9 fun b => b ^^^ k)

/-- The effect of KEY_LOAD (R172). -/
def keyLoadEffect (s : State) : State :=
  let k := deriveKey (opAddr s.lat)
  complete (k.zeroExtend 32) (setKey k true s)

/-- The effect of KEY_CLEAR (R173). -/
def keyClearEffect (s : State) : State := complete 0 (setKey 0 false s)

/-- The effect of XOR_BLOCK (R174). -/
def xorBlockEffect (s : State) : State :=
  let L := memRead s (opSrc s.lat) (opLen s.lat)
  complete s.lat.len (memWrite (opDst s.lat) (xorBytes s.key8 L) s)

/-- The effect of PH_BUILD (R177). -/
def phBuildEffect (s : State) : State :=
  complete (BitVec.ofNat 32 Config.planeHeaderBytes)
    (memWrite (opDst s.lat) (planeHeader (opRed s.lat) (opWidth s.lat) (opHeight s.lat) (opLen s.lat)) s)

/-- The effect of TH_BUILD (R180). -/
def thBuildEffect (s : State) : State :=
  let n := opLen s.lat
  complete (BitVec.ofNat 32 (packetCount n))
    (setAcc (txnChecksum s.params n) (memWrite (opDst s.lat) (txnHeader s.params n s.key8) s))

/-- KEY_LOAD (R172). -/
def execKeyLoad (s : State) : Host.Outcome State Fault Refusal := .next (runCommand .keyLoad keyLoadEffect s)

/-- KEY_CLEAR (R173). -/
def execKeyClear (s : State) : Host.Outcome State Fault Refusal := .next (runCommand .keyClear keyClearEffect s)

/-- XOR_BLOCK (R174). -/
def execXorBlock (s : State) : Host.Outcome State Fault Refusal := .next (runCommand .xorBlock xorBlockEffect s)

/-- PH_BUILD (R177). -/
def execPhBuild (s : State) : Host.Outcome State Fault Refusal := .next (runCommand .phBuild phBuildEffect s)

/-- TH_BUILD (R180). -/
def execThBuild (s : State) : Host.Outcome State Fault Refusal := .next (runCommand .thBuild thBuildEffect s)

end Sys2Proof.Machine
end

