-- ==== Sys2Proof/Machine/Packetizer.lean ====
section
/-! DEFINITION. The packet assembler (44_packetizer.md): chunks, packets, PKT_BUILD and PKT_STREAM. -/

namespace Sys2Proof.Machine

/-- `chunk(Pay, s)` (R231): the 200 payload bytes of sequence number s, zero past the payload's end. -/
def chunk (pay : List Byte) (s : Nat) : List Byte :=
  takePad Config.chunkBytes 0x00 (pay.drop (Config.chunkBytes * (s - 1)))

/-- The 202 bytes the checksum of packet s covers (R232): sequence number, then the whole padded chunk. -/
def packetBody (pay : List Byte) (s : Nat) : List Byte := beBytes 2 s ++ chunk pay s

/-- The checksum of packet s (R232). -/
def packetChecksum (p : Params) (pay : List Byte) (s : Nat) : Half := checksum p (packetBody pay s)

/-- The 204 obfuscated bytes of packet s (R232; the layout of 30_encoding.md R99). -/
def packet (p : Params) (pay : List Byte) (s : Nat) (k : Byte) : List Byte :=
  xorBytes k (packetBody pay s ++ beBytes 2 (packetChecksum p pay s).toNat)

/-- The loop of R234: packets s = 1 to `count`, packet s at offset d + 204 × (s − 1). -/
def streamPackets (p : Params) (pay : List Byte) (k : Byte) (d : Nat) : Nat → Memory → Memory
  | 0, m => m
  | s + 1, m => Memory.writeList (streamPackets p pay k d s m) (d + Config.packetBytes * s) (packet p pay (s + 1) k)

/-- The effect of PKT_BUILD (R233). -/
def pktBuildEffect (s : State) : State :=
  let pay := memRead s (opSrc s.lat) (opLen s.lat)
  let seq := opSeq s.lat
  complete (BitVec.ofNat 32 (packetCount (opLen s.lat)))
    (setAcc (packetChecksum s.params pay seq) (memWrite (opDst s.lat) (packet s.params pay seq s.key8) s))

/-- The effect of PKT_STREAM (R234). -/
def pktStreamEffect (s : State) : State :=
  let pay := memRead s (opSrc s.lat) (opLen s.lat)
  let count := packetCount (opLen s.lat)
  complete (BitVec.ofNat 32 count)
    (setAcc (packetChecksum s.params pay count)
      (setMem (streamPackets s.params pay s.key8 (opDst s.lat) count s.mem) s))

/-- PKT_BUILD (R233). -/
def execPktBuild (s : State) : Host.Outcome State Fault Refusal := .next (runCommand .pktBuild pktBuildEffect s)

/-- PKT_STREAM (R234). -/
def execPktStream (s : State) : Host.Outcome State Fault Refusal := .next (runCommand .pktStream pktStreamEffect s)

end Sys2Proof.Machine
end

