-- ==== Sys2Proof/Machine/PlaneCodec.lean ====
section
/-! DEFINITION. The plane codec (43_rle.md): the encoder of R205, the decoder of R207, RLE_ENC and RLE_DEC, and the four
RLE tokens, each a step of the hidden decoder state (R214 to R217). -/

namespace Sys2Proof.Machine

/-! ### Encoder (R200 to R205) -/

/-- `run_at` at the front of the rest of a plane (R201): the length of the maximal run of the first value, at most
RUN_CAP. -/
def runAt : List Pixel → Nat
  | [] => 0
  | v :: rest => min Config.runCap ((v :: rest).takeWhile (· == v)).length

/-- The smallest run token that fits (R202). -/
def encodeRun (v : Pixel) (r : Nat) : List Byte :=
  if r ≤ 31 then [BitVec.ofNat 8 ((v.toNat <<< 6) ||| r)]
  else if r ≤ 255 then [BitVec.ofNat 8 ((v.toNat <<< 6) ||| 0x01), BitVec.ofNat 8 r]
  else [BitVec.ofNat 8 (v.toNat <<< 6), BitVec.ofNat 8 (r &&& 0xFF), BitVec.ofNat 8 ((r >>> 8) &&& 0xFF)]

/-- The literal block of the next up to 7 pixels, zero-padded (R203). -/
def encodeLiteral (P : List Pixel) : Byte :=
  BitVec.ofNat 8 (0x80 ||| packBits (takePad Config.literalPixels false P))

/-- The loop of R205 on the pixels from the cursor on. `fuel` bounds the tokens; the length of the plane is enough. -/
def rleEncodeFrom : Nat → List Pixel → List Byte
  | 0, _ => []
  | _ + 1, [] => []
  | fuel + 1, v :: rest =>
    let r := runAt (v :: rest)
    if 7 ≤ r then encodeRun v r ++ rleEncodeFrom fuel ((v :: rest).drop r)
    else encodeLiteral (v :: rest) :: rleEncodeFrom fuel ((v :: rest).drop Config.literalPixels)

/-- `rle_encode(P)` (R205). -/
def rleEncode (P : List Pixel) : List Byte := rleEncodeFrom P.length P

/-! ### Decoder (R207 to R209) -/

/-- The seven values of a literal block, bit 6 first (R95, R207). -/
def literalValues (sb : Byte) : List Pixel := (List.range 7).map fun j => sb.getLsbD (6 - j)

/-- The run length of the run token at cursor p and the cursor after it, or none where the stream ends before the token's
last byte (R207). -/
def runToken (S : List Byte) (p : Nat) (sb : Byte) : Option (Nat × Nat) :=
  if sb &&& 0x3F = 0x00 then
    if p + 3 ≤ S.length then some ((S.getD (p + 1) 0).toNat + ((S.getD (p + 2) 0).toNat <<< 8), p + 3) else none
  else if sb &&& 0x3F = 0x01 then
    if p + 2 ≤ S.length then some ((S.getD (p + 1) 0).toNat, p + 2) else none
  else some ((sb &&& 0x1F).toNat, p + 1)

/-- The loop of R207. Every pass moves p by at least one byte, so `fuel` = len(S) + 1 is enough for it to end by one of
its own exits. -/
def rleDecodeFrom (S : List Byte) (n : Nat) : Nat → Nat → List Pixel → Except (ErrCode × Nat) (List Pixel)
  | 0, p, _ => .error (.decUnderrun, p)
  | fuel + 1, p, out =>
    if n ≤ out.length then
      if p < S.length then .error (.decTrailing, p) else .ok out
    else
      match S[p]? with
      | none => .error (.decUnderrun, p)
      | some sb =>
        if sb &&& 0x80 ≠ 0 then
          rleDecodeFrom S n fuel (p + 1) (out ++ (literalValues sb).take (min 7 (n - out.length)))
        else
          match runToken S p sb with
          | none => .error (.decTruncated, p)
          | some (r, q) =>
            if n < out.length + r then .error (.decOverrun, p)
            else rleDecodeFrom S n fuel q (out ++ List.replicate r (sb.getLsbD 6))

/-- `rle_decode(S, N)` (R207). -/
def rleDecode (S : List Byte) (n : Nat) : Except (ErrCode × Nat) (List Pixel) :=
  rleDecodeFrom S n (S.length + 1) 0 []

/-! ### The commands -/

/-- The effect of RLE_ENC (R212). -/
def rleEncEffect (s : State) : State :=
  let S := rleEncode (planeRead s (opSrc s.lat) (opPixels s.lat))
  if opLen s.lat < S.length then
    raiseError .encOverflow (BitVec.ofNat 32 S.length)
      (unspecify (rangeOffsets s.params.lmemSize (outputRange .rleEnc s.lat)) s)
  else complete (BitVec.ofNat 32 S.length) (memWrite (opDst s.lat) S s)

/-- An RLE_DEC that found a malformed stream at offset `off` (R209, R213, R255): the plane range is unspecified. -/
def decodeFail (e : ErrCode) (off : Nat) (s : State) : State :=
  raiseError e (BitVec.ofNat 32 off)
    (unspecify (rangeOffsets s.params.lmemSize (outputRange .rleDec s.lat)) s)

/-- An RLE_DEC that produced its N pixels (R213). -/
def decodeDone (out : List Pixel) (s : State) : State :=
  complete s.lat.len (planeWrite (opDst s.lat) (opPixels s.lat) out s)

/-- The effect of RLE_DEC (R213). -/
def rleDecEffect (s : State) : State :=
  match rleDecode (memRead s (opSrc s.lat) (opLen s.lat)) (opPixels s.lat) with
  | .error (e, off) => decodeFail e off s
  | .ok out => decodeDone out s

/-- RLE_ENC (R212). -/
def execRleEnc (s : State) : Host.Outcome State Fault Refusal := .next (runCommand .rleEnc rleEncEffect s)

/-- RLE_DEC (R213): the whole command in the engine's one step (R134). -/
def execRleDec (s : State) : Host.Outcome State Fault Refusal := .next (runCommand .rleDec rleDecEffect s)

/-! ### The tokens (R214 to R217), on the decoder state (out, p) -/

/-- The state in which RLE_DEC starts to walk its tokens (R207: out <- [], p <- 0). -/
def startDecoder (s : State) : State :=
  setDec { active := true
           stream := memRead s (opSrc s.lat) (opLen s.lat)
           total := opPixels s.lat
           out := []
           pos := 0 } s

/-- The pixels of a literal's field, bit 6 first (R95). -/
def fieldPixels (pixels : BitVec 7) : List Pixel := (List.range 7).map fun j => pixels.getLsbD (6 - j)

/-- A literal block (R214, R208): append the values still needed, advance by 1. -/
def literalStep (pixels : BitVec 7) (d : Decoder) : Decoder :=
  { d with
    out := d.out ++ (fieldPixels pixels).take (d.total - d.out.length)
    pos := d.pos + 1 }

/-- A run token of `size` bytes (R215 to R217): r copies of v, or the error that ends the command. That a 1-byte token is
tested against the end of the stream as well is a DESIGN CHOICE (log 17): R209 gives DEC_TRUNCATED to tokens of 3 and 2
bytes, and `step` runs a 1-byte token only where its byte stands in the stream. -/
def runStep (size : Nat) (v : Pixel) (r : Nat) (d : Decoder) : Except ErrCode Decoder :=
  if d.stream.length < d.pos + size then .error .decTruncated
  else if d.total < d.out.length + r then .error .decOverrun
  else .ok { d with out := d.out ++ List.replicate r v, pos := d.pos + size }

/-- A token's effect on the state: the decoder moves on, or the command ends with the error at the token's offset. -/
def runTokenStep (size : Nat) (v : Pixel) (r : Nat) (s : State) : State :=
  match runStep size v r s.dec with
  | .ok d => setDec d s
  | .error e => decodeFail e s.dec.pos s

/-- RLE_LIT (R214). -/
def execRleLit (pixels : BitVec 7) (s : State) : Host.Outcome State Fault Refusal :=
  .next (setDec (literalStep pixels s.dec) s)

/-- RLE_RUN3 (R215): r = lo + 256 × hi (20_memory.md R67). -/
def execRleRun3 (v : Pixel) (lo hi : Byte) (s : State) : Host.Outcome State Fault Refusal :=
  .next (runTokenStep 3 v (lo.toNat + 256 * hi.toNat) s)

/-- RLE_RUN2 (R216): r = n. -/
def execRleRun2 (v : Pixel) (n : Byte) (s : State) : Host.Outcome State Fault Refusal :=
  .next (runTokenStep 2 v n.toNat s)

/-- RLE_RUN1 (R217): r in bits 4:0; bit 5 is ignored. -/
def execRleRun1 (v : Pixel) (r : BitVec 5) (s : State) : Host.Outcome State Fault Refusal :=
  .next (runTokenStep 1 v r.toNat s)

end Sys2Proof.Machine
end

