-- ==== Sys2Proof/Machine/Dispatch.lean ====
section
/-! DEFINITION. The meaning of every instruction of spec/opcode_table.json, one arm each. -/

namespace Sys2Proof.Machine

def exec (i : Instr) (s : State) : Host.Outcome State Fault Refusal :=
  match i with
  | .nop => Sys2Proof.Machine.execNop s
  | .ckInit => Sys2Proof.Machine.execCkInit s
  | .ckByte => Sys2Proof.Machine.execCkByte s
  | .ckRun => Sys2Proof.Machine.execCkRun s
  | .ckCalc => Sys2Proof.Machine.execCkCalc s
  | .keyLoad => Sys2Proof.Machine.execKeyLoad s
  | .keyClear => Sys2Proof.Machine.execKeyClear s
  | .xorBlock => Sys2Proof.Machine.execXorBlock s
  | .phBuild => Sys2Proof.Machine.execPhBuild s
  | .thBuild => Sys2Proof.Machine.execThBuild s
  | .rleEnc => Sys2Proof.Machine.execRleEnc s
  | .rleDec => Sys2Proof.Machine.execRleDec s
  | .pktBuild => Sys2Proof.Machine.execPktBuild s
  | .pktStream => Sys2Proof.Machine.execPktStream s
  | .rleLit pixels => Sys2Proof.Machine.execRleLit pixels s
  | .rleRun3 v lo hi => Sys2Proof.Machine.execRleRun3 v lo hi s
  | .rleRun2 v n => Sys2Proof.Machine.execRleRun2 v n s
  | .rleRun1 v _ r => Sys2Proof.Machine.execRleRun1 v r s

end Sys2Proof.Machine
end

