-- ==== Sys2Proof/Machine/Engine.lean ====
section
/-! DEFINITION. The engine agent (40_dispatch.md section 1): its one step over an accepted command (R134), and the same
step walked token by token where the command is RLE_DEC (43_rle.md R207). -/

namespace Sys2Proof.Machine

/-- The engine's step (R130, R134): the accepted command while BUSY = 1, nothing while idle. An illegal word completes
with ILLEGAL_CMD (check 1 of R133, R141). -/
def engineStep (s : State) : Host.Outcome State Fault Refusal :=
  if s.status.busy then
    match decodeCommand s.lat.cmd with
    | .ok i => exec i s
    | .error _ => .next (illegalCommand s)
  else .next s

/-- The accepted command is an RLE_DEC that passes its checks and was not disturbed. -/
def decoderReady (s : State) : Bool :=
  s.status.busy && decide (decodeCommand s.lat.cmd = .ok .rleDec) && decide (s.touched = []) &&
    decide (commonCheck .rleDec s = none)

/-- The engine's step where it walks RLE_DEC token by token: it starts the decoder. Every other command is one step. -/
def engineByTokenStep (s : State) : Host.Outcome State Fault Refusal :=
  if decoderReady s then .next (startDecoder s) else engineStep s

/-- One pass of the loop of R207 on the hidden decoder state: the exits of the loop, or the token at the cursor. -/
def decoderStep (s : State) : Host.Outcome State Fault Refusal :=
  if s.dec.total ≤ s.dec.out.length then
    if s.dec.pos < s.dec.stream.length then .next (decodeFail .decTrailing s.dec.pos s)
    else .next (decodeDone s.dec.out s)
  else
    match decodeToken (s.dec.stream.drop s.dec.pos) with
    | .error .emptyStream => .next (decodeFail .decUnderrun s.dec.pos s)
    | .error .truncatedToken => .next (decodeFail .decTruncated s.dec.pos s)
    | .ok i => exec i s

/-- What stands at the front of RLE_DEC's stream when the model is given one token to run: the token's three bytes, the
largest plane still to fill (N_PIX for a DIM of ones), nothing decoded yet. -/
def loadToken (w : Nat) (s : State) : State :=
  { s with
    status := { s.status with busy := true }
    lat := { s.lat with cmd := commandWord 0x21, len := 3, dim := 0x7FFFFFFF }
    dec := { active := true, stream := leBytes 3 w, total := 0x80000000, out := [], pos := 0 }
    touched := [] }

/-- An accepted command word, with the engine's step next. -/
def loadCommand (w : Word) (s : State) : State :=
  { s with
    status := { s.status with busy := true }
    lat := { s.lat with cmd := w }
    dec := Decoder.idle
    touched := []
    turns := .engine :: s.turns }

end Sys2Proof.Machine
end

