-- ==== Sys2Proof/Machine/Step.lean ====
section
/-! DEFINITION. One step of the machine: a token of a running decode, which no host access interrupts (R74, R137), else
the turn that stands first in the schedule; an empty schedule leaves the engine to move (R136). -/

namespace Sys2Proof.Machine

/-- One step of the interleaving of R76. -/
def step (s : State) : Host.Outcome State Fault Refusal :=
  if s.dec.active then decoderStep s
  else
    match s.turns with
    | [] => engineStep s
    | .engine :: ts => engineStep (setTurns ts s)
    | .engineByToken :: ts => engineByTokenStep (setTurns ts s)
    | .host h :: ts => hostStep h (setTurns ts s)
    | .wait n :: ts => waitStep n ts s

/-- The instruction of an opcode-table row placed where `step` takes its next one: a token at the front of a running
RLE_DEC's stream, a command word in the latch with BUSY = 1. -/
def State.withFetchWord (s : State) (nbits w : Nat) : State :=
  if nbits ≤ 24 then loadToken (w % 2 ^ nbits) s else loadCommand (BitVec.ofNat 32 w) s

end Sys2Proof.Machine
end

