-- ==== Sys2Proof/Machine/HostProgram.lean ====
section
/-! DEFINITION. The host syntax of 30_encoding.md R101 and its pseudo-instructions (R102), each as the turns of the host
it stands for: one per bus access, and for `wait` the poll that repeats itself (`waitStep`). How many polls come before the
engine's step is open (40_dispatch.md R136): the number is an argument of the line (log 20). -/

namespace Sys2Proof.Machine

/-- A line of a host program (R101, R102). `run` has its register writes in the order written. -/
inductive HostStmt where
  | wr (reg : Csr) (v : Word)
  | rd (reg : Csr)
  | wb (off : Nat) (bytes : List Byte)
  | rb (off n : Nat)
  | cmd (op : Instr)
  | wait (polls : Nat)
  | run (op : Instr) (sets : List (Csr × Word)) (polls : Nat)
  | setdim (w h : Nat)
  | setaddr (a0 a1 a2 a3 a4 a5 : Byte)
  | clr
  | srst
deriving DecidableEq, Repr

/-- The block-relative address of an LMEM byte (R62). DESIGN CHOICE, unsafe (log 22): an offset of 0x100000 or more has no
address in the 21-bit host space (R61) and the spec does not say what `wb` and `rb` do there; it wraps modulo 2^21. -/
def lmemAddress (off : Nat) : BitVec 21 := BitVec.ofNat 21 (lmemBase + off)

/-- The platform's address of a block-relative one, for the parameter BLOCK_BASE (R61, U3). -/
def platformAddress (p : PlatformParams) (a : BitVec 21) : Nat := p.blockBase + a.toNat

/-- `wr REG, v`: one 4-byte write. -/
def writeReg (c : Csr) (v : Word) : HostAccess := .write .b4 (csrAddress c) v

/-- `rd REG`: one 4-byte read. -/
def readReg (c : Csr) : HostAccess := .read .b4 (csrAddress c)

/-- `cmd OP`: the command word of the opcode to CMD. A token is no command and R101 has no such line: that it stands for no
access is a DESIGN CHOICE (log 23). -/
def issue (op : Instr) : List HostAccess :=
  match opcodeOf op with
  | some o => [writeReg .cmd (commandWord o)]
  | none => []

/-- The bus accesses of a line but for `wait`, in order (R101, R102); a `run` has those before its `wait`. R102 gives
`setdim` for 1 ≤ W ≤ 65536 and 1 ≤ Hh ≤ 32768 only. Outside that range it is a DESIGN CHOICE, unsafe (log 23): 0 − 1 is 0, so
that a 0 stands for 1, and the two fields run into each other and past bit 31 as the formula has them, modulo 2^32. -/
def accesses : HostStmt → List HostAccess
  | .wr c v => [writeReg c v]
  | .rd c => [readReg c]
  | .wb off bytes =>
    (List.range bytes.length).map fun i => .write .b1 (lmemAddress (off + i)) ((bytes.getD i 0).zeroExtend 32)
  | .rb off n => (List.range n).map fun i => .read .b1 (lmemAddress (off + i))
  | .cmd op => issue op
  | .wait _ => []
  | .run op sets _ => sets.map (fun e => writeReg e.1 e.2) ++ issue op
  | .setdim w h => [writeReg .dim (BitVec.ofNat 32 (((h - 1) <<< 16) ||| (w - 1)))]
  | .setaddr a0 a1 a2 a3 a4 a5 =>
    [writeReg .addrHi (BitVec.ofNat 32 ((a0.toNat <<< 8) ||| a1.toNat)),
     writeReg .addrLo
       (BitVec.ofNat 32 ((a2.toNat <<< 24) ||| (a3.toNat <<< 16) ||| (a4.toNat <<< 8) ||| a5.toNat))]
  | .clr => [writeReg .status 0x16]
  | .srst => [writeReg .ctrl 0x80000000]

/-- The `wait` that ends a line (R101, R102). -/
def waits : HostStmt → List Turn
  | .wait polls => [.wait polls]
  | .run _ _ polls => [.wait polls]
  | .wr _ _ | .rd _ | .wb _ _ | .rb _ _ | .cmd _ => []
  | .setdim _ _ | .setaddr _ _ _ _ _ _ | .clr | .srst => []

/-- The turns of a line, in order (R101, R102). -/
def expand (line : HostStmt) : List Turn := (accesses line).map .host ++ waits line

/-- The host's turns of a program. The engine moves inside its `wait`s and once the program has ended; any list that has
the engine's turns between these as well is a schedule of the same program (R134, R136). -/
def programTurns (prog : List HostStmt) : List Turn := prog.flatMap expand

/-- The host's first steps after reset (70_reset_and_hazards.md R284), for a display of w × h pixels, with the plane bytes
at offset `off`: read ID, enable bits, DIM if the display is not 800 × 480, planes, address, KEY_LOAD. -/
def bootProgram (enables : Word) (w h off : Nat) (planes : List Byte) (a0 a1 a2 a3 a4 a5 : Byte) (polls : Nat) :
    List HostStmt :=
  [.rd .id, .wr .ctrl enables] ++ (if w = 800 ∧ h = 480 then [] else [.setdim w h]) ++
    [.wb off planes, .setaddr a0 a1 a2 a3 a4 a5, .run .keyLoad [] polls]

/-- How the host has the packets made: R298 step 5 leaves it PKT_STREAM or PKT_BUILD for s = 1 to P. -/
inductive PacketMethod where
  | stream
  | build
deriving DecidableEq, Repr

/-- R298 step 5 for a payload of `n` bytes at `pay`: PKT_STREAM, or PKT_BUILD for s = 1 to P. DESIGN CHOICE (log 24): that
PKT_BUILD puts packet s where PKT_STREAM does, at out + 204 × (s − 1) (R234). -/
def packetLines (method : PacketMethod) (pay n out polls : Nat) : List HostStmt :=
  let w := BitVec.ofNat 32
  match method with
  | .stream => [.run .pktStream [(.src, w pay), (.dst, w out), (.len, w n)] polls]
  | .build => (List.range (packetCount n)).map fun j =>
      .run .pktBuild [(.src, w pay), (.dst, w (out + Config.packetBytes * j)), (.len, w n), (.param, w (j + 1))] polls

/-- The block's part of one transfer (R298), for planes at `black` and `red`, a payload at `pay` and stream lengths `lb`
and `lr` that RLE_ENC answers: encode, headers around the streams, transaction header, packets. R298 does not say which LEN
(capacity) the host gives RLE_ENC: `capBlack` and `capRed` are arguments. DESIGN CHOICE (log 24): that they are, that the
streams are encoded in place in the payload, so that the second RLE_ENC's place is computed from `lb`, that the key is loaded
before, and that the sequence is the one of a transfer in which nothing fails. Which of the two packet commands makes the
packets R298 leaves to the host: `method` is an argument (log 24).
Offsets and lengths are taken modulo 2^32 (log 23). -/
def transferProgram (method : PacketMethod) (black red pay capBlack capRed lb lr hdr out : Nat) (polls : Nat) : List HostStmt :=
  let w := BitVec.ofNat 32
  [.run .rleEnc [(.src, w black), (.dst, w (pay + 13)), (.len, w capBlack)] polls,
   .run .rleEnc [(.src, w red), (.dst, w (pay + 26 + lb)), (.len, w capRed)] polls,
   .run .phBuild [(.dst, w pay), (.len, w lb), (.param, 0)] polls,
   .run .phBuild [(.dst, w (pay + 13 + lb)), (.len, w lr), (.param, 1)] polls,
   .run .thBuild [(.dst, w hdr), (.len, w (26 + lb + lr))] polls] ++
    packetLines method pay (26 + lb + lr) out polls

end Sys2Proof.Machine
end

