-- ==== Sys2Proof/Safety.lean ====
section
/-! DEFINITION. The terms the claims use: the status words of a success and of an error, what a store does to LMEM as its
reads show it, the invariant of the machine, the hazards a host must avoid and the order in which a transfer's units are
sent (70_reset_and_hazards.md R286 to R296). -/

namespace Sys2Proof.Machine

/-! ### Completion, in the words of R135 and R253 -/

/-- STATUS after a completion without an error (R135). -/
def succeeded (st : Status) : Status := { st with errcode := .noError, done := true, busy := false }

/-- STATUS after a completion with an error (R253). -/
def failed (e : ErrCode) (st : Status) : Status := { st with errcode := e, err := true, done := true, busy := false }

/-- The state with its command ended: RESULT and STATUS as given, nothing else of the spec's state changed. -/
def endedWith (st : Status) (res : Word) (s : State) : State :=
  { s with result := res, status := st, dec := Decoder.idle, touched := [] }

/-! ### LMEM, as its reads show it -/

/-- Reading LMEM of `t` gives the bytes of L from offset d on, and what `s` holds everywhere else. -/
def Stores (s t : State) (d : Nat) (L : List Byte) : Prop :=
  ∀ a, readByte t a = if d ≤ a ∧ a < d + L.length then L.getD (a - d) 0 else readByte s a

/-- Every LMEM byte outside a range reads as before. -/
def KeepsOutside (s t : State) (r : Option Range) : Prop :=
  ∀ a, inRange r a = false → readByte t a = readByte s a

/-- Every LMEM byte reads as before. -/
def KeepsMemory (s t : State) : Prop := ∀ a, readByte t a = readByte s a

/-! ### Runs -/

/-- `k` steps, stopping at the first that gives no next state. -/
def runSteps : Nat → State → Host.Outcome State Fault Refusal
  | 0, s => .next s
  | k + 1, s =>
    match step s with
    | .next t => runSteps k t
    | .fault r => .fault r
    | .refused r => .refused r

/-! ### The invariant -/

/-- LMEM is in its canonical form and lists no offset that does not exist. -/
def MemoryOk (s : State) : Prop := Memory.wf s.mem ∧ ∀ c ∈ s.mem, c.1 < s.params.lmemSize

/-- KEY8 is 0x00 whenever KEYV = 0 (R37). -/
def KeyOk (s : State) : Prop := s.status.keyv = false → s.key8 = 0

/-- Only a running command has been disturbed, in bytes that exist (R289). -/
def TouchedOk (s : State) : Prop :=
  (s.status.busy = false → s.touched = []) ∧ ∀ a ∈ s.touched, a < s.params.lmemSize

/-- The hidden decoder state belongs to a running RLE_DEC whose output range is valid; it has read no byte past its
stream and produced no pixel past N (R207, R209). Otherwise it is idle. -/
def DecoderOk (s : State) : Prop :=
  if s.dec.active then
    s.status.busy = true ∧ decodeCommand s.lat.cmd = .ok .rleDec ∧ s.touched = [] ∧
      s.dec.total = opPixels s.lat ∧ opDst s.lat + planeSize (opPixels s.lat) ≤ s.params.lmemSize ∧
      s.dec.stream.length = opLen s.lat ∧ s.dec.pos ≤ s.dec.stream.length ∧ s.dec.out.length ≤ s.dec.total
  else s.dec = Decoder.idle

/-- What every step keeps. -/
def Invariant (s : State) : Prop := MemoryOk s ∧ KeyOk s ∧ TouchedOk s ∧ DecoderOk s

/-! ### Hazards (R286, R288, R289) -/

/-- The host access is one that R286 and R289 forbid while a command runs: a CMD write (R132), a write into the command's
ranges (R289), a read of RESULT, ACC, KEY or of the command's output bytes (R286). -/
def hazard (h : HostAccess) (s : State) : Bool :=
  s.status.busy &&
    match h with
    | .read w a =>
      match busTarget s.params.lmemSize w a with
      | .ok (.csr c) => decide (c = .acc ∨ c = .result ∨ c = .key)
      | .ok (.lmem off) => (List.range (widthBytes w)).any fun i => inRange (runningOutput s) (off + i)
      | .error _ => false
    | .write w a _ =>
      match busTarget s.params.lmemSize w a with
      | .ok (.csr c) => decide (c = .cmd)
      | .ok (.lmem off) => !(disturbedOffsets s off (widthBytes w)).isEmpty
      | .error _ => false

/-! ### The order and pacing of a transfer (R292, R293), host duties -/

/-- One unit the host sends: its LMEM range and the delay after it. -/
structure SendUnit where
  range : Range
  delay : Nat
deriving DecidableEq, Repr

/-- The units of a transfer in the order of R292 with the delays of R293: the transaction header at `hdr`, then the
packets 1 to `count` that PKT_STREAM laid out from `d` (R234). The delays are the parameters SETTLE_DELAY and
PACKET_DELAY. -/
def sendPlan (p : PlatformParams) (hdr d count : Nat) : List SendUnit :=
  ⟨⟨hdr, Config.txnHeaderBytes⟩, p.settleDelay⟩ ::
    (List.range count).map fun s => ⟨⟨d + Config.packetBytes * s, Config.packetBytes⟩, p.packetDelay⟩

end Sys2Proof.Machine
end

