-- ==== Sys2Proof/Certificates/Slice0/Obligations.lean ====
section
/-! DEFINITION. The statements about the model, for the provers. Rule numbers R<n> are those of spec/. A command is
"undisturbed" when `touched = []`: the host wrote no byte of its ranges while it ran (70_reset_and_hazards.md R289). -/

open Sys2Proof Sys2Proof.Machine

/-! ### Encoding -/

/-- Decoding the encoding of a well-formed instruction gives it back, whatever bytes follow it (30_encoding.md R90 to
R95). The order of a command word's four bytes is the model's choice (log 15). -/
def Obligations.DecodeInvertsEncode : Prop :=
  ∀ (i : Instr) (rest : List Byte), i.wellFormed = true → decodeAs i.isCommand (encode i ++ rest) = some i

/-- A token read from a stream is well formed, is no command, and its encoding is the front of the stream (R94, R95): no
bit of a token is dropped and none is invented. -/
def Obligations.DecodedTokenIsFrontOfStream : Prop :=
  ∀ (S : List Byte) (i : Instr), decodeToken S = .ok i →
    i.isCommand = false ∧ i.wellFormed = true ∧ ∃ rest, S = encode i ++ rest

/-- A command word is legal exactly if it is one of the fourteen of R91, and then it is its opcode's command (R90). -/
def Obligations.LegalWordsAreFourteen : Prop :=
  ∀ (w : Word) (i : Instr), decodeCommand w = .ok i ↔
    (w, i) ∈ [((0x00 : Word), Instr.nop), (0x01, .ckInit), (0x02, .ckByte), (0x03, .ckRun), (0x04, .ckCalc),
      (0x10, .keyLoad), (0x11, .keyClear), (0x12, .xorBlock), (0x13, .phBuild), (0x14, .thBuild),
      (0x20, .rleEnc), (0x21, .rleDec), (0x30, .pktBuild), (0x31, .pktStream)]

/-- Words written out from the tables of R91 and R94 decode to what they stand for. -/
def Obligations.SampleWordsDecode : Prop :=
  decodeTableWord 32 0x00000003 = some .ckRun ∧ decodeTableWord 32 0x00000014 = some .thBuild ∧
    decodeTableWord 32 0x00000031 = some .pktStream ∧ decodeTableWord 32 0x00000105 = none ∧
    decodeToken [0xD9] = .ok (.rleLit 0b1011001) ∧ decodeToken [0x40, 0x34, 0x12] = .ok (.rleRun3 true 0x34 0x12) ∧
    decodeToken [0x01, 0xFF] = .ok (.rleRun2 false 0xFF) ∧ decodeToken [0x65] = .ok (.rleRun1 true true 5)

/-! ### Reset -/

/-- After power-on reset every register reads as R44 and R280 say, the engine is idle and IRQ is deasserted. -/
def Obligations.ResetRegisterValues : Prop :=
  csrRead .ctrl State.reset = 0x00000000 ∧ csrRead .status State.reset = 0x00000000 ∧
  csrRead .cmd State.reset = 0x00000000 ∧ csrRead .src State.reset = 0x00000000 ∧
  csrRead .dst State.reset = 0x00000000 ∧ csrRead .len State.reset = 0x00000000 ∧
  csrRead .param State.reset = 0x00000000 ∧ csrRead .dim State.reset = 0x01DF031F ∧
  csrRead .addrLo State.reset = 0x00000000 ∧ csrRead .addrHi State.reset = 0x00000000 ∧
  csrRead .key State.reset = 0x00000000 ∧ csrRead .acc State.reset = 0x0000FFFF ∧
  csrRead .result State.reset = 0x00000000 ∧ csrRead .id State.reset = 0x45544147 ∧
  State.reset.status.keyv = false ∧ State.reset.key8 = 0x00 ∧ irq State.reset = false

/-- The invariant holds at reset. -/
def Obligations.ResetMeetsInv : Prop := Invariant State.reset

/-- An idle engine starts nothing by itself (R130, R281): with no host access scheduled the step changes nothing. -/
def Obligations.IdleEngineStartsNothing : Prop :=
  ∀ s : State, s.dec.active = false → s.status.busy = false → s.turns = [] → step s = .next s

/-! ### The step -/

/-- While a command runs, the engine's turn (given by the schedule, or because the schedule has run out) runs exactly the
command that the latched word encodes (R130, R134). -/
def Obligations.StepRunsLatchedCommand : Prop :=
  ∀ (s : State) (i : Instr), s.dec.active = false → s.status.busy = true → decodeCommand s.lat.cmd = .ok i →
    (s.turns = [] → step s = exec i s) ∧ (∀ ts, s.turns = .engine :: ts → step s = exec i { s with turns := ts })

/-- While RLE_DEC is walked token by token and N pixels are not yet produced, the step runs exactly the token at the
cursor of the stream (R207). -/
def Obligations.StepRunsTokenAtCursor : Prop :=
  ∀ (s : State) (i : Instr), s.dec.active = true → s.dec.out.length < s.dec.total →
    decodeToken (s.dec.stream.drop s.dec.pos) = .ok i → step s = exec i s

/-- A word placed by `withFetchWord` is the very next instruction the step runs (log 8). -/
def Obligations.PlacedWordRunsNext : Prop :=
  (∀ (s : State) (w : Nat) (i : Instr), decodeTableWord 32 w = some i →
    step (s.withFetchWord 32 w) = exec i { s.withFetchWord 32 w with turns := s.turns }) ∧
  (∀ (s : State) (nbits w : Nat) (i : Instr), nbits ≤ 24 → decodeTableWord nbits w = some i →
    step (s.withFetchWord nbits w) = exec i (s.withFetchWord nbits w))

/-- An illegal command word completes with ILLEGAL_CMD and RESULT 0 and changes nothing else (R141). -/
def Obligations.IllegalWordCompletes : Prop :=
  ∀ (s : State) (e : CommandReject), s.dec.active = false → s.turns = [] → s.status.busy = true →
    decodeCommand s.lat.cmd = .error e →
    step s = .next (endedWith (failed .illegalCmd s.status) 0 s)

/-! ### The commands: where each completes, with what, and what it leaves alone -/

/-- The commands without a check (R140, R155, R173) complete in every state: NOP with RESULT 0; CK_INIT with ACC and RESULT
0xFFFF; KEY_CLEAR with no key, KEY8 0x00 and RESULT 0. Nothing else changes. -/
def Obligations.UncheckedCommandsComplete : Prop :=
  decodeCommand 0x00000000 = .ok .nop ∧ decodeCommand 0x00000001 = .ok .ckInit ∧
  decodeCommand 0x00000011 = .ok .keyClear ∧
  ∀ s : State, s.touched = [] →
    exec .nop s = .next (endedWith (succeeded s.status) 0 s) ∧
    exec .ckInit s = .next (endedWith (succeeded s.status) 0x0000FFFF { s with acc := 0xFFFF }) ∧
    exec .keyClear s = .next (endedWith { succeeded s.status with keyv := false } 0 { s with key8 := 0 })

/-- CK_BYTE (R156): one byte step of ACC with PARAM[7:0]; a PARAM above 0xFF is BAD_PARAM and leaves ACC unchanged. -/
def Obligations.CkByteStepsAcc : Prop :=
  decodeCommand 0x00000002 = .ok .ckByte ∧
  ∀ s : State, s.touched = [] →
    (s.lat.param.toNat < 256 →
      exec .ckByte s = .next
        (let h := ckStep s.params s.acc (BitVec.ofNat 8 s.lat.param.toNat)
         endedWith (succeeded s.status) (h.zeroExtend 32) { s with acc := h })) ∧
    (256 ≤ s.lat.param.toNat → exec .ckByte s = .next (endedWith (failed .badParam s.status) 0 s))

/-- CK_RUN (R157) carries ACC on over the bytes of the input range; CK_CALC (R158) makes ACC the checksum of the input
range, whatever it was. An invalid range is RANGE and leaves ACC unchanged. -/
def Obligations.RangeChecksumsComplete : Prop :=
  decodeCommand 0x00000003 = .ok .ckRun ∧ decodeCommand 0x00000004 = .ok .ckCalc ∧
  ∀ (s : State) (i : Instr) (seed : Half), s.touched = [] → (i, seed) ∈ [(Instr.ckRun, s.acc), (.ckCalc, 0xFFFF)] →
    (s.lat.src.toNat + s.lat.len.toNat ≤ s.params.lmemSize →
      exec i s = .next
        (let h := ckFold s.params seed (memRead s s.lat.src.toNat s.lat.len.toNat)
         endedWith (succeeded s.status) (h.zeroExtend 32) { s with acc := h })) ∧
    (s.params.lmemSize < s.lat.src.toNat + s.lat.len.toNat →
      exec i s = .next (endedWith (failed .range s.status) 0 s))

/-- KEY_LOAD (R172, R170): the key is 0x31 XOR the six address bytes; KEY_LOCKED and no change while a key is loaded. -/
def Obligations.KeyLoadDerivesKey : Prop :=
  decodeCommand 0x00000010 = .ok .keyLoad ∧
  ∀ s : State, s.touched = [] →
    (s.status.keyv = false →
      exec .keyLoad s = .next
        (let k := (0x31 : Byte) ^^^ s.lat.addrHi.extractLsb' 8 8 ^^^ s.lat.addrHi.extractLsb' 0 8 ^^^
            s.lat.addrLo.extractLsb' 24 8 ^^^ s.lat.addrLo.extractLsb' 16 8 ^^^ s.lat.addrLo.extractLsb' 8 8 ^^^
            s.lat.addrLo.extractLsb' 0 8
         endedWith { succeeded s.status with keyv := true } (k.zeroExtend 32) { s with key8 := k })) ∧
    (s.status.keyv = true → exec .keyLoad s = .next (endedWith (failed .keyLocked s.status) 0 s))

/-- XOR_BLOCK (R174): the output range gets the input bytes XOR the key, every other byte is kept, ACC is not changed. -/
def Obligations.XorBlockObfuscates : Prop :=
  ∀ s : State, s.touched = [] → s.status.keyv = true →
    s.lat.src.toNat + s.lat.len.toNat ≤ s.params.lmemSize →
    s.lat.dst.toNat + s.lat.len.toNat ≤ s.params.lmemSize →
    (s.lat.len = 0 ∨ s.lat.src = s.lat.dst ∨ s.lat.src.toNat + s.lat.len.toNat ≤ s.lat.dst.toNat ∨
      s.lat.dst.toNat + s.lat.len.toNat ≤ s.lat.src.toNat) →
    ∃ m, exec .xorBlock s = .next (endedWith (succeeded s.status) s.lat.len { s with mem := m }) ∧
      Stores s { s with mem := m } s.lat.dst.toNat
        ((memRead s s.lat.src.toNat s.lat.len.toNat).map fun b => b ^^^ s.key8)

/-- The errors of XOR_BLOCK in the order of R133: NO_KEY, RANGE, OVERLAP, each with nothing else changed. -/
def Obligations.XorBlockErrors : Prop :=
  ∀ s : State, s.touched = [] →
    (s.status.keyv = false → exec .xorBlock s = .next (endedWith (failed .noKey s.status) 0 s)) ∧
    (s.status.keyv = true →
      (s.params.lmemSize < s.lat.src.toNat + s.lat.len.toNat ∨
        s.params.lmemSize < s.lat.dst.toNat + s.lat.len.toNat) →
      exec .xorBlock s = .next (endedWith (failed .range s.status) 0 s)) ∧
    (s.status.keyv = true →
      s.lat.src.toNat + s.lat.len.toNat ≤ s.params.lmemSize →
      s.lat.dst.toNat + s.lat.len.toNat ≤ s.params.lmemSize →
      s.lat.src ≠ s.lat.dst → s.lat.dst.toNat < s.lat.src.toNat + s.lat.len.toNat →
      s.lat.src.toNat < s.lat.dst.toNat + s.lat.len.toNat →
      exec .xorBlock s = .next (endedWith (failed .overlap s.status) 0 s))

/-- PH_BUILD (R177, R97): the 13 bytes of the plane header, field by field from PARAM[0], DIM and LEN; the two error
cases. -/
def Obligations.PhBuildWritesHeader : Prop :=
  decodeCommand 0x00000013 = .ok .phBuild ∧
  ∀ s : State, s.touched = [] →
    (s.lat.param.toNat < 2 → s.lat.dst.toNat + 13 ≤ s.params.lmemSize →
      ∃ m, exec .phBuild s = .next (endedWith (succeeded s.status) 13 { s with mem := m }) ∧
        Stores s { s with mem := m } s.lat.dst.toNat
          (let red := s.lat.param.extractLsb' 0 1
           [0xFC, red ++ 0#7, 0x00, 0x00, 0x00, red ++ s.lat.dim.extractLsb' 24 7, s.lat.dim.extractLsb' 16 8,
            s.lat.dim.extractLsb' 8 8, s.lat.dim.extractLsb' 0 8, s.lat.len.extractLsb' 24 8,
            s.lat.len.extractLsb' 16 8, s.lat.len.extractLsb' 8 8, s.lat.len.extractLsb' 0 8])) ∧
    (2 ≤ s.lat.param.toNat → exec .phBuild s = .next (endedWith (failed .badParam s.status) 0 s)) ∧
    (s.lat.param.toNat < 2 → s.params.lmemSize < s.lat.dst.toNat + 13 →
      exec .phBuild s = .next (endedWith (failed .range s.status) 0 s))

/-- TH_BUILD (R180): the 20 bytes of the obfuscated transaction header, ACC the checksum of the 18 raw bytes, RESULT the
packet count. -/
def Obligations.ThBuildWritesHeader : Prop :=
  ∀ s : State, s.touched = [] → s.status.keyv = true → s.lat.len.toNat < 13107000 →
    s.lat.dst.toNat + 20 ≤ s.params.lmemSize →
    ∃ m, exec .thBuild s = .next
        (endedWith (succeeded s.status) (BitVec.ofNat 32 (s.lat.len.toNat / 200 + 1))
          { s with mem := m, acc := checksum s.params (txnRaw s.lat.len.toNat) }) ∧
      Stores s { s with mem := m } s.lat.dst.toNat (txnHeader s.params s.lat.len.toNat s.key8)

/-- The errors of TH_BUILD in the order of R133: NO_KEY, COUNT_OVERFLOW, RANGE, each with nothing else changed. -/
def Obligations.ThBuildErrors : Prop :=
  ∀ s : State, s.touched = [] →
    (s.status.keyv = false → exec .thBuild s = .next (endedWith (failed .noKey s.status) 0 s)) ∧
    (s.status.keyv = true → 13107000 ≤ s.lat.len.toNat →
      exec .thBuild s = .next (endedWith (failed .countOverflow s.status) 0 s)) ∧
    (s.status.keyv = true → s.lat.len.toNat < 13107000 → s.params.lmemSize < s.lat.dst.toNat + 20 →
      exec .thBuild s = .next (endedWith (failed .range s.status) 0 s))

/-- RLE_ENC (R212): the stream of the plane goes to DST and its length to RESULT; a stream longer than LEN is ENC_OVERFLOW
with the length needed, the capacity range holds free values and every other byte is kept (R255). -/
def Obligations.RleEncWritesStream : Prop :=
  ∀ s : State, s.touched = [] →
    s.lat.src.toNat + planeSize (opPixels s.lat) ≤ s.params.lmemSize →
    s.lat.dst.toNat + s.lat.len.toNat ≤ s.params.lmemSize →
    (s.lat.len = 0 ∨ s.lat.src.toNat + planeSize (opPixels s.lat) ≤ s.lat.dst.toNat ∨
      s.lat.dst.toNat + s.lat.len.toNat ≤ s.lat.src.toNat) →
    ∀ S, S = rleEncode (planeRead s s.lat.src.toNat (opPixels s.lat)) →
    (S.length ≤ s.lat.len.toNat →
      ∃ m, exec .rleEnc s =
          .next (endedWith (succeeded s.status) (BitVec.ofNat 32 S.length) { s with mem := m }) ∧
        Stores s { s with mem := m } s.lat.dst.toNat S) ∧
    (s.lat.len.toNat < S.length →
      ∃ m n, exec .rleEnc s = .next
          (endedWith (failed .encOverflow s.status) (BitVec.ofNat 32 S.length) { s with mem := m, draw := n }) ∧
        KeepsOutside s { s with mem := m } (some ⟨s.lat.dst.toNat, s.lat.len.toNat⟩) ∧
        ∀ j < s.lat.len.toNat, ∃ k, s.draw ≤ k ∧ k < n ∧
          readByte { s with mem := m } (s.lat.dst.toNat + j) = Config.freeByte k)

/-- RLE_DEC (R213): the plane of the decoded pixels goes to DST, padding bits 0, and LEN to RESULT; a malformed stream
ends with its DEC_ code and offset, the plane range holds free values and every other byte is kept (R255). -/
def Obligations.RleDecWritesPlane : Prop :=
  ∀ s : State, s.touched = [] →
    s.lat.src.toNat + s.lat.len.toNat ≤ s.params.lmemSize →
    s.lat.dst.toNat + planeSize (opPixels s.lat) ≤ s.params.lmemSize →
    (s.lat.len = 0 ∨ s.lat.src.toNat + s.lat.len.toNat ≤ s.lat.dst.toNat ∨
      s.lat.dst.toNat + planeSize (opPixels s.lat) ≤ s.lat.src.toNat) →
    (∀ P, rleDecode (memRead s s.lat.src.toNat s.lat.len.toNat) (opPixels s.lat) = .ok P →
      ∃ m, exec .rleDec s = .next (endedWith (succeeded s.status) s.lat.len { s with mem := m }) ∧
        Stores s { s with mem := m } s.lat.dst.toNat (planeBytes (planeSize (opPixels s.lat)) P)) ∧
    (∀ e off, rleDecode (memRead s s.lat.src.toNat s.lat.len.toNat) (opPixels s.lat) = .error (e, off) →
      ∃ m n, exec .rleDec s = .next
          (endedWith (failed e s.status) (BitVec.ofNat 32 off) { s with mem := m, draw := n }) ∧
        KeepsOutside s { s with mem := m } (some ⟨s.lat.dst.toNat, planeSize (opPixels s.lat)⟩) ∧
        ∀ j < planeSize (opPixels s.lat), ∃ k, s.draw ≤ k ∧ k < n ∧
          readByte { s with mem := m } (s.lat.dst.toNat + j) = Config.freeByte k)

/-- RANGE and OVERLAP of the two plane codec commands (R133, R212, R213), each with nothing else changed. -/
def Obligations.PlaneCodecErrors : Prop :=
  ∀ s : State, s.touched = [] →
    ((s.params.lmemSize < s.lat.src.toNat + planeSize (opPixels s.lat) ∨
        s.params.lmemSize < s.lat.dst.toNat + s.lat.len.toNat) →
      exec .rleEnc s = .next (endedWith (failed .range s.status) 0 s)) ∧
    ((s.params.lmemSize < s.lat.src.toNat + s.lat.len.toNat ∨
        s.params.lmemSize < s.lat.dst.toNat + planeSize (opPixels s.lat)) →
      exec .rleDec s = .next (endedWith (failed .range s.status) 0 s)) ∧
    (s.lat.src.toNat + planeSize (opPixels s.lat) ≤ s.params.lmemSize →
      s.lat.dst.toNat + s.lat.len.toNat ≤ s.params.lmemSize → s.lat.len ≠ 0 →
      s.lat.src.toNat < s.lat.dst.toNat + s.lat.len.toNat →
      s.lat.dst.toNat < s.lat.src.toNat + planeSize (opPixels s.lat) →
      exec .rleEnc s = .next (endedWith (failed .overlap s.status) 0 s)) ∧
    (s.lat.src.toNat + s.lat.len.toNat ≤ s.params.lmemSize →
      s.lat.dst.toNat + planeSize (opPixels s.lat) ≤ s.params.lmemSize → s.lat.len ≠ 0 →
      s.lat.src.toNat < s.lat.dst.toNat + planeSize (opPixels s.lat) →
      s.lat.dst.toNat < s.lat.src.toNat + s.lat.len.toNat →
      exec .rleDec s = .next (endedWith (failed .overlap s.status) 0 s))

/-- PKT_BUILD (R233): packet s of the payload goes to DST, its checksum to ACC, the packet count to RESULT. -/
def Obligations.PktBuildWritesPacket : Prop :=
  ∀ (s : State) (seq : Nat), s.touched = [] → s.status.keyv = true → s.lat.param.toNat = seq →
    1 ≤ seq → seq ≤ s.lat.len.toNat / 200 + 1 → s.lat.len.toNat < 13107000 →
    s.lat.src.toNat + s.lat.len.toNat ≤ s.params.lmemSize → s.lat.dst.toNat + 204 ≤ s.params.lmemSize →
    (s.lat.len = 0 ∨ s.lat.src.toNat + s.lat.len.toNat ≤ s.lat.dst.toNat ∨
      s.lat.dst.toNat + 204 ≤ s.lat.src.toNat) →
    ∃ m, exec .pktBuild s = .next
        (endedWith (succeeded s.status) (BitVec.ofNat 32 (s.lat.len.toNat / 200 + 1))
          { s with
            mem := m
            acc := checksum s.params
              (beBytes 2 seq ++ chunk (memRead s s.lat.src.toNat s.lat.len.toNat) seq) }) ∧
      Stores s { s with mem := m } s.lat.dst.toNat
        (packet s.params (memRead s s.lat.src.toNat s.lat.len.toNat) seq s.key8)

/-- The errors of PKT_BUILD in the order of R133 and R252: BAD_PARAM, NO_KEY, COUNT_OVERFLOW, BAD_SEQ, RANGE, OVERLAP;
the first that applies is reported, and nothing else changes (R254). -/
def Obligations.PktBuildErrorOrder : Prop :=
  ∀ (s : State) (e : ErrCode), s.touched = [] →
    e = (if 0x10000 ≤ s.lat.param.toNat then .badParam
      else if s.status.keyv = false then .noKey
      else if 0xFFFF < s.lat.len.toNat / 200 + 1 then .countOverflow
      else if s.lat.param.toNat = 0 ∨ s.lat.len.toNat / 200 + 1 < s.lat.param.toNat then .badSeq
      else if s.params.lmemSize < s.lat.src.toNat + s.lat.len.toNat then .range
      else if s.params.lmemSize < s.lat.dst.toNat + 204 then .range
      else if 0 < s.lat.len.toNat ∧ s.lat.src.toNat < s.lat.dst.toNat + 204 ∧
          s.lat.dst.toNat < s.lat.src.toNat + s.lat.len.toNat then .overlap
      else .noError) →
    e ≠ .noError → exec .pktBuild s = .next (endedWith (failed e s.status) 0 s)

/-- PKT_STREAM (R234): packet s at DST + 204 × (s − 1) for s = 1 to P, every byte outside kept, ACC the checksum of packet
P, RESULT P; the bytes are those PKT_BUILD writes for each s. -/
def Obligations.PktStreamWritesPackets : Prop :=
  ∀ (s : State) (P : Nat), s.touched = [] → s.status.keyv = true → P = s.lat.len.toNat / 200 + 1 →
    s.lat.len.toNat < 13107000 →
    s.lat.src.toNat + s.lat.len.toNat ≤ s.params.lmemSize → s.lat.dst.toNat + 204 * P ≤ s.params.lmemSize →
    (s.lat.len = 0 ∨ s.lat.src.toNat + s.lat.len.toNat ≤ s.lat.dst.toNat ∨
      s.lat.dst.toNat + 204 * P ≤ s.lat.src.toNat) →
    ∃ m, exec .pktStream s = .next
        (endedWith (succeeded s.status) (BitVec.ofNat 32 P)
          { s with
            mem := m
            acc := packetChecksum s.params (memRead s s.lat.src.toNat s.lat.len.toNat) P }) ∧
      (∀ seq j, 1 ≤ seq → seq ≤ P → j < 204 →
        readByte { s with mem := m } (s.lat.dst.toNat + 204 * (seq - 1) + j) =
          (packet s.params (memRead s s.lat.src.toNat s.lat.len.toNat) seq s.key8).getD j 0) ∧
      KeepsOutside s { s with mem := m } (some ⟨s.lat.dst.toNat, 204 * P⟩)

/-- The errors of PKT_STREAM in the order of R133: NO_KEY, COUNT_OVERFLOW, RANGE, OVERLAP, with nothing else changed. -/
def Obligations.PktStreamErrorOrder : Prop :=
  ∀ (s : State) (e : ErrCode), s.touched = [] →
    e = (if s.status.keyv = false then .noKey
      else if 0xFFFF < s.lat.len.toNat / 200 + 1 then .countOverflow
      else if s.params.lmemSize < s.lat.src.toNat + s.lat.len.toNat then .range
      else if s.params.lmemSize < s.lat.dst.toNat + 204 * (s.lat.len.toNat / 200 + 1) then .range
      else if 0 < s.lat.len.toNat ∧ s.lat.src.toNat < s.lat.dst.toNat + 204 * (s.lat.len.toNat / 200 + 1) ∧
          s.lat.dst.toNat < s.lat.src.toNat + s.lat.len.toNat then .overlap
      else .noError) →
    e ≠ .noError → exec .pktStream s = .next (endedWith (failed e s.status) 0 s)

/-! ### The RLE tokens -/

/-- RLE_LIT (R214, R208): a first byte with bit 7 = 1 is a literal of its other seven bits; the values sb[6] to sb[0], cut
to those still needed, are appended; p advances by 1; nothing else changes. -/
def Obligations.LiteralTokenAppends : Prop :=
  (∀ (p : BitVec 7) (rest : List Byte), decodeToken ((1#1 ++ p : BitVec 8) :: rest) = .ok (.rleLit p)) ∧
  ∀ (p : BitVec 7) (s : State),
    exec (.rleLit p) s = .next { s with
      dec := { s.dec with
        out := s.dec.out ++
          [p.getLsbD 6, p.getLsbD 5, p.getLsbD 4, p.getLsbD 3, p.getLsbD 2, p.getLsbD 1, p.getLsbD 0].take
            (s.dec.total - s.dec.out.length)
        pos := s.dec.pos + 1 } }

/-- The three run tokens (R215, R216, R217; bit 5 of the 1-byte form ignored): where the stream holds the whole token and
the plane has room, r copies of v are appended, p advances by the token's length and nothing else changes. -/
def Obligations.RunTokensAppend : Prop :=
  ∀ (s : State) (v x : Pixel) (lo hi n : Byte) (r : BitVec 5) (i : Instr) (size len : Nat),
    (i, size, len) ∈ [(Instr.rleRun3 v lo hi, 3, lo.toNat + 256 * hi.toNat), (.rleRun2 v n, 2, n.toNat),
      (.rleRun1 v x r, 1, r.toNat)] →
    s.dec.pos + size ≤ s.dec.stream.length → s.dec.out.length + len ≤ s.dec.total →
    exec i s = .next { s with
      dec := { s.dec with out := s.dec.out ++ List.replicate len v, pos := s.dec.pos + size } }

/-- A 3-byte or 2-byte run token that the stream does not hold whole ends the command with DEC_TRUNCATED, a run token of any
form that goes past N pixels with DEC_OVERRUN, at the token's offset; every existing byte of the plane range holds a free
value and every other byte is kept (R209, R215 to R217, R255). -/
def Obligations.RunTokensFail : Prop :=
  ∀ (s : State) (v x : Pixel) (lo hi n : Byte) (r : BitVec 5) (i : Instr) (size len : Nat) (e : ErrCode),
    (((i, size) ∈ [(Instr.rleRun3 v lo hi, 3), (.rleRun2 v n, 2)] ∧
        s.dec.stream.length < s.dec.pos + size ∧ e = .decTruncated) ∨
      ((i, size, len) ∈ [(Instr.rleRun3 v lo hi, 3, lo.toNat + 256 * hi.toNat), (.rleRun2 v n, 2, n.toNat),
          (.rleRun1 v x r, 1, r.toNat)] ∧
        s.dec.pos + size ≤ s.dec.stream.length ∧ s.dec.total < s.dec.out.length + len ∧ e = .decOverrun)) →
    ∃ m d, exec i s = .next
        (endedWith (failed e s.status) (BitVec.ofNat 32 s.dec.pos) { s with mem := m, draw := d }) ∧
      KeepsOutside s { s with mem := m } (some ⟨s.lat.dst.toNat, planeSize (opPixels s.lat)⟩) ∧
      ∀ j < planeSize (opPixels s.lat), s.lat.dst.toNat + j < s.params.lmemSize → ∃ k, s.draw ≤ k ∧ k < d ∧
        readByte { s with mem := m } (s.lat.dst.toNat + j) = Config.freeByte k

/-- RLE_DEC walked token by token ends in the very state its one step gives (R134, R137, R207): the tokens' meanings and
the loop of R207 agree. -/
def Obligations.TokenWalkEqualsOneStep : Prop :=
  ∀ (s : State) (ts : List Turn), s.dec.active = false → s.status.busy = true → s.touched = [] →
    decodeCommand s.lat.cmd = .ok .rleDec → commonCheck .rleDec s = none → s.turns = .engineByToken :: ts →
    ∃ k, runSteps k s = exec .rleDec { s with turns := ts }

/-! ### What holds of every command -/

/-- Every accepted command completes (R135, R136): BUSY falls, DONE rises, the code is NONE or one of the command's codes
(R251, written out here), and ERR is sticky (R24). -/
def Obligations.EveryCommandCompletes : Prop :=
  (∀ (i : Instr) (s : State), i.isCommand = true →
    ∃ t, exec i s = .next t ∧ t.status.busy = false ∧ t.status.done = true ∧
      (t.status.errcode = .noError ∨ t.status.errcode ∈ commandCodes i) ∧
      (t.status.err = true ↔ s.status.err = true ∨ t.status.errcode ≠ .noError)) ∧
  ∀ i codes,
    (i, codes) ∈ [(Instr.nop, []), (.ckInit, []), (.keyClear, []), (.ckByte, [ErrCode.badParam]), (.ckRun, [.range]),
      (.ckCalc, [.range]), (.keyLoad, [.keyLocked]), (.xorBlock, [.noKey, .range, .overlap]),
      (.phBuild, [.badParam, .range]), (.thBuild, [.noKey, .countOverflow, .range]),
      (.rleEnc, [.range, .overlap, .encOverflow]),
      (.rleDec, [.range, .overlap, .decTruncated, .decUnderrun, .decOverrun, .decTrailing]),
      (.pktBuild, [.badParam, .noKey, .countOverflow, .badSeq, .range, .overlap]),
      (.pktStream, [.noKey, .countOverflow, .range, .overlap])] →
    ∀ e, e ∈ commandCodes i ↔ e ∈ codes

/-- No command writes an operand register (R20), CMD, CTRL, OVR, the latch, the parameters, the schedule or the bus. -/
def Obligations.CommandsKeepOperandRegisters : Prop :=
  ∀ (i : Instr) (s t : State), i.isCommand = true → exec i s = .next t →
    t.src = s.src ∧ t.dst = s.dst ∧ t.len = s.len ∧ t.param = s.param ∧ t.dim = s.dim ∧ t.addrLo = s.addrLo ∧
    t.addrHi = s.addrHi ∧ t.cmd = s.cmd ∧ t.ctrl = s.ctrl ∧ t.status.ovr = s.status.ovr ∧ t.lat = s.lat ∧
    t.params = s.params ∧ t.turns = s.turns ∧ t.busReads = s.busReads

/-- ACC is written by seven commands only (R34), and LMEM only in the output range and, after a disturbance, in the bytes
the host wrote (R255, R289); the input and output ranges are those of the table of R139. -/
def Obligations.CommandsKeepAccAndMemory : Prop :=
  (∀ (i : Instr) (s t : State), i.isCommand = true → exec i s = .next t →
    (i ∉ [Instr.ckInit, .ckByte, .ckRun, .ckCalc, .thBuild, .pktBuild, .pktStream] → t.acc = s.acc) ∧
    (∀ a, inRange (outputRange i s.lat) a = false → a ∉ s.touched → readByte t a = readByte s a)) ∧
  ∀ (l : Latch) (a d n pb : Nat), a = l.src.toNat → d = l.dst.toNat → n = l.len.toNat →
    pb = (((l.dim.extractLsb' 0 16).toNat + 1) * ((l.dim.extractLsb' 16 15).toNat + 1) + 7) / 8 →
    ∀ i input output,
      (i, input, output) ∈ [(Instr.nop, none, none), (.ckInit, none, none), (.keyLoad, none, none),
        (.keyClear, none, none), (.ckByte, none, none), (.ckRun, some ⟨a, n⟩, none), (.ckCalc, some ⟨a, n⟩, none),
        (.xorBlock, some ⟨a, n⟩, some ⟨d, n⟩), (.phBuild, none, some ⟨d, 13⟩), (.thBuild, none, some ⟨d, 20⟩),
        (.rleEnc, some ⟨a, pb⟩, some ⟨d, n⟩), (.rleDec, some ⟨a, n⟩, some ⟨d, pb⟩),
        (.pktBuild, some ⟨a, n⟩, some ⟨d, 204⟩), (.pktStream, some ⟨a, n⟩, some ⟨d, 204 * (n / 200 + 1)⟩)] →
      inputRange i l = input ∧ outputRange i l = output

/-- A command that ends with an error of the checks of R133, ILLEGAL_CMD to OVERLAP, changes nothing but RESULT and the
completion fields (R254). -/
def Obligations.CheckErrorsArePrecise : Prop :=
  (∀ (s : State) (r : CommandReject), s.status.busy = true → decodeCommand s.lat.cmd = .error r →
    engineStep s = .next (endedWith (failed .illegalCmd s.status) 0 s)) ∧
  ∀ (i : Instr) (s : State) (e : ErrCode), i.isCommand = true → s.touched = [] → commonCheck i s = some e →
    exec i s = .next (endedWith (failed e s.status) 0 s) ∧
    e ∈ [ErrCode.badParam, .noKey, .keyLocked, .countOverflow, .badSeq, .range, .overlap]

/-- The key state changes only by KEY_LOAD, KEY_CLEAR and soft reset (R37). -/
def Obligations.KeyChangesOnlyByItsCommands : Prop :=
  ∀ s t : State, step s = .next t → (t.key8 ≠ s.key8 ∨ t.status.keyv ≠ s.status.keyv) →
    (s.status.busy = true ∧ (decodeCommand s.lat.cmd = .ok .keyLoad ∨ decodeCommand s.lat.cmd = .ok .keyClear)) ∨
    ∃ a w ts, s.turns = .host (.write .b4 a w) :: ts ∧ a.toNat = 0 ∧ w.getLsbD 31 = true

/-- CK_TABLE and LMEM_SIZE are constants: no step changes them (R6, R150). -/
def Obligations.ParametersNeverChange : Prop :=
  ∀ s t : State, step s = .next t → t.params = s.params

/-- The invariant is kept by every step. -/
def Obligations.StepKeepsInv : Prop :=
  ∀ s t : State, Invariant s → step s = .next t → Invariant t

/-- A command into whose ranges the host wrote still completes; RESULT, the code, the output range, the written bytes and,
if the command writes ACC, ACC are open, and nothing else changes (R289). -/
def Obligations.DisturbedCommandCompletes : Prop :=
  ∀ (i : Instr) (s : State), i.isCommand = true → s.touched ≠ [] →
    ∃ e r h m n, exec i s = .next (endedWith
        { s.status with errcode := e, err := s.status.err || (e != .noError), done := true, busy := false } r
        { s with acc := h, mem := m, draw := n }) ∧
      (e = .noError ∨ e ∈ commandCodes i) ∧ (writesAcc i = false → h = s.acc) ∧ s.draw ≤ n ∧
      (∀ a, inRange (outputRange i s.lat) a = false → a ∉ s.touched →
        readByte { s with mem := m } a = readByte s a) ∧
      (∀ a, a < s.params.lmemSize → (inRange (outputRange i s.lat) a = true ∨ a ∈ s.touched) →
        ∃ k, s.draw ≤ k ∧ k < n ∧ readByte { s with mem := m } a = Config.freeByte k)

/-- A host write to an operand register has no effect on the running command (R290): the command does the same, and the
written register keeps the written value. -/
def Obligations.OperandWritesDoNotReachCommand : Prop :=
  ∀ (i : Instr) (s t : State) (c : Csr) (w : Word), i.isCommand = true → exec i s = .next t →
    c ∈ [Csr.src, .dst, .len, .param, .dim, .addrLo, .addrHi] →
    exec i (csrWrite c w s) = .next (csrWrite c w t)

/-! ### The functions of the units -/

/-- The 16-bit form of the byte step (R151): each nibble step can be masked to 16 bits. -/
def Obligations.ByteStepSixteenBitForm : Prop :=
  ∀ (p : Params) (acc : Half) (b : Byte),
    ckStep p acc b =
      (let t1 := (acc <<< 4) ^^^ tableEntry p (acc.extractLsb' 12 4 ^^^ b.extractLsb' 4 4).toNat
       (t1 <<< 4) ^^^ tableEntry p (t1.extractLsb' 12 4 ^^^ b.extractLsb' 0 4).toNat)

/-- The fold runs the byte step over the list in order, and a checksum is the fold from 0xFFFF (R152), over the table
CK_TABLE of the parameters (R150). So a checksum can be computed in pieces (R153): CK_RUN over n bytes and then over the k
bytes after them leaves in ACC what one CK_RUN over n + k bytes leaves. -/
def Obligations.ChecksumInPieces : Prop :=
  (∀ (p : Params) (acc : Half) (b : Byte) (L : List Byte),
    ckFold p acc [] = acc ∧ ckFold p acc (b :: L) = ckFold p (ckStep p acc b) L ∧
      checksum p [] = 0xFFFF ∧ checksum p L = ckFold p 0xFFFF L) ∧
  (∀ (p : Params) (i : Fin 16), tableEntry p i.val = p.ckTable[i]) ∧
  ∀ (s : State) (a n k : Nat) (acc : Half),
    ckFold s.params (ckFold s.params acc (memRead s a n)) (memRead s (a + n) k) =
      ckFold s.params acc (memRead s a (n + k))

/-- Obfuscation is self-inverse, keeps positions, and is the identity for key 0x00 (R171); the key does not depend on the
order of the address bytes (R170). -/
def Obligations.ObfuscationLaws : Prop :=
  (∀ (k : Byte) (L : List Byte), xorBytes k (xorBytes k L) = L ∧ xorBytes 0x00 L = L ∧
    ∀ j < L.length, (xorBytes k L).getD j 0 = L.getD j 0 ^^^ k) ∧
  (∀ L M : List Byte, L.Perm M → deriveKey L = deriveKey M)

/-- The transaction header. Its 20 plain bytes, written out from N, the packet count and the checksum of the first 18 (R98,
R178). The byte-9 quirk (R179): byte 9 of the obfuscated header is 0x62 for every N and k, every other byte is its plain
value XOR the key, and the procedure applied again gives the plain header. -/
def Obligations.HeaderByteNineQuirk : Prop :=
  (∀ (p : Params) (n : Word) (count ck : Half) (raw : List Byte), count = BitVec.ofNat 16 (n.toNat / 200 + 1) →
    raw = [0xFF, 0xFC, 0x65, 0x61, 0x73, 0x79, 0x54, 0x61, 0x67, 0x62, n.extractLsb' 24 8, n.extractLsb' 16 8,
      n.extractLsb' 8 8, n.extractLsb' 0 8, count.extractLsb' 8 8, count.extractLsb' 0 8, 0x42, 0x54] →
    ck = checksum p raw →
    txnRaw n.toNat = raw ∧ txnChecksum p n.toNat = ck ∧
      txnPlain p n.toNat = raw ++ [ck.extractLsb' 8 8, ck.extractLsb' 0 8]) ∧
  ∀ (p : Params) (n : Nat) (k : Byte),
    (txnHeader p n k).length = 20 ∧ (txnHeader p n k).getD 9 0 = 0x62 ∧
    (∀ j < 20, j ≠ 9 → (txnHeader p n k).getD j 0 = (txnPlain p n).getD j 0 ^^^ k) ∧
    xorBytes k ((txnHeader p n k).modify 9 fun b => b ^^^ k) = txnPlain p n

/-- Planes in LMEM (R68): pixel k is bit 7 − (k mod 8) of byte p + k div 8; PlaneWrite writes all PB(N) bytes, padding
bits 0, and no other byte. -/
def Obligations.PlaneLayout : Prop :=
  ∀ (s : State) (p n : Nat),
    (planeRead s p n).length = n ∧
    (∀ k < n, (planeRead s p n).getD k false = (readByte s (p + k / 8)).getLsbD (7 - k % 8)) ∧
    ∀ P : List Pixel, P.length = n →
      planeRead (planeWrite p n P s) p n = P ∧
      (∀ k, n ≤ k → k < 8 * ((n + 7) / 8) →
        (readByte (planeWrite p n P s) (p + k / 8)).getLsbD (7 - k % 8) = false) ∧
      (∀ a, ¬(p ≤ a ∧ a < p + (n + 7) / 8) → readByte (planeWrite p n P s) a = readByte s a)

/-- The length bound of the encoder, and that a capacity of (N + 6) div 7 bytes is always enough for RLE_ENC (R206). -/
def Obligations.EncodedLengthBound : Prop :=
  (∀ P : List Pixel, 1 ≤ P.length → 1 ≤ (rleEncode P).length ∧ (rleEncode P).length ≤ (P.length + 6) / 7) ∧
  (∀ s : State, s.touched = [] → commonCheck .rleEnc s = none → (opPixels s.lat + 6) / 7 ≤ s.lat.len.toNat →
    ∃ t, exec .rleEnc s = .next t ∧ t.status.errcode = .noError) ∧
  (800 * 480 + 6) / 7 = 54858

/-- Round trip (R210): decoding the encoding of a plane gives the plane, for every plane of at least one pixel; the
converse does not hold. -/
def Obligations.RleRoundTrip : Prop :=
  (∀ P : List Pixel, 1 ≤ P.length → rleDecode (rleEncode P) P.length = .ok P) ∧
  ∃ S n P, rleDecode S n = .ok P ∧ rleEncode P ≠ S

/-- What the encoder emits (R96, R201 to R203, R205). Every token is canonical: the stream is the concatenation of encodings
of literals, 1-byte runs of 7 to 31 with bit 5 = 0, 2-byte runs of 32 to 255 and 3-byte runs of 256 to 65535. And at every
cursor the token is the one R201 to R203 choose: with r the length of the maximal run of the first value, at most 0xFFFF, it
is the smallest run token that holds r where r is at least 7, else the literal of the next seven pixels, zero past the
plane's end; then the encoder goes on r or 7 pixels later. -/
def Obligations.EncoderEmitsCanonicalTokens : Prop :=
  (∀ P : List Pixel, ∃ toks : List Instr, rleEncode P = toks.flatMap encode ∧
    ∀ i ∈ toks, (∃ p, i = .rleLit p) ∨ (∃ v r, i = .rleRun1 v false r ∧ 7 ≤ r.toNat) ∨
      (∃ v n, i = .rleRun2 v n ∧ 32 ≤ n.toNat) ∨ (∃ v lo hi, i = .rleRun3 v lo hi ∧ hi ≠ 0)) ∧
  rleEncode [] = [] ∧
  ∀ (P : List Pixel) (v : Pixel) (r : Nat), 1 ≤ r → r ≤ P.length → r ≤ 0xFFFF → (∀ j < r, P[j]? = some v) →
    (r = 0xFFFF ∨ r = P.length ∨ P[r]? = some (!v)) →
    (7 ≤ r → r ≤ 31 → rleEncode P = encode (.rleRun1 v false (BitVec.ofNat 5 r)) ++ rleEncode (P.drop r)) ∧
    (32 ≤ r → r ≤ 255 → rleEncode P = encode (.rleRun2 v (BitVec.ofNat 8 r)) ++ rleEncode (P.drop r)) ∧
    (256 ≤ r → rleEncode P =
      encode (.rleRun3 v (BitVec.ofNat 8 (r % 256)) (BitVec.ofNat 8 (r / 256))) ++ rleEncode (P.drop r)) ∧
    (r < 7 → ∃ p : BitVec 7, rleEncode P = encode (.rleLit p) ++ rleEncode (P.drop 7) ∧
      ∀ j < 7, p.getLsbD (6 - j) = P.getD j false)

/-- What the decoder answers (R207, R209): N pixels, or a DEC_ code with an offset inside the stream, which is len(S)
exactly for DEC_UNDERRUN. -/
def Obligations.DecoderAnswers : Prop :=
  ∀ (S : List Byte) (n : Nat),
    (∀ P, rleDecode S n = .ok P → P.length = n) ∧
    (∀ e off, rleDecode S n = .error (e, off) →
      (e = .decUnderrun ∧ off = S.length) ∨
      ((e = .decTruncated ∨ e = .decOverrun ∨ e = .decTrailing) ∧ off < S.length))

/-- Chunks and packets (R231, R235): every chunk has 200 bytes and every packet 204; chunks 1 to P joined are the payload and 200 × P − N zero bytes, at least 1 and at
most 200 of them; the header carries P at bytes 14 and 15; a de-obfuscated packet is sequence number, chunk and the
checksum of both. -/
def Obligations.PacketsCarryPayload : Prop :=
  ∀ (p : Params) (pay : List Byte) (P : Nat), P = pay.length / 200 + 1 → P ≤ 0xFFFF →
    (List.range P).flatMap (fun s => chunk pay (s + 1)) = pay ++ List.replicate (200 * P - pay.length) 0 ∧
    1 ≤ 200 * P - pay.length ∧ 200 * P - pay.length ≤ 200 ∧
    ((txnPlain p pay.length).drop 14).take 2 = beBytes 2 P ∧ leValue (beBytes 2 P).reverse = P ∧
    ∀ (s : Nat) (k : Byte), (chunk pay s).length = 200 ∧ (packet p pay s k).length = 204 ∧
      xorBytes k (packet p pay s k) =
      beBytes 2 s ++ chunk pay s ++ beBytes 2 (checksum p (beBytes 2 s ++ chunk pay s)).toNat

/-! ### The host -/

/-- Acceptance and refusal of a CMD write (R131, R132). -/
def Obligations.CmdWriteAcceptedOrDropped : Prop :=
  ∀ (s : State) (w : Word) (ts : List Turn), s.dec.active = false → s.turns = .host (.write .b4 0x08 w) :: ts →
    (s.status.busy = false → step s = .next { s with
      turns := ts
      cmd := w
      lat := { cmd := w, src := s.src, dst := s.dst, len := s.len, param := s.param, dim := s.dim,
               addrLo := s.addrLo, addrHi := s.addrHi }
      status := { s.status with busy := true } }) ∧
    (s.status.busy = true → step s = .next { s with turns := ts, status := { s.status with ovr := true } })

/-- A write of w to STATUS clears DONE, ERR and OVR where w has a 1 and changes nothing else (R25). -/
def Obligations.StatusWriteOneToClear : Prop :=
  ∀ (s : State) (w : Word) (ts : List Turn), s.dec.active = false → s.turns = .host (.write .b4 0x04 w) :: ts →
    step s = .next { s with
      turns := ts
      status := { s.status with
        done := if w.getLsbD 1 then false else s.status.done
        err := if w.getLsbD 2 then false else s.status.err
        ovr := if w.getLsbD 4 then false else s.status.ovr } }

/-- Writes to the read-only registers KEY, ACC, RESULT and ID are ignored and are no bus error (R43). -/
def Obligations.ReadOnlyWritesIgnored : Prop :=
  ∀ (s : State) (a : BitVec 21) (w : Word) (ts : List Turn), s.dec.active = false →
    a ∈ [(0x28 : BitVec 21), 0x2C, 0x30, 0x34] → s.turns = .host (.write .b4 a w) :: ts →
    step s = .next { s with turns := ts }

/-- A written operand register reads back what was written, with DIM bit 31 and ADDR_HI bits 31:16 as 0 (R27 to R32,
R42); the host's write turn changes that register and nothing else; a read changes nothing of the block (R41). While no
command runs every register reads exactly its value (R23, R24, R26 to R36; R77, R288): STATUS its bits and the number of the
code (R250), KEY the key byte while a key is loaded and else 0, with every reserved bit 0 (`ReadsWhileBusy` has the rest). -/
def Obligations.OperandRegistersReadBack : Prop :=
  ∀ (s : State) (w : Word),
    (∀ c ∈ [Csr.src, .dst, .len, .param, .addrLo], csrRead c (csrWrite c w s) = w) ∧
    csrRead .dim (csrWrite .dim w s) = w &&& 0x7FFFFFFF ∧
    csrRead .addrHi (csrWrite .addrHi w s) = w &&& 0x0000FFFF ∧
    (s.dec.active = false → ∀ c a t ts,
      (c, a, t) ∈ [(Csr.src, (0x0C : BitVec 21), { s with src := w }), (.dst, 0x10, { s with dst := w }),
        (.len, 0x14, { s with len := w }), (.param, 0x18, { s with param := w }),
        (.dim, 0x1C, { s with dim := w.extractLsb' 0 31 }), (.addrLo, 0x20, { s with addrLo := w }),
        (.addrHi, 0x24, { s with addrHi := w.extractLsb' 0 16 })] →
      s.turns = .host (.write .b4 a w) :: ts →
      a = csrAddress c ∧ step s = .next (csrWrite c w { s with turns := ts }) ∧ step s = .next { t with turns := ts }) ∧
    (s.dec.active = false → ∀ c ts, s.turns = .host (.read .b4 (csrAddress c)) :: ts →
      ∃ n, step s = .next { s with turns := ts, busReads := csrRead c s :: s.busReads, draw := n }) ∧
    (s.dec.active = false → s.status.busy = false → ∀ (code : Byte),
      (s.status.errcode, code) ∈ [(ErrCode.noError, (0x00 : Byte)), (.illegalCmd, 0x01), (.badParam, 0x02),
        (.noKey, 0x03), (.keyLocked, 0x04), (.countOverflow, 0x05), (.badSeq, 0x06), (.range, 0x07), (.overlap, 0x08),
        (.encOverflow, 0x09), (.decTruncated, 0x0A), (.decUnderrun, 0x0B), (.decOverrun, 0x0C), (.decTrailing, 0x0D)] →
      ∀ (c : Csr) (v : Word) (ts : List Turn),
        (c, v) ∈ [(Csr.status, (0#16 ++ code ++ 0#3 ++ BitVec.ofBool s.status.ovr ++ BitVec.ofBool s.status.keyv ++
            BitVec.ofBool s.status.err ++ BitVec.ofBool s.status.done ++ 0#1 : BitVec 32)),
          (.key, if s.status.keyv then 0#24 ++ s.key8 else 0), (.acc, 0#16 ++ s.acc), (.result, s.result),
          (.ctrl, (0#30 ++ BitVec.ofBool s.ctrl.ieErr ++ BitVec.ofBool s.ctrl.ieDone : BitVec 32)), (.cmd, s.cmd),
          (.src, s.src), (.dst, s.dst), (.len, s.len), (.param, s.param), (.dim, 0#1 ++ s.dim), (.addrLo, s.addrLo),
          (.addrHi, 0#16 ++ s.addrHi), (.id, 0x45544147)] →
        s.turns = .host (.read .b4 (csrAddress c)) :: ts →
        step s = .next { s with turns := ts, busReads := v :: s.busReads })

/-- Soft reset (R283): every register and the engine as after power-on reset; a running command is aborted and leaves free
values in its output range; every other LMEM byte is kept, all of them while idle. -/
def Obligations.SoftResetRestores : Prop :=
  ∀ (s : State) (w : Word) (ts : List Turn), s.dec.active = false → s.turns = .host (.write .b4 0x00 w) :: ts →
    w.getLsbD 31 = true →
    ∃ m n, step s = .next { State.reset with
        params := s.params, mem := m, draw := n, turns := ts, busReads := s.busReads } ∧
      (s.status.busy = false → m = s.mem) ∧
      KeepsOutside s { s with mem := m } (runningOutput s) ∧
      ∀ a, inRange (runningOutput s) a = true → a < s.params.lmemSize →
        ∃ k, s.draw ≤ k ∧ k < n ∧ readByte { s with mem := m } a = Config.freeByte k

/-- What the host reads while a command runs (R288), at the level of its turn. STATUS shows the true BUSY, DONE, ERR, KEYV and
OVR bits with an open ERRCODE; ACC, RESULT and KEY are open in their fields (log 10: their reserved bits read 0); every other
register reads its value. An LMEM read of any width is, byte by byte, open in the running command's output range and true
elsewhere, with zeros above its bytes (log 6). Nothing of the block changes. -/
def Obligations.ReadsWhileBusy : Prop :=
  ∀ (s : State) (ts : List Turn), s.dec.active = false → s.status.busy = true →
    (∀ b, (statusWord s.status b).getLsbD 0 = true ∧ (statusWord s.status b).getLsbD 1 = s.status.done ∧
      (statusWord s.status b).getLsbD 2 = s.status.err ∧ (statusWord s.status b).getLsbD 3 = s.status.keyv ∧
      (statusWord s.status b).getLsbD 4 = s.status.ovr ∧ (statusWord s.status b).extractLsb' 8 8 = b) ∧
    (∀ c v,
      (c, v) ∈ [(Csr.status, statusWord s.status (Config.freeByte s.draw)),
        (.acc, (Config.freeHalf s.draw).zeroExtend 32), (.result, Config.freeWord s.draw),
        (.key, (Config.freeByte s.draw).zeroExtend 32), (.ctrl, ctrlWord s.ctrl), (.cmd, s.cmd), (.src, s.src),
        (.dst, s.dst), (.len, s.len), (.param, s.param), (.dim, s.dim.zeroExtend 32), (.addrLo, s.addrLo),
        (.addrHi, s.addrHi.zeroExtend 32), (.id, 0x45544147)] →
      s.turns = .host (.read .b4 (csrAddress c)) :: ts →
      step s = .next { s with turns := ts, busReads := v :: s.busReads, draw := s.draw + 4 }) ∧
    ∀ w off, off % widthBytes w = 0 → off + widthBytes w ≤ s.params.lmemSize →
      s.turns = .host (.read w (lmemAddress off)) :: ts →
      ∃ v, step s = .next { s with turns := ts, busReads := v :: s.busReads, draw := s.draw + 4 } ∧
        v.toNat < 2 ^ (8 * widthBytes w) ∧
        ∀ i < widthBytes w, v.extractLsb' (8 * i) 8 =
          if inRange (runningOutput s) (off + i) then Config.freeByte (s.draw + i) else readByte s (off + i)

/-- Little-endian lanes of the LMEM window (R69), at the level of the host's turn: the bytes of an access stand in its data at
bits 8i + 7 : 8i, for reads while idle (`ReadsWhileBusy` has the others) and for writes. A write changes no other byte and
nothing else, but that it records the bytes it wrote into the running command's ranges (R289; the record is the model's, log
11). -/
def Obligations.LmemLanes : Prop :=
  ∀ (s : State) (w : Width) (off : Nat) (data : Word) (ts : List Turn), s.dec.active = false →
    off % widthBytes w = 0 → off + widthBytes w ≤ s.params.lmemSize →
    (s.status.busy = false → s.turns = .host (.read w (lmemAddress off)) :: ts →
      ∃ v, step s = .next { s with turns := ts, busReads := v :: s.busReads } ∧
        v.toNat < 2 ^ (8 * widthBytes w) ∧
        ∀ i < widthBytes w, v.extractLsb' (8 * i) 8 = readByte s (off + i)) ∧
    (s.turns = .host (.write w (lmemAddress off) data) :: ts →
      ∃ m, step s = .next { s with
          turns := ts, mem := m, touched := s.touched ++ disturbedOffsets s off (widthBytes w) } ∧
        (∀ a, readByte { s with mem := m } a =
          if off ≤ a ∧ a < off + widthBytes w then data.extractLsb' (8 * (a - off)) 8 else readByte s a) ∧
        (∀ a, a ∈ disturbedOffsets s off (widthBytes w) ↔
          s.status.busy = true ∧ (off ≤ a ∧ a < off + widthBytes w) ∧
            ∃ i, decodeCommand s.lat.cmd = .ok i ∧
              (inRange (inputRange i s.lat) a = true ∨ inRange (outputRange i s.lat) a = true)))

/-- Where a host access is a bus error (R62, R71 to R73): exactly if it is no aligned 4-byte access to one of the fourteen
registers and no aligned access wholly inside the LMEM window. -/
def Obligations.BusErrorsExactly : Prop :=
  ∀ (s : State) (w : Width) (a : BitVec 21) (data : Word) (ts : List Turn), s.dec.active = false →
    ∀ h ∈ [HostAccess.read w a, .write w a data], s.turns = .host h :: ts →
    ((∃ e, step s = .fault (.busError e)) ↔
      ¬(w = .b4 ∧ a.toNat % 4 = 0 ∧ a.toNat ≤ 0x34) ∧
      ¬(0x100000 ≤ a.toNat ∧ a.toNat % widthBytes w = 0 ∧
        a.toNat - 0x100000 + widthBytes w ≤ s.params.lmemSize))

/-- The interrupt line (R262): after every completion it is IE_DONE, or IE_ERR with ERR; a write of 1s to DONE and ERR
lowers it in the same step; an ordinary write to CTRL (bit 31 = 0; R23, R42) sets the two enable bits, ignores every other
bit, changes nothing else, and the line follows at once. -/
def Obligations.InterruptLine : Prop :=
  (∀ (i : Instr) (s t : State), i.isCommand = true → exec i s = .next t →
    irq t = (s.ctrl.ieDone || (t.status.err && s.ctrl.ieErr))) ∧
  (∀ (s : State) (w : Word), w.getLsbD 1 = true → w.getLsbD 2 = true → irq (csrWrite .status w s) = false) ∧
  (∀ (s : State) (w : Word) (ts : List Turn), s.dec.active = false → s.turns = .host (.write .b4 0x00 w) :: ts →
    w.getLsbD 31 = false →
    ∃ t, step s = .next t ∧
      t = { s with turns := ts, ctrl := { ieDone := w.getLsbD 0, ieErr := w.getLsbD 1 } } ∧
      csrRead .ctrl t = w &&& 0x00000003 ∧
      irq t = ((s.status.done && w.getLsbD 0) || (s.status.err && w.getLsbD 1)))

/-- `wait` (R101): each poll answers STATUS to the host; the wait ends exactly with a value whose BUSY bit is 0. Whatever the
state and the schedule's number of polls, it does end: after some steps the turn is used up, no command runs, and the values
read are some with BUSY = 1 and then one with BUSY = 0 (R136; how many is the model's argument, log 20). -/
def Obligations.WaitPollsUntilIdle : Prop :=
  ∀ (s : State) (n : Nat) (ts : List Turn), s.dec.active = false → s.turns = .wait n :: ts →
    (∃ v us d, step s = .next { s with turns := us, busReads := v :: s.busReads, draw := d } ∧
      v = csrRead .status s ∧ v.getLsbD 0 = s.status.busy ∧
      (v.getLsbD 0 = false → us = ts) ∧ (v.getLsbD 0 = true → ∃ k, us = .wait k :: ts ∨ us = .engine :: .wait k :: ts)) ∧
    ∃ k t v vs, runSteps k s = .next t ∧ t.turns = ts ∧ t.status.busy = false ∧
      t.busReads = v :: vs ++ s.busReads ∧ v.getLsbD 0 = false ∧ ∀ u ∈ vs, u.getLsbD 0 = true
end

