-- ==== Sys2Proof/Laws/State.lean ====
section
/-! SUPPORT. One lemma per field per named update of State, each true by rfl. -/

namespace Sys2Proof.Machine

/-! ### setMem -/

@[simp] theorem setMem_params (m : Memory) (s : State) : (setMem m s).params = s.params := rfl
@[simp] theorem setMem_ctrl (m : Memory) (s : State) : (setMem m s).ctrl = s.ctrl := rfl
@[simp] theorem setMem_status (m : Memory) (s : State) : (setMem m s).status = s.status := rfl
@[simp] theorem setMem_cmd (m : Memory) (s : State) : (setMem m s).cmd = s.cmd := rfl
@[simp] theorem setMem_src (m : Memory) (s : State) : (setMem m s).src = s.src := rfl
@[simp] theorem setMem_dst (m : Memory) (s : State) : (setMem m s).dst = s.dst := rfl
@[simp] theorem setMem_len (m : Memory) (s : State) : (setMem m s).len = s.len := rfl
@[simp] theorem setMem_param (m : Memory) (s : State) : (setMem m s).param = s.param := rfl
@[simp] theorem setMem_dim (m : Memory) (s : State) : (setMem m s).dim = s.dim := rfl
@[simp] theorem setMem_addrLo (m : Memory) (s : State) : (setMem m s).addrLo = s.addrLo := rfl
@[simp] theorem setMem_addrHi (m : Memory) (s : State) : (setMem m s).addrHi = s.addrHi := rfl
@[simp] theorem setMem_key8 (m : Memory) (s : State) : (setMem m s).key8 = s.key8 := rfl
@[simp] theorem setMem_acc (m : Memory) (s : State) : (setMem m s).acc = s.acc := rfl
@[simp] theorem setMem_result (m : Memory) (s : State) : (setMem m s).result = s.result := rfl
@[simp] theorem setMem_lat (m : Memory) (s : State) : (setMem m s).lat = s.lat := rfl
@[simp] theorem setMem_dec (m : Memory) (s : State) : (setMem m s).dec = s.dec := rfl
@[simp] theorem setMem_mem (m : Memory) (s : State) : (setMem m s).mem = m := rfl
@[simp] theorem setMem_touched (m : Memory) (s : State) : (setMem m s).touched = s.touched := rfl
@[simp] theorem setMem_draw (m : Memory) (s : State) : (setMem m s).draw = s.draw := rfl
@[simp] theorem setMem_turns (m : Memory) (s : State) : (setMem m s).turns = s.turns := rfl
@[simp] theorem setMem_busReads (m : Memory) (s : State) : (setMem m s).busReads = s.busReads := rfl

/-! ### setAcc -/

@[simp] theorem setAcc_params (h : Half) (s : State) : (setAcc h s).params = s.params := rfl
@[simp] theorem setAcc_ctrl (h : Half) (s : State) : (setAcc h s).ctrl = s.ctrl := rfl
@[simp] theorem setAcc_status (h : Half) (s : State) : (setAcc h s).status = s.status := rfl
@[simp] theorem setAcc_cmd (h : Half) (s : State) : (setAcc h s).cmd = s.cmd := rfl
@[simp] theorem setAcc_src (h : Half) (s : State) : (setAcc h s).src = s.src := rfl
@[simp] theorem setAcc_dst (h : Half) (s : State) : (setAcc h s).dst = s.dst := rfl
@[simp] theorem setAcc_len (h : Half) (s : State) : (setAcc h s).len = s.len := rfl
@[simp] theorem setAcc_param (h : Half) (s : State) : (setAcc h s).param = s.param := rfl
@[simp] theorem setAcc_dim (h : Half) (s : State) : (setAcc h s).dim = s.dim := rfl
@[simp] theorem setAcc_addrLo (h : Half) (s : State) : (setAcc h s).addrLo = s.addrLo := rfl
@[simp] theorem setAcc_addrHi (h : Half) (s : State) : (setAcc h s).addrHi = s.addrHi := rfl
@[simp] theorem setAcc_key8 (h : Half) (s : State) : (setAcc h s).key8 = s.key8 := rfl
@[simp] theorem setAcc_acc (h : Half) (s : State) : (setAcc h s).acc = h := rfl
@[simp] theorem setAcc_result (h : Half) (s : State) : (setAcc h s).result = s.result := rfl
@[simp] theorem setAcc_lat (h : Half) (s : State) : (setAcc h s).lat = s.lat := rfl
@[simp] theorem setAcc_dec (h : Half) (s : State) : (setAcc h s).dec = s.dec := rfl
@[simp] theorem setAcc_mem (h : Half) (s : State) : (setAcc h s).mem = s.mem := rfl
@[simp] theorem setAcc_touched (h : Half) (s : State) : (setAcc h s).touched = s.touched := rfl
@[simp] theorem setAcc_draw (h : Half) (s : State) : (setAcc h s).draw = s.draw := rfl
@[simp] theorem setAcc_turns (h : Half) (s : State) : (setAcc h s).turns = s.turns := rfl
@[simp] theorem setAcc_busReads (h : Half) (s : State) : (setAcc h s).busReads = s.busReads := rfl

/-! ### setKey -/

@[simp] theorem setKey_params (k : Byte) (v : Bool) (s : State) : (setKey k v s).params = s.params := rfl
@[simp] theorem setKey_ctrl (k : Byte) (v : Bool) (s : State) : (setKey k v s).ctrl = s.ctrl := rfl
@[simp] theorem setKey_status_busy (k : Byte) (v : Bool) (s : State) :
    (setKey k v s).status.busy = s.status.busy := rfl
@[simp] theorem setKey_status_done (k : Byte) (v : Bool) (s : State) :
    (setKey k v s).status.done = s.status.done := rfl
@[simp] theorem setKey_status_err (k : Byte) (v : Bool) (s : State) :
    (setKey k v s).status.err = s.status.err := rfl
@[simp] theorem setKey_status_keyv (k : Byte) (v : Bool) (s : State) :
    (setKey k v s).status.keyv = v := rfl
@[simp] theorem setKey_status_ovr (k : Byte) (v : Bool) (s : State) :
    (setKey k v s).status.ovr = s.status.ovr := rfl
@[simp] theorem setKey_status_errcode (k : Byte) (v : Bool) (s : State) :
    (setKey k v s).status.errcode = s.status.errcode := rfl
@[simp] theorem setKey_cmd (k : Byte) (v : Bool) (s : State) : (setKey k v s).cmd = s.cmd := rfl
@[simp] theorem setKey_src (k : Byte) (v : Bool) (s : State) : (setKey k v s).src = s.src := rfl
@[simp] theorem setKey_dst (k : Byte) (v : Bool) (s : State) : (setKey k v s).dst = s.dst := rfl
@[simp] theorem setKey_len (k : Byte) (v : Bool) (s : State) : (setKey k v s).len = s.len := rfl
@[simp] theorem setKey_param (k : Byte) (v : Bool) (s : State) : (setKey k v s).param = s.param := rfl
@[simp] theorem setKey_dim (k : Byte) (v : Bool) (s : State) : (setKey k v s).dim = s.dim := rfl
@[simp] theorem setKey_addrLo (k : Byte) (v : Bool) (s : State) : (setKey k v s).addrLo = s.addrLo := rfl
@[simp] theorem setKey_addrHi (k : Byte) (v : Bool) (s : State) : (setKey k v s).addrHi = s.addrHi := rfl
@[simp] theorem setKey_key8 (k : Byte) (v : Bool) (s : State) : (setKey k v s).key8 = k := rfl
@[simp] theorem setKey_acc (k : Byte) (v : Bool) (s : State) : (setKey k v s).acc = s.acc := rfl
@[simp] theorem setKey_result (k : Byte) (v : Bool) (s : State) : (setKey k v s).result = s.result := rfl
@[simp] theorem setKey_lat (k : Byte) (v : Bool) (s : State) : (setKey k v s).lat = s.lat := rfl
@[simp] theorem setKey_dec (k : Byte) (v : Bool) (s : State) : (setKey k v s).dec = s.dec := rfl
@[simp] theorem setKey_mem (k : Byte) (v : Bool) (s : State) : (setKey k v s).mem = s.mem := rfl
@[simp] theorem setKey_touched (k : Byte) (v : Bool) (s : State) : (setKey k v s).touched = s.touched := rfl
@[simp] theorem setKey_draw (k : Byte) (v : Bool) (s : State) : (setKey k v s).draw = s.draw := rfl
@[simp] theorem setKey_turns (k : Byte) (v : Bool) (s : State) : (setKey k v s).turns = s.turns := rfl
@[simp] theorem setKey_busReads (k : Byte) (v : Bool) (s : State) : (setKey k v s).busReads = s.busReads := rfl

/-! ### setDec -/

@[simp] theorem setDec_params (d : Decoder) (s : State) : (setDec d s).params = s.params := rfl
@[simp] theorem setDec_ctrl (d : Decoder) (s : State) : (setDec d s).ctrl = s.ctrl := rfl
@[simp] theorem setDec_status (d : Decoder) (s : State) : (setDec d s).status = s.status := rfl
@[simp] theorem setDec_cmd (d : Decoder) (s : State) : (setDec d s).cmd = s.cmd := rfl
@[simp] theorem setDec_src (d : Decoder) (s : State) : (setDec d s).src = s.src := rfl
@[simp] theorem setDec_dst (d : Decoder) (s : State) : (setDec d s).dst = s.dst := rfl
@[simp] theorem setDec_len (d : Decoder) (s : State) : (setDec d s).len = s.len := rfl
@[simp] theorem setDec_param (d : Decoder) (s : State) : (setDec d s).param = s.param := rfl
@[simp] theorem setDec_dim (d : Decoder) (s : State) : (setDec d s).dim = s.dim := rfl
@[simp] theorem setDec_addrLo (d : Decoder) (s : State) : (setDec d s).addrLo = s.addrLo := rfl
@[simp] theorem setDec_addrHi (d : Decoder) (s : State) : (setDec d s).addrHi = s.addrHi := rfl
@[simp] theorem setDec_key8 (d : Decoder) (s : State) : (setDec d s).key8 = s.key8 := rfl
@[simp] theorem setDec_acc (d : Decoder) (s : State) : (setDec d s).acc = s.acc := rfl
@[simp] theorem setDec_result (d : Decoder) (s : State) : (setDec d s).result = s.result := rfl
@[simp] theorem setDec_lat (d : Decoder) (s : State) : (setDec d s).lat = s.lat := rfl
@[simp] theorem setDec_dec (d : Decoder) (s : State) : (setDec d s).dec = d := rfl
@[simp] theorem setDec_mem (d : Decoder) (s : State) : (setDec d s).mem = s.mem := rfl
@[simp] theorem setDec_touched (d : Decoder) (s : State) : (setDec d s).touched = s.touched := rfl
@[simp] theorem setDec_draw (d : Decoder) (s : State) : (setDec d s).draw = s.draw := rfl
@[simp] theorem setDec_turns (d : Decoder) (s : State) : (setDec d s).turns = s.turns := rfl
@[simp] theorem setDec_busReads (d : Decoder) (s : State) : (setDec d s).busReads = s.busReads := rfl

/-! ### setDraw -/

@[simp] theorem setDraw_params (n : Nat) (s : State) : (setDraw n s).params = s.params := rfl
@[simp] theorem setDraw_ctrl (n : Nat) (s : State) : (setDraw n s).ctrl = s.ctrl := rfl
@[simp] theorem setDraw_status (n : Nat) (s : State) : (setDraw n s).status = s.status := rfl
@[simp] theorem setDraw_cmd (n : Nat) (s : State) : (setDraw n s).cmd = s.cmd := rfl
@[simp] theorem setDraw_src (n : Nat) (s : State) : (setDraw n s).src = s.src := rfl
@[simp] theorem setDraw_dst (n : Nat) (s : State) : (setDraw n s).dst = s.dst := rfl
@[simp] theorem setDraw_len (n : Nat) (s : State) : (setDraw n s).len = s.len := rfl
@[simp] theorem setDraw_param (n : Nat) (s : State) : (setDraw n s).param = s.param := rfl
@[simp] theorem setDraw_dim (n : Nat) (s : State) : (setDraw n s).dim = s.dim := rfl
@[simp] theorem setDraw_addrLo (n : Nat) (s : State) : (setDraw n s).addrLo = s.addrLo := rfl
@[simp] theorem setDraw_addrHi (n : Nat) (s : State) : (setDraw n s).addrHi = s.addrHi := rfl
@[simp] theorem setDraw_key8 (n : Nat) (s : State) : (setDraw n s).key8 = s.key8 := rfl
@[simp] theorem setDraw_acc (n : Nat) (s : State) : (setDraw n s).acc = s.acc := rfl
@[simp] theorem setDraw_result (n : Nat) (s : State) : (setDraw n s).result = s.result := rfl
@[simp] theorem setDraw_lat (n : Nat) (s : State) : (setDraw n s).lat = s.lat := rfl
@[simp] theorem setDraw_dec (n : Nat) (s : State) : (setDraw n s).dec = s.dec := rfl
@[simp] theorem setDraw_mem (n : Nat) (s : State) : (setDraw n s).mem = s.mem := rfl
@[simp] theorem setDraw_touched (n : Nat) (s : State) : (setDraw n s).touched = s.touched := rfl
@[simp] theorem setDraw_draw (n : Nat) (s : State) : (setDraw n s).draw = n := rfl
@[simp] theorem setDraw_turns (n : Nat) (s : State) : (setDraw n s).turns = s.turns := rfl
@[simp] theorem setDraw_busReads (n : Nat) (s : State) : (setDraw n s).busReads = s.busReads := rfl

/-! ### setTurns -/

@[simp] theorem setTurns_params (ts : List Turn) (s : State) : (setTurns ts s).params = s.params := rfl
@[simp] theorem setTurns_ctrl (ts : List Turn) (s : State) : (setTurns ts s).ctrl = s.ctrl := rfl
@[simp] theorem setTurns_status (ts : List Turn) (s : State) : (setTurns ts s).status = s.status := rfl
@[simp] theorem setTurns_cmd (ts : List Turn) (s : State) : (setTurns ts s).cmd = s.cmd := rfl
@[simp] theorem setTurns_src (ts : List Turn) (s : State) : (setTurns ts s).src = s.src := rfl
@[simp] theorem setTurns_dst (ts : List Turn) (s : State) : (setTurns ts s).dst = s.dst := rfl
@[simp] theorem setTurns_len (ts : List Turn) (s : State) : (setTurns ts s).len = s.len := rfl
@[simp] theorem setTurns_param (ts : List Turn) (s : State) : (setTurns ts s).param = s.param := rfl
@[simp] theorem setTurns_dim (ts : List Turn) (s : State) : (setTurns ts s).dim = s.dim := rfl
@[simp] theorem setTurns_addrLo (ts : List Turn) (s : State) : (setTurns ts s).addrLo = s.addrLo := rfl
@[simp] theorem setTurns_addrHi (ts : List Turn) (s : State) : (setTurns ts s).addrHi = s.addrHi := rfl
@[simp] theorem setTurns_key8 (ts : List Turn) (s : State) : (setTurns ts s).key8 = s.key8 := rfl
@[simp] theorem setTurns_acc (ts : List Turn) (s : State) : (setTurns ts s).acc = s.acc := rfl
@[simp] theorem setTurns_result (ts : List Turn) (s : State) : (setTurns ts s).result = s.result := rfl
@[simp] theorem setTurns_lat (ts : List Turn) (s : State) : (setTurns ts s).lat = s.lat := rfl
@[simp] theorem setTurns_dec (ts : List Turn) (s : State) : (setTurns ts s).dec = s.dec := rfl
@[simp] theorem setTurns_mem (ts : List Turn) (s : State) : (setTurns ts s).mem = s.mem := rfl
@[simp] theorem setTurns_touched (ts : List Turn) (s : State) : (setTurns ts s).touched = s.touched := rfl
@[simp] theorem setTurns_draw (ts : List Turn) (s : State) : (setTurns ts s).draw = s.draw := rfl
@[simp] theorem setTurns_turns (ts : List Turn) (s : State) : (setTurns ts s).turns = ts := rfl
@[simp] theorem setTurns_busReads (ts : List Turn) (s : State) : (setTurns ts s).busReads = s.busReads := rfl

/-! ### memWrite -/

@[simp] theorem memWrite_params (a : Nat) (L : List Byte) (s : State) : (memWrite a L s).params = s.params := rfl
@[simp] theorem memWrite_ctrl (a : Nat) (L : List Byte) (s : State) : (memWrite a L s).ctrl = s.ctrl := rfl
@[simp] theorem memWrite_status (a : Nat) (L : List Byte) (s : State) : (memWrite a L s).status = s.status := rfl
@[simp] theorem memWrite_cmd (a : Nat) (L : List Byte) (s : State) : (memWrite a L s).cmd = s.cmd := rfl
@[simp] theorem memWrite_src (a : Nat) (L : List Byte) (s : State) : (memWrite a L s).src = s.src := rfl
@[simp] theorem memWrite_dst (a : Nat) (L : List Byte) (s : State) : (memWrite a L s).dst = s.dst := rfl
@[simp] theorem memWrite_len (a : Nat) (L : List Byte) (s : State) : (memWrite a L s).len = s.len := rfl
@[simp] theorem memWrite_param (a : Nat) (L : List Byte) (s : State) : (memWrite a L s).param = s.param := rfl
@[simp] theorem memWrite_dim (a : Nat) (L : List Byte) (s : State) : (memWrite a L s).dim = s.dim := rfl
@[simp] theorem memWrite_addrLo (a : Nat) (L : List Byte) (s : State) : (memWrite a L s).addrLo = s.addrLo := rfl
@[simp] theorem memWrite_addrHi (a : Nat) (L : List Byte) (s : State) : (memWrite a L s).addrHi = s.addrHi := rfl
@[simp] theorem memWrite_key8 (a : Nat) (L : List Byte) (s : State) : (memWrite a L s).key8 = s.key8 := rfl
@[simp] theorem memWrite_acc (a : Nat) (L : List Byte) (s : State) : (memWrite a L s).acc = s.acc := rfl
@[simp] theorem memWrite_result (a : Nat) (L : List Byte) (s : State) : (memWrite a L s).result = s.result := rfl
@[simp] theorem memWrite_lat (a : Nat) (L : List Byte) (s : State) : (memWrite a L s).lat = s.lat := rfl
@[simp] theorem memWrite_dec (a : Nat) (L : List Byte) (s : State) : (memWrite a L s).dec = s.dec := rfl
@[simp] theorem memWrite_mem (a : Nat) (L : List Byte) (s : State) : (memWrite a L s).mem = Memory.writeList s.mem a L := rfl
@[simp] theorem memWrite_touched (a : Nat) (L : List Byte) (s : State) : (memWrite a L s).touched = s.touched := rfl
@[simp] theorem memWrite_draw (a : Nat) (L : List Byte) (s : State) : (memWrite a L s).draw = s.draw := rfl
@[simp] theorem memWrite_turns (a : Nat) (L : List Byte) (s : State) : (memWrite a L s).turns = s.turns := rfl
@[simp] theorem memWrite_busReads (a : Nat) (L : List Byte) (s : State) : (memWrite a L s).busReads = s.busReads := rfl

/-! ### unspecify -/

@[simp] theorem unspecify_params (offs : List Nat) (s : State) : (unspecify offs s).params = s.params := rfl
@[simp] theorem unspecify_ctrl (offs : List Nat) (s : State) : (unspecify offs s).ctrl = s.ctrl := rfl
@[simp] theorem unspecify_status (offs : List Nat) (s : State) : (unspecify offs s).status = s.status := rfl
@[simp] theorem unspecify_cmd (offs : List Nat) (s : State) : (unspecify offs s).cmd = s.cmd := rfl
@[simp] theorem unspecify_src (offs : List Nat) (s : State) : (unspecify offs s).src = s.src := rfl
@[simp] theorem unspecify_dst (offs : List Nat) (s : State) : (unspecify offs s).dst = s.dst := rfl
@[simp] theorem unspecify_len (offs : List Nat) (s : State) : (unspecify offs s).len = s.len := rfl
@[simp] theorem unspecify_param (offs : List Nat) (s : State) : (unspecify offs s).param = s.param := rfl
@[simp] theorem unspecify_dim (offs : List Nat) (s : State) : (unspecify offs s).dim = s.dim := rfl
@[simp] theorem unspecify_addrLo (offs : List Nat) (s : State) : (unspecify offs s).addrLo = s.addrLo := rfl
@[simp] theorem unspecify_addrHi (offs : List Nat) (s : State) : (unspecify offs s).addrHi = s.addrHi := rfl
@[simp] theorem unspecify_key8 (offs : List Nat) (s : State) : (unspecify offs s).key8 = s.key8 := rfl
@[simp] theorem unspecify_acc (offs : List Nat) (s : State) : (unspecify offs s).acc = s.acc := rfl
@[simp] theorem unspecify_result (offs : List Nat) (s : State) : (unspecify offs s).result = s.result := rfl
@[simp] theorem unspecify_lat (offs : List Nat) (s : State) : (unspecify offs s).lat = s.lat := rfl
@[simp] theorem unspecify_dec (offs : List Nat) (s : State) : (unspecify offs s).dec = s.dec := rfl
@[simp] theorem unspecify_mem (offs : List Nat) (s : State) : (unspecify offs s).mem = Memory.drawInto s.mem s.draw offs := rfl
@[simp] theorem unspecify_touched (offs : List Nat) (s : State) : (unspecify offs s).touched = s.touched := rfl
@[simp] theorem unspecify_draw (offs : List Nat) (s : State) : (unspecify offs s).draw = s.draw + offs.length := rfl
@[simp] theorem unspecify_turns (offs : List Nat) (s : State) : (unspecify offs s).turns = s.turns := rfl
@[simp] theorem unspecify_busReads (offs : List Nat) (s : State) : (unspecify offs s).busReads = s.busReads := rfl

/-! ### finish -/

@[simp] theorem finish_params (e : ErrCode) (r : Word) (s : State) : (finish e r s).params = s.params := rfl
@[simp] theorem finish_ctrl (e : ErrCode) (r : Word) (s : State) : (finish e r s).ctrl = s.ctrl := rfl
@[simp] theorem finish_status_busy (e : ErrCode) (r : Word) (s : State) :
    (finish e r s).status.busy = false := rfl
@[simp] theorem finish_status_done (e : ErrCode) (r : Word) (s : State) :
    (finish e r s).status.done = true := rfl
@[simp] theorem finish_status_err (e : ErrCode) (r : Word) (s : State) :
    (finish e r s).status.err = (s.status.err || (e != .noError)) := rfl
@[simp] theorem finish_status_keyv (e : ErrCode) (r : Word) (s : State) :
    (finish e r s).status.keyv = s.status.keyv := rfl
@[simp] theorem finish_status_ovr (e : ErrCode) (r : Word) (s : State) :
    (finish e r s).status.ovr = s.status.ovr := rfl
@[simp] theorem finish_status_errcode (e : ErrCode) (r : Word) (s : State) :
    (finish e r s).status.errcode = e := rfl
@[simp] theorem finish_cmd (e : ErrCode) (r : Word) (s : State) : (finish e r s).cmd = s.cmd := rfl
@[simp] theorem finish_src (e : ErrCode) (r : Word) (s : State) : (finish e r s).src = s.src := rfl
@[simp] theorem finish_dst (e : ErrCode) (r : Word) (s : State) : (finish e r s).dst = s.dst := rfl
@[simp] theorem finish_len (e : ErrCode) (r : Word) (s : State) : (finish e r s).len = s.len := rfl
@[simp] theorem finish_param (e : ErrCode) (r : Word) (s : State) : (finish e r s).param = s.param := rfl
@[simp] theorem finish_dim (e : ErrCode) (r : Word) (s : State) : (finish e r s).dim = s.dim := rfl
@[simp] theorem finish_addrLo (e : ErrCode) (r : Word) (s : State) : (finish e r s).addrLo = s.addrLo := rfl
@[simp] theorem finish_addrHi (e : ErrCode) (r : Word) (s : State) : (finish e r s).addrHi = s.addrHi := rfl
@[simp] theorem finish_key8 (e : ErrCode) (r : Word) (s : State) : (finish e r s).key8 = s.key8 := rfl
@[simp] theorem finish_acc (e : ErrCode) (r : Word) (s : State) : (finish e r s).acc = s.acc := rfl
@[simp] theorem finish_result (e : ErrCode) (r : Word) (s : State) : (finish e r s).result = r := rfl
@[simp] theorem finish_lat (e : ErrCode) (r : Word) (s : State) : (finish e r s).lat = s.lat := rfl
@[simp] theorem finish_dec (e : ErrCode) (r : Word) (s : State) : (finish e r s).dec = Decoder.idle := rfl
@[simp] theorem finish_mem (e : ErrCode) (r : Word) (s : State) : (finish e r s).mem = s.mem := rfl
@[simp] theorem finish_touched (e : ErrCode) (r : Word) (s : State) : (finish e r s).touched = [] := rfl
@[simp] theorem finish_draw (e : ErrCode) (r : Word) (s : State) : (finish e r s).draw = s.draw := rfl
@[simp] theorem finish_turns (e : ErrCode) (r : Word) (s : State) : (finish e r s).turns = s.turns := rfl
@[simp] theorem finish_busReads (e : ErrCode) (r : Word) (s : State) : (finish e r s).busReads = s.busReads := rfl

/-! ### complete and raiseError are finish -/

@[simp] theorem complete_eq_finish (r : Word) (s : State) : complete r s = finish .noError r s := rfl

@[simp] theorem raiseError_eq_finish (e : ErrCode) (r : Word) (s : State) : raiseError e r s = finish e r s := rfl

end Sys2Proof.Machine
end

