-- ==== Sys2Proof/Laws/Memory.lean ====
section
/-! SUPPORT. What the LMEM operations do: read after write, writes elsewhere, and the canonical form, which every
operation keeps. -/

namespace Sys2Proof.Machine

/-! ### One byte -/

/-- Reading where a byte was just written gives that byte. -/
@[simp] theorem read_write_same (m : Memory) (a : Nat) (b : Byte) :
    Memory.read (Memory.write m a b) a = some b := by
  induction m with
  | nil => simp [Memory.write, Memory.read]
  | cons c rest ih =>
    obtain ⟨k, x⟩ := c
    simp only [Memory.write]
    split
    · simp [Memory.read]
    · split
      · simp [Memory.read]
      · next h1 h2 => simp [Memory.read, Ne.symm h2, ih]

/-- A write leaves the byte at every other offset alone. -/
theorem read_write_other (m : Memory) {a a' : Nat} (b : Byte) (h : a' ≠ a) :
    Memory.read (Memory.write m a b) a' = Memory.read m a' := by
  induction m with
  | nil => simp [Memory.write, Memory.read, Ne.symm h]
  | cons c rest ih =>
    obtain ⟨k, x⟩ := c
    simp only [Memory.write]
    split
    · simp [Memory.read, Ne.symm h]
    · split
      · next h1 h2 => subst h2; simp [Memory.read, Ne.symm h]
      · simp [Memory.read, ih]

/-- What a write lists: the written offset or one that was listed. -/
theorem mem_write (m : Memory) (a : Nat) (b : Byte) {c : Host.Cell} (h : c ∈ Memory.write m a b) :
    c = (a, b) ∨ c ∈ m := by
  induction m with
  | nil => simpa [Memory.write] using h
  | cons e rest ih =>
    obtain ⟨k, x⟩ := e
    simp only [Memory.write] at h
    split at h
    · simpa using h
    · split at h
      · rcases List.mem_cons.1 h with h | h
        · exact .inl h
        · exact .inr (List.mem_cons_of_mem _ h)
      · rcases List.mem_cons.1 h with h | h
        · exact .inr (h ▸ List.mem_cons_self ..)
        · exact (ih h).imp id (List.mem_cons_of_mem _)

/-- A write keeps the canonical form. -/
theorem write_wf {m : Memory} (a : Nat) (b : Byte) (h : Memory.wf m) : Memory.wf (Memory.write m a b) := by
  induction m with
  | nil => simp [Memory.write]
  | cons c rest ih =>
    obtain ⟨k, x⟩ := c
    obtain ⟨hk, hr⟩ := List.pairwise_cons.1 h
    simp only [Memory.write]
    split
    · next hlt =>
      refine List.pairwise_cons.2 ⟨fun y hy => ?_, h⟩
      rcases List.mem_cons.1 hy with rfl | hy
      · exact hlt
      · exact Nat.lt_trans hlt (hk y hy)
    · split
      · next _ heq =>
        exact List.pairwise_cons.2 ⟨fun y hy => heq ▸ hk y hy, hr⟩
      · next h1 h2 =>
        refine List.pairwise_cons.2 ⟨fun y hy => ?_, ih hr⟩
        rcases mem_write rest a b hy with rfl | hy
        · show k < a
          omega
        · exact hk y hy

/-- A write of an existing offset lists existing offsets only. -/
theorem write_bound {m : Memory} {a n : Nat} (b : Byte) (ha : a < n) (h : ∀ c ∈ m, c.1 < n) :
    ∀ c ∈ Memory.write m a b, c.1 < n := fun _ hc => by
  rcases mem_write m a b hc with rfl | hc
  · exact ha
  · exact h _ hc

/-! ### A list of bytes -/

/-- Reading after a list was written: the list's byte inside, the old byte outside. -/
theorem read_writeList (L : List Byte) (m : Memory) (d a : Nat) :
    Memory.read (Memory.writeList m d L) a =
      if d ≤ a ∧ a < d + L.length then some (L.getD (a - d) 0) else Memory.read m a := by
  induction L generalizing m d with
  | nil =>
    rw [if_neg (by simp)]
    rfl
  | cons b bs ih =>
    simp only [Memory.writeList, ih, List.length_cons]
    by_cases h1 : d + 1 ≤ a ∧ a < d + 1 + bs.length
    · obtain ⟨k, rfl⟩ : ∃ k, a = d + 1 + k := ⟨a - (d + 1), by omega⟩
      rw [if_pos h1, if_pos (by omega)]
      simp [show d + 1 + k - d = k + 1 by omega]
    · rw [if_neg h1]
      by_cases h2 : a = d
      · subst h2; simp
      · rw [read_write_other _ _ h2, if_neg (by omega)]

/-- Writing a list keeps the canonical form. -/
theorem writeList_wf (L : List Byte) {m : Memory} (d : Nat) (h : Memory.wf m) :
    Memory.wf (Memory.writeList m d L) := by
  induction L generalizing m d with
  | nil => exact h
  | cons b bs ih => exact ih (d + 1) (write_wf d b h)

/-- Writing a list inside LMEM lists existing offsets only. -/
theorem writeList_bound (L : List Byte) {m : Memory} {d n : Nat} (hd : d + L.length ≤ n) (h : ∀ c ∈ m, c.1 < n) :
    ∀ c ∈ Memory.writeList m d L, c.1 < n := by
  induction L generalizing m d with
  | nil => exact h
  | cons b bs ih =>
    simp only [List.length_cons] at hd
    exact ih (by omega) (write_bound b (by omega) h)

/-- Writing a concatenation is writing its parts one after the other. -/
theorem writeList_append (L M : List Byte) (m : Memory) (d : Nat) :
    Memory.writeList m d (L ++ M) = Memory.writeList (Memory.writeList m d L) (d + L.length) M := by
  induction L generalizing m d with
  | nil => rfl
  | cons b bs ih => simp [Memory.writeList, ih, Nat.add_assoc, Nat.add_comm 1]

/-! ### Unspecified bytes -/

/-- Drawing bytes leaves every offset that is not drawn alone. -/
theorem read_drawInto_other (offs : List Nat) (m : Memory) (n : Nat) {a : Nat} (h : a ∉ offs) :
    Memory.read (Memory.drawInto m n offs) a = Memory.read m a := by
  induction offs generalizing m n with
  | nil => rfl
  | cons x xs ih =>
    simp only [List.mem_cons, not_or] at h
    rw [Memory.drawInto, ih _ _ h.2, read_write_other _ _ h.1]

/-- A drawn offset holds a free value of a draw number that was not used before. -/
theorem read_drawInto_drawn (offs : List Nat) (m : Memory) (n : Nat) {a : Nat} (h : a ∈ offs) :
    ∃ k, n ≤ k ∧ k < n + offs.length ∧ Memory.read (Memory.drawInto m n offs) a = some (Config.freeByte k) := by
  induction offs generalizing m n with
  | nil => cases h
  | cons x xs ih =>
    by_cases hx : a ∈ xs
    · obtain ⟨k, h1, h2, h3⟩ := ih (Memory.write m x (Config.freeByte n)) (n + 1) hx
      exact ⟨k, by omega, by simp; omega, h3⟩
    · obtain rfl : a = x := by simpa [hx] using h
      exact ⟨n, le_rfl, by simp, by rw [Memory.drawInto, read_drawInto_other _ _ _ hx, read_write_same]⟩

/-- Drawing bytes keeps the canonical form. -/
theorem drawInto_wf (offs : List Nat) {m : Memory} (n : Nat) (h : Memory.wf m) :
    Memory.wf (Memory.drawInto m n offs) := by
  induction offs generalizing m n with
  | nil => exact h
  | cons x xs ih => exact ih (n + 1) (write_wf x _ h)

/-- Drawing existing bytes lists existing offsets only. -/
theorem drawInto_bound (offs : List Nat) {m : Memory} {k : Nat} (n : Nat) (ho : ∀ a ∈ offs, a < k)
    (h : ∀ c ∈ m, c.1 < k) : ∀ c ∈ Memory.drawInto m n offs, c.1 < k := by
  induction offs generalizing m n with
  | nil => exact h
  | cons x xs ih =>
    exact ih (n + 1) (fun a ha => ho a (List.mem_cons_of_mem _ ha))
      (write_bound _ (ho x (List.mem_cons_self ..)) h)

/-! ### The same through State -/

/-- readByte after memWrite. -/
theorem readByte_memWrite (d : Nat) (L : List Byte) (s : State) (a : Nat) :
    readByte (memWrite d L s) a =
      if d ≤ a ∧ a < d + L.length then L.getD (a - d) 0 else readByte s a := by
  simp only [readByte, memWrite_mem, read_writeList]
  split <;> rfl

/-- readByte after unspecify, outside. -/
theorem readByte_unspecify_other (offs : List Nat) (s : State) {a : Nat} (h : a ∉ offs) :
    readByte (unspecify offs s) a = readByte s a := by
  simp [readByte, read_drawInto_other _ _ _ h]

/-- readByte after unspecify, inside: a free value of a new draw number. -/
theorem readByte_unspecify_drawn (offs : List Nat) (s : State) {a : Nat} (h : a ∈ offs) :
    ∃ k, s.draw ≤ k ∧ readByte (unspecify offs s) a = Config.freeByte k := by
  obtain ⟨k, h1, _, h3⟩ := read_drawInto_drawn offs s.mem s.draw h
  exact ⟨k, h1, by simp [readByte, h3]⟩

/-- readByte depends on LMEM alone. -/
theorem readByte_congr {s t : State} (h : s.mem = t.mem) (a : Nat) : readByte s a = readByte t a := by
  simp [readByte, h]

/-- memRead depends on LMEM alone. -/
theorem memRead_congr {s t : State} (h : s.mem = t.mem) (a n : Nat) : memRead s a n = memRead t a n := by
  simp [memRead, readByte, h]

@[simp] theorem memRead_length (s : State) (a n : Nat) : (memRead s a n).length = n := by simp [memRead]

theorem memRead_getElem (s : State) (a n i : Nat) (h : i < (memRead s a n).length) :
    (memRead s a n)[i] = readByte s (a + i) := by simp [memRead]

/-- Reading two ranges that follow each other is reading the whole range. -/
theorem memRead_append (s : State) (a n k : Nat) :
    memRead s a (n + k) = memRead s a n ++ memRead s (a + n) k := by
  simp [memRead, List.range_add, Function.comp_def, Nat.add_assoc]

/-! ### The canonical form, through State -/

/-- LMEM at reset is in its canonical form. -/
theorem reset_mem_wf : Memory.wf State.reset.mem := List.Pairwise.nil

/-- memWrite keeps the canonical form. -/
theorem memWrite_wf (d : Nat) (L : List Byte) {s : State} (h : Memory.wf s.mem) : Memory.wf (memWrite d L s).mem :=
  writeList_wf L d h

/-- planeWrite keeps the canonical form. -/
theorem planeWrite_wf (p n : Nat) (P : List Pixel) {s : State} (h : Memory.wf s.mem) :
    Memory.wf (planeWrite p n P s).mem :=
  memWrite_wf p _ h

/-- unspecify keeps the canonical form. -/
theorem unspecify_wf (offs : List Nat) {s : State} (h : Memory.wf s.mem) : Memory.wf (unspecify offs s).mem :=
  drawInto_wf offs s.draw h

end Sys2Proof.Machine
end

