-- ==== Sys2Proof/Laws/Bytes.lean ====
section
/-! SUPPORT. Lengths and small facts of the byte lists that the commands build. -/

namespace Sys2Proof.Machine

@[simp] theorem beBytes_length (n v : Nat) : (beBytes n v).length = n := by simp [beBytes]

@[simp] theorem leBytes_length (n v : Nat) : (leBytes n v).length = n := by simp [leBytes]

@[simp] theorem xorBytes_length (k : Byte) (L : List Byte) : (xorBytes k L).length = L.length := by simp [xorBytes]

@[simp] theorem takePad_length {α : Type} (n : Nat) (x : α) (L : List α) : (takePad n x L).length = n := by
  simp [takePad]; omega

@[simp] theorem planeBytes_length (n : Nat) (P : List Pixel) : (planeBytes n P).length = n := by
  induction n generalizing P with
  | zero => rfl
  | succ n ih => simp [planeBytes, ih]

@[simp] theorem bytePixels_length (b : Byte) : (bytePixels b).length = 8 := by simp [bytePixels]

@[simp] theorem planeHeader_length (red : Bool) (w h len : Nat) :
    (planeHeader red w h len).length = Config.planeHeaderBytes := by
  simp [planeHeader, Config.planeHeaderBytes]

@[simp] theorem txnRaw_length (n : Nat) : (txnRaw n).length = 18 := by simp [txnRaw]

@[simp] theorem txnHeader_length (p : Params) (n : Nat) (k : Byte) :
    (txnHeader p n k).length = Config.txnHeaderBytes := by
  simp [txnHeader, txnPlain, Config.txnHeaderBytes]

@[simp] theorem chunk_length (pay : List Byte) (s : Nat) : (chunk pay s).length = 200 := by
  simp [chunk, Config.chunkBytes]

@[simp] theorem packetBody_length (pay : List Byte) (s : Nat) : (packetBody pay s).length = 202 := by
  simp [packetBody]

@[simp] theorem packet_length (p : Params) (pay : List Byte) (s : Nat) (k : Byte) :
    (packet p pay s k).length = Config.packetBytes := by
  simp [packet, Config.packetBytes]

@[simp] theorem literalValues_length (sb : Byte) : (literalValues sb).length = 7 := by simp [literalValues]

@[simp] theorem fieldPixels_length (p : BitVec 7) : (fieldPixels p).length = 7 := by simp [fieldPixels]

/-- xor_k of a concatenation. -/
theorem xorBytes_append (k : Byte) (L M : List Byte) : xorBytes k (L ++ M) = xorBytes k L ++ xorBytes k M := by
  simp [xorBytes]

/-- A run of the fold over a concatenation. -/
theorem ckFold_cons (p : Params) (acc : Half) (b : Byte) (L : List Byte) :
    ckFold p acc (b :: L) = ckFold p (ckStep p acc b) L := rfl

@[simp] theorem ckFold_nil (p : Params) (acc : Half) : ckFold p acc [] = acc := rfl

/-- An element of a padded list: the list's where it has one, else the padding. -/
theorem takePad_getD {α : Type} (n : Nat) (x : α) (L : List α) (i : Nat) (h : i < n) :
    (takePad n x L).getD i x = L.getD i x := by
  unfold takePad
  by_cases hi : i < L.length
  · have h1 : i < (L.take n).length := by simp; omega
    simp [List.getD_eq_getElem?_getD, List.getElem?_append_left h1, h]
  · have h1 : (L.take n).length ≤ i := by simp; omega
    rw [List.getD_eq_getElem?_getD, List.getElem?_append_right h1, List.getD_eq_getElem?_getD,
      List.getElem?_eq_none (by omega : L.length ≤ i)]
    cases hc : (List.replicate (n - L.length) x)[i - (L.take n).length]? with
    | none => rfl
    | some y =>
      obtain ⟨hlt, rfl⟩ := List.getElem?_eq_some_iff.1 hc
      simp

/-- PKT_STREAM's packets outside their range: LMEM is as before (R234). -/
theorem read_streamPackets_outside (p : Params) (pay : List Byte) (k : Byte) (d n : Nat) (m : Memory) {a : Nat}
    (h : ¬(d ≤ a ∧ a < d + Config.packetBytes * n)) :
    Memory.read (streamPackets p pay k d n m) a = Memory.read m a := by
  induction n with
  | zero => rfl
  | succ n ih =>
    simp only [Config.packetBytes] at *
    rw [streamPackets, read_writeList, if_neg, ih]
    · omega
    · simp only [packet_length, Config.packetBytes]; omega

/-- PKT_STREAM's packets inside their range: offset d + 204 × s holds the bytes of packet s + 1 (R234). -/
theorem read_streamPackets_inside (p : Params) (pay : List Byte) (k : Byte) (d n : Nat) (m : Memory) {s j : Nat}
    (hs : s < n) (hj : j < Config.packetBytes) :
    Memory.read (streamPackets p pay k d n m) (d + Config.packetBytes * s + j) =
      some ((packet p pay (s + 1) k).getD j 0) := by
  induction n with
  | zero => omega
  | succ n ih =>
    simp only [Config.packetBytes] at *
    rw [streamPackets, read_writeList]
    simp only [packet_length, Config.packetBytes]
    by_cases hsn : s = n
    · subst hsn
      rw [if_pos (by omega)]
      congr 2
      omega
    · rw [if_neg (by omega), ih (by omega)]

/-- PKT_STREAM keeps the canonical form. -/
theorem streamPackets_wf (p : Params) (pay : List Byte) (k : Byte) (d n : Nat) {m : Memory} (h : Memory.wf m) :
    Memory.wf (streamPackets p pay k d n m) := by
  induction n with
  | zero => exact h
  | succ n ih => exact writeList_wf _ _ ih

/-- PKT_STREAM inside LMEM lists existing offsets only. -/
theorem streamPackets_bound (p : Params) (pay : List Byte) (k : Byte) {d n size : Nat} {m : Memory}
    (hd : d + Config.packetBytes * n ≤ size) (h : ∀ c ∈ m, c.1 < size) :
    ∀ c ∈ streamPackets p pay k d n m, c.1 < size := by
  induction n with
  | zero => exact h
  | succ n ih =>
    simp only [Config.packetBytes] at *
    exact writeList_bound _ (by simp only [packet_length, Config.packetBytes]; omega) (ih (by omega))

end Sys2Proof.Machine
end

