-- ==== Sys2Proof/Laws/Operands.lean ====
section
/-! SUPPORT. Ranges, the common checks, and what `runCommand` can do, said once. -/

namespace Sys2Proof.Machine

/-- An offset of a range exists and lies in the range, and the other way round. -/
theorem mem_offsets {size : Nat} {r : Range} {a : Nat} :
    a ∈ r.offsets size ↔ (r.start ≤ a ∧ a < r.start + r.len ∧ a < size) := by
  simp only [Range.offsets, List.mem_map, List.mem_range]
  constructor
  · rintro ⟨i, hi, rfl⟩; omega
  · rintro ⟨h1, h2, h3⟩; exact ⟨a - r.start, by omega, by omega⟩

/-- An offset of an optional range. -/
theorem mem_rangeOffsets {size : Nat} {r : Option Range} {a : Nat} :
    a ∈ rangeOffsets size r ↔ (inRange r a = true ∧ a < size) := by
  cases r with
  | none => simp [rangeOffsets, inRange]
  | some r => simp [rangeOffsets, inRange, mem_offsets, Range.has, and_assoc]

/-- The first error is one of the failed checks. -/
theorem firstError_mem {cs : List (Bool × ErrCode)} {e : ErrCode} (h : firstError cs = some e) : (true, e) ∈ cs := by
  induction cs with
  | nil => cases h
  | cons c cs ih =>
    obtain ⟨b, e'⟩ := c
    cases b
    · exact List.mem_cons_of_mem _ (ih h)
    · obtain rfl : e' = e := by simpa [firstError] using h
      exact List.mem_cons_self ..

/-- No error is found exactly when no check fails. -/
theorem firstError_eq_none {cs : List (Bool × ErrCode)} : firstError cs = none ↔ ∀ c ∈ cs, c.1 = false := by
  induction cs with
  | nil => simp [firstError]
  | cons c cs ih =>
    obtain ⟨b, e⟩ := c
    cases b <;> simp [firstError, ih]

/-- The common checks never answer NONE. -/
theorem commonCheck_ne_noError (i : Instr) (s : State) : commonCheck i s ≠ some .noError := fun h => by
  simpa using firstError_mem h

/-- A command whose checks pass has valid ranges (R64, R133). -/
theorem commonCheck_none_ranges {i : Instr} {s : State} (h : commonCheck i s = none) :
    badRange s.params.lmemSize (inputRange i s.lat) = false ∧
      badRange s.params.lmemSize (outputRange i s.lat) = false := by
  have h' := firstError_eq_none.1 h
  exact ⟨h' (badRange s.params.lmemSize (inputRange i s.lat), .range) (List.mem_of_elem_eq_true (by simp)),
    h' (badRange s.params.lmemSize (outputRange i s.lat), .range) (List.mem_of_elem_eq_true (by simp))⟩

/-- A valid range, in numbers. -/
theorem badRange_some {size : Nat} {r : Range} : badRange size (some r) = false ↔ r.start + r.len ≤ size := by
  simp [badRange, Range.valid]

/-- What a command can do (R133, R134, R289): end unspecified where the host disturbed it, end with an error of the
common checks and RESULT 0, or have its own effect. -/
theorem runCommand_cases (i : Instr) (f : State → State) (s : State) :
    (s.touched ≠ [] ∧ runCommand i f s = finishDisturbed i s) ∨
    (s.touched = [] ∧ ∃ e, commonCheck i s = some e ∧ runCommand i f s = finish e 0 s) ∨
    (s.touched = [] ∧ commonCheck i s = none ∧ runCommand i f s = f s) := by
  by_cases ht : s.touched = []
  · cases hc : commonCheck i s with
    | none => exact .inr (.inr ⟨ht, rfl, by simp [runCommand, ht, hc]⟩)
    | some e => exact .inr (.inl ⟨ht, e, rfl, by simp [runCommand, ht, hc]⟩)
  · exact .inl ⟨ht, by simp [runCommand, ht]⟩

/-- A command that no host write disturbed and whose checks pass has its own effect. -/
theorem runCommand_effect {i : Instr} {f : State → State} {s : State} (ht : s.touched = [])
    (hc : commonCheck i s = none) : runCommand i f s = f s := by simp [runCommand, ht, hc]

/-- A disturbed command ends with NONE or with one of its codes (R289, R251). -/
theorem disturbedCode_mem (i : Instr) (n : Nat) : disturbedCode i n = .noError ∨ disturbedCode i n ∈ commandCodes i := by
  have hk : Config.freeIndex n % (commandCodes i).length.succ < (ErrCode.noError :: commandCodes i).length :=
    Nat.mod_lt _ (by simp)
  rw [disturbedCode, List.getD_eq_getElem _ _ hk]
  exact List.mem_cons.1 (List.getElem_mem hk)

/-- LMEM outside the output range and the written bytes survives a disturbed completion (R289). -/
theorem readByte_finishDisturbed (i : Instr) (s : State) {a : Nat} (h1 : inRange (outputRange i s.lat) a = false)
    (h2 : a ∉ s.touched) : readByte (finishDisturbed i s) a = readByte s a := by
  have : a ∉ rangeOffsets s.params.lmemSize (outputRange i s.lat) ++ s.touched := by
    simp [mem_rangeOffsets, h1, h2]
  rw [← readByte_unspecify_other _ s this]
  exact readByte_congr (by simp [finishDisturbed]) a

end Sys2Proof.Machine
end

