-- ==== Sys2Proof/Laws/Completion.lean ====
section
/-! SUPPORT. Completions and stores in the words of Safety.lean, which the claims use. -/

namespace Sys2Proof.Machine

/-- A completion without an error (R135). -/
theorem finish_noError (r : Word) (s : State) : finish .noError r s = endedWith (succeeded s.status) r s := by
  simp [finish, endedWith, succeeded]

/-- A completion with an error (R253). -/
theorem finish_error {e : ErrCode} (h : e ≠ .noError) (r : Word) (s : State) :
    finish e r s = endedWith (failed e s.status) r s := by
  simp [finish, endedWith, failed, h]

/-- An undisturbed command that fails a check changes RESULT and the completion fields only (R254). -/
theorem runCommand_error {i : Instr} {f : State → State} {s : State} {e : ErrCode} (ht : s.touched = [])
    (hc : commonCheck i s = some e) : runCommand i f s = endedWith (failed e s.status) 0 s := by
  rw [← finish_error (by rintro rfl; exact commonCheck_ne_noError _ _ hc)]
  simp [runCommand, ht, hc]

/-- A list written to LMEM is what reads show. -/
theorem stores_writeList (s : State) (d : Nat) (L : List Byte) :
    Stores s { s with mem := Memory.writeList s.mem d L } d L := fun a => by
  simpa [memWrite, setMem] using readByte_memWrite d L s a

/-- A range of unspecified bytes: free values inside, every other byte kept (R255). -/
theorem drawInto_keepsOutside (s : State) (r : Range) :
    KeepsOutside s { s with mem := Memory.drawInto s.mem s.draw (r.offsets s.params.lmemSize) } (some r) := by
  intro a ha
  simp only [inRange, Range.has, decide_eq_false_iff_not] at ha
  simp only [readByte]
  rw [read_drawInto_other]
  rw [mem_offsets]
  omega

end Sys2Proof.Machine
end

