-- ==== Sys2Proof/Laws/Exec.lean ====
section
/-! SUPPORT. What a command can do, said once: every command is `finish` of a state that differs from the old one only as
`EffectOn` says. The whole-machine claims follow from this without unfolding a meaning. -/

namespace Sys2Proof.Machine

/-! ### The arms -/

theorem exec_nop (s : State) : exec .nop s = .next (runCommand .nop (complete 0) s) := rfl
theorem exec_ckInit (s : State) : exec .ckInit s = .next (runCommand .ckInit ckInitEffect s) := rfl
theorem exec_ckByte (s : State) : exec .ckByte s = .next (runCommand .ckByte ckByteEffect s) := rfl
theorem exec_ckRun (s : State) : exec .ckRun s = .next (runCommand .ckRun ckRunEffect s) := rfl
theorem exec_ckCalc (s : State) : exec .ckCalc s = .next (runCommand .ckCalc ckCalcEffect s) := rfl
theorem exec_keyLoad (s : State) : exec .keyLoad s = .next (runCommand .keyLoad keyLoadEffect s) := rfl
theorem exec_keyClear (s : State) : exec .keyClear s = .next (runCommand .keyClear keyClearEffect s) := rfl
theorem exec_xorBlock (s : State) : exec .xorBlock s = .next (runCommand .xorBlock xorBlockEffect s) := rfl
theorem exec_phBuild (s : State) : exec .phBuild s = .next (runCommand .phBuild phBuildEffect s) := rfl
theorem exec_thBuild (s : State) : exec .thBuild s = .next (runCommand .thBuild thBuildEffect s) := rfl
theorem exec_rleEnc (s : State) : exec .rleEnc s = .next (runCommand .rleEnc rleEncEffect s) := rfl
theorem exec_rleDec (s : State) : exec .rleDec s = .next (runCommand .rleDec rleDecEffect s) := rfl
theorem exec_pktBuild (s : State) : exec .pktBuild s = .next (runCommand .pktBuild pktBuildEffect s) := rfl
theorem exec_pktStream (s : State) : exec .pktStream s = .next (runCommand .pktStream pktStreamEffect s) := rfl
theorem exec_rleLit (p : BitVec 7) (s : State) : exec (.rleLit p) s = .next (setDec (literalStep p s.dec) s) := rfl
theorem exec_rleRun3 (v : Pixel) (lo hi : Byte) (s : State) :
    exec (.rleRun3 v lo hi) s = .next (runTokenStep 3 v (lo.toNat + 256 * hi.toNat) s) := rfl
theorem exec_rleRun2 (v : Pixel) (n : Byte) (s : State) :
    exec (.rleRun2 v n) s = .next (runTokenStep 2 v n.toNat s) := rfl
theorem exec_rleRun1 (v x : Pixel) (r : BitVec 5) (s : State) :
    exec (.rleRun1 v x r) s = .next (runTokenStep 1 v r.toNat s) := rfl

/-- Every command is its own effect inside `runCommand` (R133, R134). -/
theorem exec_eq_runCommand (i : Instr) (hi : i.isCommand = true) :
    ∃ f : State → State, ∀ s, exec i s = .next (runCommand i f s) := by
  cases i with
  | nop => exact ⟨_, exec_nop⟩
  | ckInit => exact ⟨_, exec_ckInit⟩
  | ckByte => exact ⟨_, exec_ckByte⟩
  | ckRun => exact ⟨_, exec_ckRun⟩
  | ckCalc => exact ⟨_, exec_ckCalc⟩
  | keyLoad => exact ⟨_, exec_keyLoad⟩
  | keyClear => exact ⟨_, exec_keyClear⟩
  | xorBlock => exact ⟨_, exec_xorBlock⟩
  | phBuild => exact ⟨_, exec_phBuild⟩
  | thBuild => exact ⟨_, exec_thBuild⟩
  | rleEnc => exact ⟨_, exec_rleEnc⟩
  | rleDec => exact ⟨_, exec_rleDec⟩
  | pktBuild => exact ⟨_, exec_pktBuild⟩
  | pktStream => exact ⟨_, exec_pktStream⟩
  | rleLit _ => cases hi
  | rleRun3 _ _ _ => cases hi
  | rleRun2 _ _ => cases hi
  | rleRun1 _ _ _ => cases hi

/-! ### The decoder's codes -/

/-- The error codes of R207's loop. -/
theorem rleDecodeFrom_code {S : List Byte} {n fuel p : Nat} {out : List Pixel} {e : ErrCode} {off : Nat}
    (h : rleDecodeFrom S n fuel p out = .error (e, off)) :
    e ∈ [ErrCode.decTruncated, .decUnderrun, .decOverrun, .decTrailing] := by
  induction fuel generalizing p out with
  | zero => simp only [rleDecodeFrom, Except.error.injEq, Prod.mk.injEq] at h; simp [← h.1]
  | succ fuel ih =>
    simp only [rleDecodeFrom] at h
    split at h
    · split at h
      · simp only [Except.error.injEq, Prod.mk.injEq] at h; simp [← h.1]
      · cases h
    · split at h
      · simp only [Except.error.injEq, Prod.mk.injEq] at h; simp [← h.1]
      · split at h
        · exact ih h
        · split at h
          · simp only [Except.error.injEq, Prod.mk.injEq] at h; simp [← h.1]
          · split at h
            · simp only [Except.error.injEq, Prod.mk.injEq] at h; simp [← h.1]
            · exact ih h

/-! ### What a command changes before it completes -/

/-- The states before and after a command's own effect, less RESULT and the completion fields: which registers may differ
and which LMEM bytes may. -/
structure EffectOn (i : Instr) (s u : State) : Prop where
  params : u.params = s.params
  ctrl : u.ctrl = s.ctrl
  err : u.status.err = s.status.err
  ovr : u.status.ovr = s.status.ovr
  cmd : u.cmd = s.cmd
  src : u.src = s.src
  dst : u.dst = s.dst
  len : u.len = s.len
  param : u.param = s.param
  dim : u.dim = s.dim
  addrLo : u.addrLo = s.addrLo
  addrHi : u.addrHi = s.addrHi
  lat : u.lat = s.lat
  turns : u.turns = s.turns
  busReads : u.busReads = s.busReads
  draw : s.draw ≤ u.draw
  acc : writesAcc i = false → u.acc = s.acc
  key : i ≠ .keyLoad → i ≠ .keyClear → u.key8 = s.key8 ∧ u.status.keyv = s.status.keyv
  keyZero : (s.status.keyv = false → s.key8 = 0) → u.status.keyv = false → u.key8 = 0
  outside : ∀ a, inRange (outputRange i s.lat) a = false → a ∉ s.touched → readByte u a = readByte s a
  wf : Memory.wf s.mem → Memory.wf u.mem
  bound : (∀ a ∈ s.touched, a < s.params.lmemSize) → (∀ c ∈ s.mem, c.1 < s.params.lmemSize) →
    ∀ c ∈ u.mem, c.1 < s.params.lmemSize

/-- No effect at all. -/
theorem EffectOn.refl (i : Instr) (s : State) : EffectOn i s s where
  params := rfl
  ctrl := rfl
  err := rfl
  ovr := rfl
  cmd := rfl
  src := rfl
  dst := rfl
  len := rfl
  param := rfl
  dim := rfl
  addrLo := rfl
  addrHi := rfl
  lat := rfl
  turns := rfl
  busReads := rfl
  draw := le_rfl
  acc _ := rfl
  key _ _ := ⟨rfl, rfl⟩
  keyZero h := h
  outside _ _ _ := rfl
  wf h := h
  bound _ h := h

/-- A new ACC, where the command writes ACC. -/
theorem EffectOn.setAcc {i : Instr} {s u : State} (h : EffectOn i s u) (hw : writesAcc i = true) (x : Half) :
    EffectOn i s (setAcc x u) :=
  { h with acc := by simp [hw], key := h.key, keyZero := h.keyZero, outside := h.outside, wf := h.wf, bound := h.bound }

/-- A store inside the output range. -/
theorem EffectOn.memWrite {i : Instr} {s : State} {d : Nat} {L : List Byte} {n : Nat}
    (hr : outputRange i s.lat = some ⟨d, n⟩) (hn : L.length ≤ n) (hv : d + n ≤ s.params.lmemSize) :
    EffectOn i s (memWrite d L s) :=
  { EffectOn.refl i s with
    outside := fun a ha _ => by
      rw [readByte_memWrite, if_neg]
      simp only [hr, inRange, Range.has, decide_eq_false_iff_not] at ha
      omega
    wf := fun h => writeList_wf L d h
    bound := fun _ h => writeList_bound L (by omega) h }

/-- Unspecified bytes in the output range and where the host wrote. -/
theorem EffectOn.unspecify {i : Instr} {s : State} {offs : List Nat}
    (ho : ∀ a ∈ offs, (inRange (outputRange i s.lat) a = true ∧ a < s.params.lmemSize) ∨ a ∈ s.touched) :
    EffectOn i s (unspecify offs s) :=
  { EffectOn.refl i s with
    draw := by simp
    outside := fun a ha ht => readByte_unspecify_other offs s fun hm => by
      rcases ho a hm with h | h
      · simp [ha] at h
      · exact ht h
    wf := fun h => drawInto_wf offs _ h
    bound := fun ht h => drawInto_bound offs _ (fun a hm => (ho a hm).elim And.right (ht a)) h }

/-- More draws. -/
theorem EffectOn.setDraw {i : Instr} {s u : State} (h : EffectOn i s u) {n : Nat} (hn : s.draw ≤ n) :
    EffectOn i s (setDraw n u) :=
  { h with draw := hn, acc := h.acc, key := h.key, keyZero := h.keyZero, outside := h.outside, wf := h.wf,
           bound := h.bound }

/-- The same ACC. -/
theorem EffectOn.sameAcc {i : Instr} {s u : State} (h : EffectOn i s u) {x : Half}
    (hx : writesAcc i = false → x = u.acc) : EffectOn i s (Machine.setAcc x u) :=
  { h with acc := fun hw => (hx hw).trans (h.acc hw), key := h.key, keyZero := h.keyZero, outside := h.outside,
           wf := h.wf, bound := h.bound }

/-- What a disturbed completion changes (R289). -/
theorem finishDisturbed_form (i : Instr) (s : State) :
    ∃ e r u, finishDisturbed i s = finish e r u ∧ (e = .noError ∨ e ∈ commandCodes i) ∧ EffectOn i s u := by
  refine ⟨_, _, _, rfl, disturbedCode_mem i _, ?_⟩
  refine EffectOn.setDraw (EffectOn.sameAcc (EffectOn.unspecify fun a ha => ?_) fun hw => ?_) ?_
  · rcases List.mem_append.1 ha with h | h
    · exact .inl (mem_rangeOffsets.1 h)
    · exact .inr h
  · simp [disturbedAcc, hw]
  · simp; omega

/-- The codes of the checks are among the command's codes (R251). -/
theorem commonCheck_mem_codes {i : Instr} {s : State} {e : ErrCode} (h : commonCheck i s = some e) :
    e ∈ commandCodes i := by
  have hm := firstError_mem h
  cases i <;>
    simp [badParam, needsKey, locksKey, countsPackets, badSeq, inputRange, outputRange, badRange, badOverlap,
      commandCodes] at hm ⊢ <;> tauto

/-- A command that is its effect on `u`, in the three cases of `runCommand_cases`. -/
theorem runCommand_form {i : Instr} {f : State → State} {s : State}
    (hf : commonCheck i s = none → ∃ e r u, f s = finish e r u ∧ (e = .noError ∨ e ∈ commandCodes i) ∧ EffectOn i s u) :
    ∃ e r u, runCommand i f s = finish e r u ∧ (e = .noError ∨ e ∈ commandCodes i) ∧ EffectOn i s u := by
  rcases runCommand_cases i f s with ⟨_, h⟩ | ⟨_, e, he, h⟩ | ⟨_, hc, h⟩
  · rw [h]; exact finishDisturbed_form i s
  · exact ⟨e, 0, s, h, .inr (commonCheck_mem_codes he), EffectOn.refl i s⟩
  · rw [h]; exact hf hc

/-- The output range of a command that passed its checks is inside LMEM. -/
theorem output_valid {i : Instr} {s : State} (hc : commonCheck i s = none) {r : Range}
    (hr : outputRange i s.lat = some r) : r.start + r.len ≤ s.params.lmemSize :=
  badRange_some.1 (hr ▸ (commonCheck_none_ranges hc).2)

/-- Every command: a next state, which is a completion of a state that differs as `EffectOn` says (R133 to R136). -/
theorem exec_command_form (i : Instr) (hi : i.isCommand = true) (s : State) :
    ∃ e r u, exec i s = .next (finish e r u) ∧ (e = .noError ∨ e ∈ commandCodes i) ∧ EffectOn i s u := by
  have close : ∀ {f : State → State}, exec i s = .next (runCommand i f s) →
      (commonCheck i s = none → ∃ e r u, f s = finish e r u ∧ (e = .noError ∨ e ∈ commandCodes i) ∧ EffectOn i s u) →
      ∃ e r u, exec i s = .next (finish e r u) ∧ (e = .noError ∨ e ∈ commandCodes i) ∧ EffectOn i s u := by
    intro f hx hf
    obtain ⟨e, r, u, h, h'⟩ := runCommand_form hf
    exact ⟨e, r, u, hx.trans (congrArg _ h), h'⟩
  cases i with
  | nop => exact close (exec_nop s) fun _ => ⟨_, _, s, rfl, .inl rfl, EffectOn.refl _ s⟩
  | ckInit => exact close (exec_ckInit s) fun _ => ⟨_, _, _, rfl, .inl rfl, (EffectOn.refl _ s).setAcc rfl _⟩
  | ckByte => exact close (exec_ckByte s) fun _ => ⟨_, _, _, rfl, .inl rfl, (EffectOn.refl _ s).setAcc rfl _⟩
  | ckRun => exact close (exec_ckRun s) fun _ => ⟨_, _, _, rfl, .inl rfl, (EffectOn.refl _ s).setAcc rfl _⟩
  | ckCalc => exact close (exec_ckCalc s) fun _ => ⟨_, _, _, rfl, .inl rfl, (EffectOn.refl _ s).setAcc rfl _⟩
  | keyLoad =>
    refine close (exec_keyLoad s) fun _ => ⟨_, _, _, rfl, .inl rfl, ?_⟩
    exact { EffectOn.refl .keyLoad s with key := by simp, keyZero := fun _ h => by simp at h }
  | keyClear =>
    refine close (exec_keyClear s) fun _ => ⟨_, _, _, rfl, .inl rfl, ?_⟩
    exact { EffectOn.refl .keyClear s with key := by simp, keyZero := fun _ _ => rfl }
  | xorBlock =>
    refine close (exec_xorBlock s) fun hc => ⟨_, _, _, rfl, .inl rfl, ?_⟩
    exact EffectOn.memWrite rfl (by simp) (output_valid hc rfl)
  | phBuild =>
    refine close (exec_phBuild s) fun hc => ⟨_, _, _, rfl, .inl rfl, ?_⟩
    exact EffectOn.memWrite rfl (by simp) (output_valid hc rfl)
  | thBuild =>
    refine close (exec_thBuild s) fun hc => ⟨_, _, _, rfl, .inl rfl, ?_⟩
    exact (EffectOn.memWrite rfl (by simp) (output_valid hc rfl)).setAcc rfl _
  | rleEnc =>
    refine close (exec_rleEnc s) fun hc => ?_
    unfold rleEncEffect
    simp only
    split
    · exact ⟨_, _, _, rfl, .inr (by simp [commandCodes]), EffectOn.unspecify fun a ha => .inl (mem_rangeOffsets.1 ha)⟩
    · exact ⟨_, _, _, rfl, .inl rfl, EffectOn.memWrite rfl (by omega) (output_valid hc rfl)⟩
  | rleDec =>
    refine close (exec_rleDec s) fun hc => ?_
    unfold rleDecEffect
    split
    · next e off he =>
      refine ⟨_, _, _, rfl, .inr ?_, EffectOn.unspecify fun a ha => .inl (mem_rangeOffsets.1 ha)⟩
      have := rleDecodeFrom_code he
      simp only [List.mem_cons, List.not_mem_nil, or_false] at this
      rcases this with rfl | rfl | rfl | rfl <;> simp [commandCodes]
    · exact ⟨_, _, _, rfl, .inl rfl, EffectOn.memWrite rfl (by simp) (output_valid hc rfl)⟩
  | pktBuild =>
    refine close (exec_pktBuild s) fun hc => ⟨_, _, _, rfl, .inl rfl, ?_⟩
    exact (EffectOn.memWrite rfl (by simp) (output_valid hc rfl)).setAcc rfl _
  | pktStream =>
    refine close (exec_pktStream s) fun hc => ⟨_, _, _, rfl, .inl rfl, ?_⟩
    have hv := output_valid hc (r := ⟨opDst s.lat, Config.packetBytes * packetCount (opLen s.lat)⟩) rfl
    exact
      { EffectOn.refl .pktStream s with
        acc := by simp [writesAcc]
        outside := fun a ha _ => by
          simp only [outputRange, inRange, Range.has, decide_eq_false_iff_not] at ha
          simp [readByte, read_streamPackets_outside _ _ _ _ _ _ ha]
        wf := fun h => streamPackets_wf _ _ _ _ _ h
        bound := fun _ h => streamPackets_bound _ _ _ hv h }
  | rleLit p => cases hi
  | rleRun3 v lo hi' => cases hi
  | rleRun2 v n => cases hi
  | rleRun1 v x r => cases hi

end Sys2Proof.Machine
end

