-- ==== Sys2Proof/Laws/PerInstr.lean ====
section
/-! SUPPORT. Statements made of every instruction as syntax, one lemma per constructor: how many bytes its encoding has
(30_encoding.md R90, R94). -/

namespace Sys2Proof.Laws.EncodeLength

/-- The bytes of an instruction: 4 for a command word, 1, 3, 2 and 1 for the tokens. -/
def size : Instr → Nat
  | .nop | .ckInit | .ckByte | .ckRun | .ckCalc => 4
  | .keyLoad | .keyClear | .xorBlock | .phBuild | .thBuild => 4
  | .rleEnc | .rleDec | .pktBuild | .pktStream => 4
  | .rleLit _ => 1
  | .rleRun3 _ _ _ => 3
  | .rleRun2 _ _ => 2
  | .rleRun1 _ _ _ => 1

/-- The encoding of an instruction has as many bytes as R90 and R94 give it. -/
def Statement (i : Instr) : Prop := (encode i).length = size i

theorem nop : Statement .nop := rfl
theorem ckInit : Statement .ckInit := rfl
theorem ckByte : Statement .ckByte := rfl
theorem ckRun : Statement .ckRun := rfl
theorem ckCalc : Statement .ckCalc := rfl
theorem keyLoad : Statement .keyLoad := rfl
theorem keyClear : Statement .keyClear := rfl
theorem xorBlock : Statement .xorBlock := rfl
theorem phBuild : Statement .phBuild := rfl
theorem thBuild : Statement .thBuild := rfl
theorem rleEnc : Statement .rleEnc := rfl
theorem rleDec : Statement .rleDec := rfl
theorem pktBuild : Statement .pktBuild := rfl
theorem pktStream : Statement .pktStream := rfl
theorem rleLit (pixels : BitVec 7) : Statement (.rleLit pixels) := rfl
theorem rleRun3 (v : Pixel) (lo hi : Byte) : Statement (.rleRun3 v lo hi) := rfl
theorem rleRun2 (v : Pixel) (n : Byte) : Statement (.rleRun2 v n) := rfl
theorem rleRun1 (v x : Pixel) (r : BitVec 5) : Statement (.rleRun1 v x r) := rfl

end Sys2Proof.Laws.EncodeLength
end

