-- ==== Sys2Proof/Laws/Step.lean ====
section
/-! SUPPORT. What one step can do, said once: whose turn it is, and what the engine, the token walk and the host can do with
it. -/

namespace Sys2Proof.Machine

/-- Whose step it is (R76, R134, R137). -/
theorem step_cases (s : State) :
    (s.dec.active = true ∧ step s = decoderStep s) ∨
    (s.dec.active = false ∧ ∃ ts, step s = engineStep (setTurns ts s)) ∨
    (s.dec.active = false ∧ ∃ ts, step s = engineByTokenStep (setTurns ts s)) ∨
    (s.dec.active = false ∧ ∃ h ts, s.turns = .host h :: ts ∧ step s = hostStep h (setTurns ts s)) ∨
    (s.dec.active = false ∧ ∃ n ts, s.turns = .wait n :: ts ∧ step s = waitStep n ts s) := by
  cases ha : s.dec.active with
  | true => exact .inl ⟨rfl, by simp [step, ha]⟩
  | false =>
    refine .inr ?_
    cases ht : s.turns with
    | nil =>
      refine .inl ⟨rfl, [], ?_⟩
      have : setTurns [] s = s := by simp only [setTurns, ← ht]
      simp [step, ha, ht, this]
    | cons t ts =>
      cases t with
      | engine => exact .inl ⟨rfl, ts, by simp [step, ha, ht]⟩
      | engineByToken => exact .inr (.inl ⟨rfl, ts, by simp [step, ha, ht]⟩)
      | host h => exact .inr (.inr (.inl ⟨rfl, h, ts, rfl, by simp [step, ha, ht]⟩))
      | wait n => exact .inr (.inr (.inr ⟨rfl, n, ts, rfl, by simp [step, ha, ht]⟩))

/-- What the engine does with its turn (R130, R134, R141). -/
theorem engineStep_cases (s : State) :
    (s.status.busy = false ∧ engineStep s = .next s) ∨
    (s.status.busy = true ∧ ∃ e, decodeCommand s.lat.cmd = .error e ∧
      engineStep s = .next (finish .illegalCmd 0 s)) ∨
    (s.status.busy = true ∧ ∃ i, decodeCommand s.lat.cmd = .ok i ∧ engineStep s = exec i s) := by
  unfold engineStep
  cases s.status.busy with
  | false => exact .inl ⟨rfl, by simp⟩
  | true =>
    cases decodeCommand s.lat.cmd with
    | error e => exact .inr (.inl ⟨rfl, e, rfl, rfl⟩)
    | ok i => exact .inr (.inr ⟨rfl, i, rfl, rfl⟩)

/-- A decoded command word is a command, never a token (R91). -/
theorem decodeCommand_isCommand {w : Word} {i : Instr} (h : decodeCommand w = .ok i) : i.isCommand = true := by
  unfold decodeCommand at h
  split at h
  · cases h
  · split at h
    · next row hrow =>
      have hall : ∀ r ∈ opcodeMap, r.2.isCommand = true := by decide
      cases h
      exact hall _ (List.mem_of_find?_eq_some hrow)
    · cases h

/-- Every step of the engine is a next state: no command waits, faults or is refused (R136). -/
theorem engineStep_next (s : State) : ∃ t, engineStep s = .next t := by
  rcases engineStep_cases s with ⟨_, h⟩ | ⟨_, _, _, h⟩ | ⟨_, i, hi, h⟩
  · exact ⟨_, h⟩
  · exact ⟨_, h⟩
  · obtain ⟨e, r, u, hx, _⟩ := exec_command_form i (decodeCommand_isCommand hi) s
    exact ⟨_, h.trans hx⟩

/-! ### The token walk -/

/-- A token that is read from a stream is no command. -/
theorem decodeToken_cases {S : List Byte} {i : Instr} (h : decodeToken S = .ok i) :
    (∃ sb rest, S = sb :: rest ∧ i = .rleLit (sb.extractLsb' 0 7) ∧ sb &&& 0x80 = 0x80) ∨
    (∃ sb lo hi rest, S = sb :: lo :: hi :: rest ∧ i = .rleRun3 (sb.getLsbD 6) lo hi ∧
      ¬sb &&& 0x80 = 0x80 ∧ sb &&& 0xBF = 0x00) ∨
    (∃ sb n rest, S = sb :: n :: rest ∧ i = .rleRun2 (sb.getLsbD 6) n ∧
      ¬sb &&& 0x80 = 0x80 ∧ ¬sb &&& 0xBF = 0x00 ∧ sb &&& 0xBF = 0x01) ∨
    (∃ sb rest, S = sb :: rest ∧ i = .rleRun1 (sb.getLsbD 6) (sb.getLsbD 5) (sb.extractLsb' 0 5) ∧
      ¬sb &&& 0x80 = 0x80 ∧ ¬sb &&& 0xBF = 0x00 ∧ ¬sb &&& 0xBF = 0x01) := by
  cases S with
  | nil => cases h
  | cons sb rest =>
    simp only [decodeToken] at h
    split at h
    · next h1 => cases h; exact .inl ⟨sb, rest, rfl, rfl, h1⟩
    · next h1 =>
      split at h
      · next h2 =>
        split at h
        · cases h; exact .inr (.inl ⟨sb, _, _, _, rfl, rfl, h1, h2⟩)
        · cases h
      · next h2 =>
        split at h
        · next h3 =>
          split at h
          · cases h; exact .inr (.inr (.inl ⟨sb, _, _, rfl, rfl, h1, h2, h3⟩))
          · cases h
        · next h3 => cases h; exact .inr (.inr (.inr ⟨sb, rest, rfl, rfl, h1, h2, h3⟩))

/-- The decoder has moved on by one token (R214 to R217). -/
structure DecoderAdvance (d d' : Decoder) : Prop where
  active : d'.active = d.active
  stream : d'.stream = d.stream
  total : d'.total = d.total
  moved : d.pos < d'.pos
  inside : d'.pos ≤ d.stream.length
  room : d'.out.length ≤ d.total

/-- What a run token does. -/
theorem runTokenStep_cases (size : Nat) (v : Pixel) (r : Nat) (s : State) :
    (∃ e, (e = .decTruncated ∨ e = .decOverrun) ∧ runTokenStep size v r s = decodeFail e s.dec.pos s) ∨
    (s.dec.pos + size ≤ s.dec.stream.length ∧ s.dec.out.length + r ≤ s.dec.total ∧
      runTokenStep size v r s = setDec { s.dec with
        out := s.dec.out ++ List.replicate r v, pos := s.dec.pos + size } s) := by
  unfold runTokenStep runStep
  by_cases h1 : s.dec.stream.length < s.dec.pos + size
  · exact .inl ⟨.decTruncated, .inl rfl, by simp [h1]⟩
  · by_cases h2 : s.dec.total < s.dec.out.length + r
    · exact .inl ⟨.decOverrun, .inr rfl, by simp [h1, h2]⟩
    · exact .inr ⟨by omega, by omega, by simp [h1, h2]⟩

/-- What one pass of the token walk does (R207): end the command, or move on by one token. -/
theorem decoderStep_cases (s : State) :
    (∃ e, e ∈ [ErrCode.decTruncated, .decUnderrun, .decOverrun, .decTrailing] ∧
      decoderStep s = .next (decodeFail e s.dec.pos s)) ∨
    (s.dec.total ≤ s.dec.out.length ∧ decoderStep s = .next (decodeDone s.dec.out s)) ∨
    (∃ d, DecoderAdvance s.dec d ∧ decoderStep s = .next (setDec d s)) := by
  by_cases hn : s.dec.total ≤ s.dec.out.length
  · by_cases hp : s.dec.pos < s.dec.stream.length
    · exact .inl ⟨.decTrailing, by simp, by simp [decoderStep, hn, hp]⟩
    · exact .inr (.inl ⟨hn, by simp [decoderStep, hn, hp]⟩)
  · have run : ∀ (size : Nat) (v : Pixel) (r : Nat), 0 < size →
        decoderStep s = .next (runTokenStep size v r s) →
        (∃ e, e ∈ [ErrCode.decTruncated, .decUnderrun, .decOverrun, .decTrailing] ∧
          decoderStep s = .next (decodeFail e s.dec.pos s)) ∨
        (s.dec.total ≤ s.dec.out.length ∧ decoderStep s = .next (decodeDone s.dec.out s)) ∨
        (∃ d, DecoderAdvance s.dec d ∧ decoderStep s = .next (setDec d s)) := by
      intro size v r hs h
      rcases runTokenStep_cases size v r s with ⟨e, he, h'⟩ | ⟨h1, h2, h'⟩
      · exact .inl ⟨e, by rcases he with rfl | rfl <;> simp, h.trans (congrArg _ h')⟩
      · refine .inr (.inr ⟨_, ?_, h.trans (congrArg _ h')⟩)
        exact ⟨rfl, rfl, rfl, Nat.lt_add_of_pos_right hs, h1, by simpa using h2⟩
    cases hd : decodeToken (s.dec.stream.drop s.dec.pos) with
    | error e =>
      cases e with
      | emptyStream => exact .inl ⟨.decUnderrun, by simp, by simp [decoderStep, hn, hd]⟩
      | truncatedToken => exact .inl ⟨.decTruncated, by simp, by simp [decoderStep, hn, hd]⟩
    | ok i =>
      have hx : decoderStep s = exec i s := by simp [decoderStep, hn, hd]
      rcases decodeToken_cases hd with ⟨sb, rest, hS, rfl, _⟩ | ⟨sb, lo, hi, rest, hS, rfl, _⟩ |
        ⟨sb, n, rest, hS, rfl, _⟩ | ⟨sb, rest, hS, rfl, _⟩
      · refine .inr (.inr ⟨literalStep (sb.extractLsb' 0 7) s.dec, ⟨rfl, rfl, rfl, by simp [literalStep], ?_, ?_⟩, ?_⟩)
        · have := congrArg List.length hS
          simp at this
          simp [literalStep]; omega
        · simp [literalStep]; omega
        · rw [hx, exec_rleLit]
      · exact run 3 _ _ (by omega) (hx.trans (exec_rleRun3 _ _ _ s))
      · exact run 2 _ _ (by omega) (hx.trans (exec_rleRun2 _ _ s))
      · exact run 1 _ _ (by omega) (hx.trans (exec_rleRun1 _ _ _ s))

/-! ### The host -/

/-- What a host access does (R70, R73). -/
theorem hostStep_cases (h : HostAccess) (s : State) :
    (∃ e, hostStep h s = .fault (.busError e)) ∨
    (∃ v, hostStep h s = .next (answer v s)) ∨
    (∃ c a w, h = .write .b4 a w ∧ a.toNat = csrOffset c ∧ hostStep h s = .next (csrWrite c w s)) ∨
    (∃ w off x, off + widthBytes w ≤ s.params.lmemSize ∧ hostStep h s = .next (lmemWrite w off x s)) := by
  have target : ∀ {w a t}, busTarget s.params.lmemSize w a = .ok t →
      (∃ c, t = .csr c ∧ w = .b4 ∧ a.toNat = csrOffset c) ∨
      (∃ off, t = .lmem off ∧ off + widthBytes w ≤ s.params.lmemSize) := by
    intro w a t ht
    unfold busTarget at ht
    split at ht
    · split at ht
      · cases ht
      · next hw =>
        split at ht
        · cases ht
        · split at ht
          · next c hc =>
            cases ht
            have hoff := List.find?_some (p := fun c => csrOffset c == a.toNat) hc
            exact .inl ⟨c, rfl, Decidable.not_not.1 hw, (beq_iff_eq.1 hoff).symm⟩
          · cases ht
    · repeat' (split at ht; · cases ht)
      cases ht
      exact .inr ⟨_, rfl, by omega⟩
  cases h with
  | read w a =>
    cases hb : busTarget s.params.lmemSize w a with
    | error e => exact .inl ⟨e, by simp [hostStep, hb]⟩
    | ok t =>
      rcases target hb with ⟨c, rfl, _⟩ | ⟨off, rfl, _⟩
      · exact .inr (.inl ⟨csrRead c s, by simp only [hostStep, hb]⟩)
      · exact .inr (.inl ⟨lmemRead w off s, by simp only [hostStep, hb]⟩)
  | write w a x =>
    cases hb : busTarget s.params.lmemSize w a with
    | error e => exact .inl ⟨e, by simp [hostStep, hb]⟩
    | ok t =>
      rcases target hb with ⟨c, rfl, rfl, ha⟩ | ⟨off, rfl, ho⟩
      · exact .inr (.inr (.inl ⟨c, a, x, rfl, ha, by simp only [hostStep, hb]⟩))
      · exact .inr (.inr (.inr ⟨w, off, x, ho, by simp only [hostStep, hb]⟩))

/-- A read of a register is answered, whatever the register (R41, R71). -/
theorem hostStep_readCsr (c : Csr) (s : State) :
    hostStep (.read .b4 (csrAddress c)) s = .next (answer (csrRead c s) s) := by
  have h : busTarget s.params.lmemSize .b4 (csrAddress c) = .ok (.csr c) := by cases c <;> rfl
  simp [hostStep, h]

/-- A write of a register is taken, whatever the register (R43, R71). -/
theorem hostStep_writeCsr (c : Csr) (w : Word) (s : State) :
    hostStep (.write .b4 (csrAddress c) w) s = .next (csrWrite c w s) := by
  have h : busTarget s.params.lmemSize .b4 (csrAddress c) = .ok (.csr c) := by cases c <;> rfl
  simp [hostStep, h]

/-- BUSY is bit 0 of what a read of STATUS shows, also while a command runs (R24, R288). -/
theorem csrRead_status_busy (s : State) : (csrRead .status s).getLsbD 0 = s.status.busy := by
  simp [csrRead, statusWord, bitAt]

/-- What one poll of a `wait` does (R101): it answers STATUS to the host, and the wait goes on exactly while BUSY = 1. -/
theorem waitStep_eq (n : Nat) (ts : List Turn) (s : State) :
    waitStep n ts s =
      .next (answer (csrRead .status s) (setTurns (if s.status.busy then pollAgain n ts else ts) s)) := by
  rw [waitStep, hostStep_readCsr]
  rfl

end Sys2Proof.Machine
end

