-- ==== Sys2Proof/Tests/Slice0.lean ====
section
/-! SUPPORT. Tests of the model. Expected values come from spec/95_test_vectors.md or from the tables the comment names.
The witness_ theorems give, for every obligation that has hypotheses, a state and operands that meet them, clause by
clause. The chip's parameters are `Config.candidate` here (R6, R150), a value like any other. -/

open Sys2Proof Sys2Proof.Machine

/-! ### Well-formedness: the one check there is (30_encoding.md R94) -/

theorem test_wellFormed_refuses_run1_of_0 : (Instr.rleRun1 true false 0).wellFormed = false := by decide
theorem test_wellFormed_refuses_run1_of_1 : (Instr.rleRun1 false false 1).wellFormed = false := by decide
theorem test_wellFormed_accepts_run1_of_2 : (Instr.rleRun1 false false 2).wellFormed = true := by decide
theorem test_wellFormed_accepts_ignored_bit : (Instr.rleRun1 true true 0).wellFormed = true := by decide

/-! ### Decoding: a word for every constructor, written out from R91, R94 and R95 -/

theorem test_decode_nop : decodeTableWord 32 0x00000000 = some .nop := by decide
theorem test_decode_ckInit : decodeTableWord 32 0x00000001 = some .ckInit := by decide
theorem test_decode_ckByte : decodeTableWord 32 0x00000002 = some .ckByte := by decide
theorem test_decode_ckRun : decodeTableWord 32 0x00000003 = some .ckRun := by decide
theorem test_decode_ckCalc : decodeTableWord 32 0x00000004 = some .ckCalc := by decide
theorem test_decode_keyLoad : decodeTableWord 32 0x00000010 = some .keyLoad := by decide
theorem test_decode_keyClear : decodeTableWord 32 0x00000011 = some .keyClear := by decide
theorem test_decode_xorBlock : decodeTableWord 32 0x00000012 = some .xorBlock := by decide
theorem test_decode_phBuild : decodeTableWord 32 0x00000013 = some .phBuild := by decide
theorem test_decode_thBuild : decodeTableWord 32 0x00000014 = some .thBuild := by decide
theorem test_decode_rleEnc : decodeTableWord 32 0x00000020 = some .rleEnc := by decide
theorem test_decode_rleDec : decodeTableWord 32 0x00000021 = some .rleDec := by decide
theorem test_decode_pktBuild : decodeTableWord 32 0x00000030 = some .pktBuild := by decide
theorem test_decode_pktStream : decodeTableWord 32 0x00000031 = some .pktStream := by decide
theorem test_decode_rleLit : decodeTableWord 8 0b11011001 = some (.rleLit 0b1011001) := by decide
theorem test_decode_rleRun3 : decodeTableWord 24 0x123440 = some (.rleRun3 true 0x34 0x12) := by decide
theorem test_decode_rleRun2 : decodeTableWord 16 0xFF01 = some (.rleRun2 false 0xFF) := by decide
theorem test_decode_rleRun1 : decodeTableWord 8 0b01000111 = some (.rleRun1 true false 7) := by decide
theorem test_decode_rleRun1_ignored_bit : decodeTableWord 8 0b00100001 = some (.rleRun1 false true 1) := by decide
/-- A row whose operand bytes the table gives no bits: they are 0. -/
theorem test_decode_rleRun3_short : decodeTableWord 8 0x40 = some (.rleRun3 true 0 0) := by decide
/-- L2.7: 0x00000005 is unassigned, 0x00000110 has a reserved bit set. -/
theorem test_decode_illegal : decodeCommand 0x00000005 = .error .unassignedOpcode ∧
    decodeCommand 0x00000110 = .error .reservedBits ∧ decodeCommand 0xFFFFFFFF = .error .reservedBits := by decide
theorem test_decode_token_rejects : decodeToken [] = .error .emptyStream ∧
    decodeToken [0x00, 0x05] = .error .truncatedToken ∧ decodeToken [0x41] = .error .truncatedToken := by decide
theorem test_encode_words : encode .thBuild = [0x14, 0, 0, 0] ∧ encode (.rleRun3 true 0x34 0x12) = [0x40, 0x34, 0x12] ∧
    encode (.rleRun2 false 0xFF) = [0x01, 0xFF] ∧ encode (.rleLit 0b1011001) = [0xD9] ∧
    encode (.rleRun1 true false 17) = [0x51] := by decide

/-! ### Small states -/

/-- Reset, with the candidate parameters. -/
def tBase : State := { State.reset with params := Config.candidate }

/-- A running command: its word, its other operands and LMEM. -/
def tRun (w : Word) (l : Latch) (m : Memory) : State :=
  { tBase with status := { tBase.status with busy := true }, lat := { l with cmd := w }, mem := m }

/-- The same with a loaded key. -/
def tKey (k : Byte) (s : State) : State := { s with key8 := k, status := { s.status with keyv := true } }

/-- Operands: SRC, DST, LEN, PARAM, DIM. -/
def tOps (src dst len param : Word) (dim : BitVec 31) : Latch :=
  { Latch.zero with src := src, dst := dst, len := len, param := param, dim := dim }

/-- LMEM with some bytes from an offset on. -/
def tMem (a : Nat) (L : List Byte) : Memory := Memory.writeList [] a L

/-- The state after one step. -/
def tStep (s : State) : State :=
  match step s with
  | .next t => t
  | .fault _ => s
  | .refused _ => s

/-- Reset with one host access next. -/
def tHost (h : HostAccess) (m : Memory) : State := { tBase with turns := [.host h], mem := m }

/-- A running decode: stream, pixel count, output so far, cursor. -/
def tDec (S : List Byte) (n : Nat) (out : List Pixel) (p : Nat) : State :=
  { tRun 0x21 (tOps 0x10 0x20 (BitVec.ofNat 32 S.length) 0 (BitVec.ofNat 31 (n - 1))) [] with
    dec := { active := true, stream := S, total := n, out := out, pos := p } }

/-- ACC, RESULT and the STATUS word. -/
def tRegs (s : State) : Half × Word × Word := (s.acc, s.result, csrRead .status s)

/-- The bytes of "123456789". -/
def tDigits : List Byte := [0x31, 0x32, 0x33, 0x34, 0x35, 0x36, 0x37, 0x38, 0x39]

/-- An address in the host's map. -/
def tLmem (off : Nat) : BitVec 21 := lmemAddress off

/-! ### The commands (L2.2 to L2.7) -/

theorem test_nop : tRegs (tStep (tRun 0x00 Latch.zero [])) = (0xFFFF, 0, 0x00000002) := by decide
theorem test_illegal : tRegs (tStep (tRun 0x110 Latch.zero [])) = (0xFFFF, 0, 0x00000106) := by decide
theorem test_ckInit :
    tRegs (tStep { tRun 0x01 Latch.zero [] with acc := 0x1234 }) = (0xFFFF, 0x0000FFFF, 0x00000002) := by decide
theorem test_ckByte : tRegs (tStep (tRun 0x02 (tOps 0 0 0 0x31 0) [])) = (0xC782, 0x0000C782, 0x00000002) := by
  decide
theorem test_ckByte_badParam : tRegs (tStep (tRun 0x02 (tOps 0 0 0 0x100 0) [])) = (0xFFFF, 0, 0x00000206) := by decide
theorem test_ckRun_continues :
    tRegs (tStep { tRun 0x03 (tOps 4 0 5 0 0) (tMem 0 tDigits) with acc := 0x5349 }) =
      (0x29B1, 0x000029B1, 0x00000002) := by decide
theorem test_ckRun_range : tRegs (tStep (tRun 0x03 (tOps 0xFFFFFFFF 0 2 0 0) [])) = (0xFFFF, 0, 0x00000706) := by
  decide
theorem test_ckCalc : tRegs (tStep { tRun 0x04 (tOps 0 0 9 0 0) (tMem 0 tDigits) with acc := 7 }) =
    (0x29B1, 0x000029B1, 0x00000002) := by decide
theorem test_ckCalc_empty_at_end : tRegs (tStep { tRun 0x04 (tOps 0x100000 0 0 0 0) [] with acc := 7 }) =
    (0xFFFF, 0x0000FFFF, 0x00000002) := by decide
theorem test_keyLoad :
    (tStep (tRun 0x10 { Latch.zero with addrHi := 0x4400, addrLo := 0x00496156 } [])).key8 = 0x0B := by decide
theorem test_keyLoad_locked : tRegs (tStep (tKey 0x0B (tRun 0x10 Latch.zero []))) = (0xFFFF, 0, 0x0000040E) := by decide
theorem test_keyClear : keyWord (tStep (tKey 0x0B (tRun 0x11 Latch.zero []))) = 0 := by decide
theorem test_xorBlock :
    memRead (tStep (tKey 0x0B (tRun 0x12 (tOps 0 4 4 0 0) (tMem 0 [1, 2, 3, 4])))) 0 8 =
      [1, 2, 3, 4, 0x0A, 0x09, 0x08, 0x0F] := by decide
theorem test_xorBlock_overlap :
    tRegs (tStep (tKey 0x0B (tRun 0x12 (tOps 0 1 4 0 0) (tMem 0 [1, 2, 3, 4])))) = (0xFFFF, 0, 0x0000080E) := by decide
theorem test_phBuild_red : memRead (tStep (tRun 0x13 (tOps 0 0 0x1234 1 0x007900F9) [])) 0 13 =
    [0xFC, 0x80, 0, 0, 0, 0x80, 0x79, 0x00, 0xF9, 0, 0, 0x12, 0x34] := by decide
theorem test_phBuild_range : tRegs (tStep (tRun 0x13 (tOps 0 0xFFFF4 0 0 0) [])) = (0xFFFF, 0, 0x00000706) := by decide
theorem test_thBuild : memRead (tStep (tKey 0x0B (tRun 0x14 (tOps 0 0x100 36 0 0) []))) 0x100 20 =
    [0xF4, 0xF7, 0x6E, 0x6A, 0x78, 0x72, 0x5F, 0x6A, 0x6C, 0x62, 0x0B, 0x0B, 0x0B, 0x2F, 0x0B, 0x0A, 0x49, 0x5F, 0x6C,
      0xC7] := by decide +kernel
theorem test_thBuild_overflow :
    tRegs (tStep (tKey 0x0B (tRun 0x14 (tOps 0 0xFFFFFFF0 13107000 0 0) []))) = (0xFFFF, 0, 0x0000050E) := by decide
theorem test_rleEnc : memRead (tStep (tRun 0x20 (tOps 0 0x4D 5 0 0x0001000F) (tMem 0 [0xFF, 0xFF, 0xB2, 0x00]))) 0x4D 3 =
    [0x51, 0xB2, 0x08] := by decide +kernel
theorem test_rleEnc_overflow : tRegs (tStep (tRun 0x20 (tOps 0 8 4 0 0x0001000F) (tMem 0 [0x55, 0x55, 0x55, 0x55]))) =
    (0xFFFF, 5, 0x00000906) := by decide +kernel
theorem test_rleDec : memRead (tStep (tRun 0x21 (tOps 0x10 0x20 3 0 0x0001000F) (tMem 0x10 [0x51, 0xB2, 0x08]))) 0x20 4 =
    [0xFF, 0xFF, 0xB2, 0x00] := by decide +kernel
theorem test_rleDec_overrun :
    tRegs (tStep (tRun 0x21 (tOps 0x34 0x40 3 0 0x0001000F) (tMem 0x34 [0x51, 0xB2, 0x10]))) =
      (0xFFFF, 2, 0x00000C06) := by decide +kernel
theorem test_pktBuild :
    tRegs (tStep (tKey 0xFF (tRun 0x30 (tOps 0 0x100 1 1 0) (tMem 0 [0xAB])))) = (0x8546, 1, 0x0000000A) := by
  decide +kernel
theorem test_pktBuild_badSeq : tRegs (tStep (tKey 0 (tRun 0x30 (tOps 0 0x100 199 2 0) []))) = (0xFFFF, 0, 0x0000060E) := by
  decide
theorem test_pktStream :
    memRead (tStep (tKey 0x0B (tRun 0x31 (tOps 0 0xFFF34 0 0 0) []))) 0xFFFFA 6 =
      [0x0B, 0x0B, 0x0B, 0x0B, 0xCD, 0xC3] := by decide +kernel
theorem test_pktStream_range : tRegs (tStep (tKey 0x0B (tRun 0x31 (tOps 0 0xFFF35 0 0 0) []))) =
    (0xFFFF, 0, 0x0000070E) := by decide

/-! ### The tokens (L2.5) -/

theorem test_rleLit_dropped : (tStep (tDec [0xFF] 3 [] 0)).dec.out = [true, true, true] := by decide
theorem test_rleRun3_zero : (tStep (tDec [0x40, 0, 0, 0x47] 7 [] 0)).dec = { (tDec [0x40, 0, 0, 0x47] 7 [] 0).dec with
    pos := 3 } := by decide
theorem test_rleRun3_truncated : tRegs (tStep (tDec [0x00, 0x05] 5 [] 0)) = (0xFFFF, 0, 0x00000A06) := by decide
theorem test_rleRun2 : (tStep (tDec [0x41, 0x05] 5 [] 0)).dec.out = [true, true, true, true, true] := by decide
theorem test_rleRun2_truncated : tRegs (tStep (tDec [0x41] 3 [] 0)) = (0xFFFF, 0, 0x00000A06) := by decide
theorem test_rleRun1_ignored_bit : (tStep (tDec [0x25] 5 [] 0)).dec.out = [false, false, false, false, false] := by decide
theorem test_rleRun1_overrun : tRegs (tStep (tDec [0x47] 6 [] 0)) = (0xFFFF, 0, 0x00000C06) := by decide
theorem test_trailing : tRegs (tStep (tDec [0x47, 0x20] 7 (List.replicate 7 true) 1)) = (0xFFFF, 1, 0x00000D06) := by
  decide
theorem test_underrun : tRegs (tStep (tDec [0x47] 8 (List.replicate 7 true) 1)) = (0xFFFF, 1, 0x00000B06) := by decide

/-! ### The host (L2.7) -/

theorem test_bus_read4 : (tStep (tHost (.read .b4 (tLmem 0)) (tMem 0 tDigits))).busReads = [0x34333231] := by decide
theorem test_bus_read2 : (tStep (tHost (.read .b2 (tLmem 2)) (tMem 0 tDigits))).busReads = [0x3433] := by decide
theorem test_bus_write4 :
    memRead (tStep (tHost (.write .b4 (tLmem 4) 0xAABBCCDD) [])) 4 4 = [0xDD, 0xCC, 0xBB, 0xAA] := by decide
theorem test_bus_errors : ∀ h ∈ [(HostAccess.read .b2 (tLmem 1), BusError.lmemMisaligned),
    (.read .b4 (tLmem 2), .lmemMisaligned), (.read .b1 0x04, .csrWidth), (.read .b4 0x02, .csrMisaligned),
    (.read .b4 0x38, .csrReserved), (.read .b4 0x100, .unmapped)],
    (match step (tHost h.1 []) with
      | .fault e => decide (e = .busError h.2)
      | .next _ => false
      | .refused _ => false) = true := by decide
theorem test_bus_past_end : busTarget 0x100 .b1 (tLmem 0x100) = .error .unmapped ∧
    busTarget 0x101 .b2 (tLmem 0x100) = .error .lmemPastEnd ∧ busTarget 0x101 .b1 (tLmem 0x100) = .ok (.lmem 0x100) := by
  decide
theorem test_csr_dim : csrRead .dim (tStep (tHost (writeReg .dim 0xFFFFFFFF) [])) = 0x7FFFFFFF := by decide
theorem test_csr_ctrl : csrRead .ctrl (tStep (tHost (writeReg .ctrl 0x7FFFFFFF) [])) = 0x00000003 := by decide
theorem test_csr_id : csrRead .id (tStep (tHost (writeReg .id 0) [])) = 0x45544147 := by decide
/-- STATUS = 0x0000041E, then a write of ones. -/
theorem test_csr_status : csrRead .status (tStep { tHost (writeReg .status 0xFFFFFFFF) [] with
    status := { busy := false, done := true, err := true, keyv := true, ovr := true, errcode := .keyLocked } }) =
      0x00000408 := by decide
theorem test_cmd_dropped : (tStep { tRun 0x00 Latch.zero [] with turns := [.host (writeReg .cmd 1)] }).cmd = 0 ∧
    (tStep { tRun 0x00 Latch.zero [] with turns := [.host (writeReg .cmd 1)] }).status.ovr = true := by decide
theorem test_softReset_keeps_lmem :
    readByte (tStep (tHost (writeReg .ctrl 0x80000003) (tMem 0 [0xAA]))) 0 = 0xAA := by decide
theorem test_irq_masked : irq (tStep { tRun 0x00 Latch.zero [] with ctrl := { ieDone := false, ieErr := true } }) = false ∧
    irq (tStep { tRun 0x05 Latch.zero [] with ctrl := { ieDone := false, ieErr := true } }) = true := by decide
/-- A host write into the running command's range marks it (R289); one outside does not. -/
theorem test_touched : (tStep { tRun 0x04 (tOps 0 0 9 0 0) [] with
      turns := [.host (.write .b1 (tLmem 8) 0)] }).touched = [8] ∧
    (tStep { tRun 0x04 (tOps 0 0 9 0 0) [] with turns := [.host (.write .b1 (tLmem 9) 0)] }).touched = [] := by decide
/-- L1 S2 and the worked expansions of R102. -/
theorem test_setaddr : expand (.setaddr 0x44 0x00 0x00 0x49 0x61 0x56) =
    [.host (.write .b4 0x24 0x00004400), .host (.write .b4 0x20 0x00496156)] := by decide
theorem test_setdim : expand (.setdim 16 2) = [.host (.write .b4 0x1C 0x0001000F)] := by decide
theorem test_setdim_largest : expand (.setdim 65536 32768) = [.host (.write .b4 0x1C 0x7FFFFFFF)] := by decide
/-- R292 and R293: the header and its delay, then packets 1 and 2 with theirs. -/
theorem test_sendPlan : sendPlan { blockBase := 0, settleDelay := 7, packetDelay := 3 } 0x40 0x100 2 =
    [⟨⟨0x40, 20⟩, 7⟩, ⟨⟨0x100, 204⟩, 3⟩, ⟨⟨0x1CC, 204⟩, 3⟩] := by decide
/-- R298 step 5 by PKT_BUILD: a payload of 200 bytes has two packets (R230), numbered from 1. -/
theorem test_packetLines : packetLines .build 0x10 200 0x200 0 =
    [.run .pktBuild [(.src, 0x10), (.dst, 0x200), (.len, 200), (.param, 1)] 0,
     .run .pktBuild [(.src, 0x10), (.dst, 0x2CC), (.len, 200), (.param, 2)] 0] := by decide
/-- R101: a poll that reads BUSY = 0 is the last; one that reads BUSY = 1 is not. -/
theorem test_wait_ends : (tStep { tBase with turns := [.wait 5, .engine] }).turns = [.engine] ∧
    (tStep { tBase with turns := [.wait 5, .engine] }).busReads = [0] := by decide
theorem test_wait_goes_on : (tStep { tRun 0 Latch.zero [] with turns := [.wait 1] }).turns = [.wait 0] ∧
    (tStep { tRun 0 Latch.zero [] with turns := [.wait 0] }).turns = [.engine, .wait 0] := by decide

/-! ### Witnesses: states and operands that meet the hypotheses of the obligations -/

/-- A plane codec or packet command at the edges of its ranges: see the witnesses. -/
def tEdge (w : Word) (src dst len param : Word) (dim : BitVec 31) : State := tRun w (tOps src dst len param dim) []

theorem witness_DecodeInvertsEncode : (Instr.rleRun1 true false 2).wellFormed = true ∧
    Instr.thBuild.wellFormed = true := by decide
theorem witness_DecodedTokenIsFrontOfStream : decodeToken [0x02, 0xFF] = .ok (.rleRun1 false false 2) := by decide
theorem witness_IdleEngineStartsNothing :
    State.reset.dec.active = false ∧ State.reset.status.busy = false ∧ State.reset.turns = [] := by decide
theorem witness_StepRunsLatchedCommand :
    (tRun 0x04 Latch.zero []).dec.active = false ∧ (tRun 0x04 Latch.zero []).status.busy = true ∧
    decodeCommand (tRun 0x04 Latch.zero []).lat.cmd = .ok .ckCalc ∧ (tRun 0x04 Latch.zero []).turns = [] ∧
    { tRun 0x04 Latch.zero [] with turns := [.engine] }.turns = .engine :: [] := by decide
theorem witness_StepRunsTokenAtCursor : (tDec [0x47] 7 [] 0).dec.active = true ∧
    (tDec [0x47] 7 [] 0).dec.out.length < (tDec [0x47] 7 [] 0).dec.total ∧
    decodeToken ((tDec [0x47] 7 [] 0).dec.stream.drop (tDec [0x47] 7 [] 0).dec.pos) = .ok (.rleRun1 true false 7) := by
  decide
theorem witness_PlacedWordRunsNext : decodeTableWord 32 0x31 = some .pktStream ∧
    decodeTableWord 24 0xFFFF40 = some (.rleRun3 true 0xFF 0xFF) ∧ 24 ≤ 24 := by decide
theorem witness_IllegalWordCompletes :
    (tRun 0x100 Latch.zero []).dec.active = false ∧ (tRun 0x100 Latch.zero []).turns = [] ∧
    (tRun 0x100 Latch.zero []).status.busy = true ∧
    decodeCommand (tRun 0x100 Latch.zero []).lat.cmd = .error .reservedBits := by decide
theorem witness_UncheckedCommandsComplete : (tRun 0x00 Latch.zero []).touched = [] := by decide
theorem witness_CkByteStepsAcc_byte :
    (tEdge 0x02 0 0 0 0xFF 0).touched = [] ∧ (tEdge 0x02 0 0 0 0xFF 0).lat.param.toNat < 256 := by decide
theorem witness_CkByteStepsAcc_badParam :
    (tEdge 0x02 0 0 0 0x100 0).touched = [] ∧ 256 ≤ (tEdge 0x02 0 0 0 0x100 0).lat.param.toNat := by decide
theorem witness_RangeChecksumsComplete_valid :
    let s := tEdge 0x03 0x100000 0 0 0 0
    s.touched = [] ∧ (Instr.ckRun, s.acc) ∈ [(Instr.ckRun, s.acc), (.ckCalc, 0xFFFF)] ∧
      s.lat.src.toNat + s.lat.len.toNat ≤ s.params.lmemSize := by decide
theorem witness_RangeChecksumsComplete_range :
    let s := tEdge 0x04 0x100000 0 1 0 0
    s.touched = [] ∧ (Instr.ckCalc, (0xFFFF : Half)) ∈ [(Instr.ckRun, s.acc), (.ckCalc, 0xFFFF)] ∧
      s.params.lmemSize < s.lat.src.toNat + s.lat.len.toNat := by decide
theorem witness_KeyLoadDerivesKey : (tRun 0x10 Latch.zero []).touched = [] ∧
    (tRun 0x10 Latch.zero []).status.keyv = false ∧ (tKey 1 (tRun 0x10 Latch.zero [])).touched = [] ∧
    (tKey 1 (tRun 0x10 Latch.zero [])).status.keyv = true := by decide
/-- Input and output touch at the last byte of LMEM but do not overlap. -/
theorem witness_XorBlockObfuscates :
    let s := tKey 1 (tEdge 0x12 0xFFFF0 0xFFFF8 8 0 0)
    s.touched = [] ∧ s.status.keyv = true ∧ s.lat.src.toNat + s.lat.len.toNat ≤ s.params.lmemSize ∧
      s.lat.dst.toNat + s.lat.len.toNat ≤ s.params.lmemSize ∧
      s.lat.src.toNat + s.lat.len.toNat ≤ s.lat.dst.toNat := by decide
/-- The other three ways to pass the overlap check. -/
theorem witness_XorBlockObfuscates_forms :
    (tEdge 0x12 0 0 0 0 0).lat.len = 0 ∧ (tEdge 0x12 4 4 4 0 0).lat.src = (tEdge 0x12 4 4 4 0 0).lat.dst ∧
    (tEdge 0x12 4 0 4 0 0).lat.dst.toNat + (tEdge 0x12 4 0 4 0 0).lat.len.toNat ≤
      (tEdge 0x12 4 0 4 0 0).lat.src.toNat := by decide
theorem witness_XorBlockErrors_noKey :
    (tEdge 0x12 0 0 0 0 0).touched = [] ∧ (tEdge 0x12 0 0 0 0 0).status.keyv = false := by decide
theorem witness_XorBlockErrors_range :
    let s := tKey 1 (tEdge 0x12 0 0xFFFFD 4 0 0)
    s.touched = [] ∧ s.status.keyv = true ∧ s.params.lmemSize < s.lat.dst.toNat + s.lat.len.toNat := by decide
theorem witness_XorBlockErrors_overlap :
    let s := tKey 1 (tEdge 0x12 0 3 4 0 0)
    s.touched = [] ∧ s.status.keyv = true ∧ s.lat.src.toNat + s.lat.len.toNat ≤ s.params.lmemSize ∧
      s.lat.dst.toNat + s.lat.len.toNat ≤ s.params.lmemSize ∧ s.lat.src ≠ s.lat.dst ∧
      s.lat.dst.toNat < s.lat.src.toNat + s.lat.len.toNat ∧ s.lat.src.toNat < s.lat.dst.toNat + s.lat.len.toNat := by
  decide
theorem witness_PhBuildWritesHeader :
    let s := tEdge 0x13 0 0xFFFF3 0 1 0
    s.touched = [] ∧ s.lat.param.toNat < 2 ∧ s.lat.dst.toNat + 13 ≤ s.params.lmemSize := by decide
theorem witness_PhBuildWritesHeader_badParam :
    (tEdge 0x13 0 0 0 2 0).touched = [] ∧ 2 ≤ (tEdge 0x13 0 0 0 2 0).lat.param.toNat := by decide
theorem witness_PhBuildWritesHeader_range :
    let s := tEdge 0x13 0 0xFFFF4 0 1 0
    s.touched = [] ∧ s.lat.param.toNat < 2 ∧ s.params.lmemSize < s.lat.dst.toNat + 13 := by decide
theorem witness_ThBuildWritesHeader :
    let s := tKey 1 (tEdge 0x14 0 0xFFFEC 13106999 0 0)
    s.touched = [] ∧ s.status.keyv = true ∧ s.lat.len.toNat < 13107000 ∧
      s.lat.dst.toNat + 20 ≤ s.params.lmemSize := by decide
theorem witness_ThBuildErrors_noKey :
    (tEdge 0x14 0 0 0 0 0).touched = [] ∧ (tEdge 0x14 0 0 0 0 0).status.keyv = false := by decide
theorem witness_ThBuildErrors_count :
    let s := tKey 1 (tEdge 0x14 0 0 13107000 0 0)
    s.touched = [] ∧ s.status.keyv = true ∧ 13107000 ≤ s.lat.len.toNat := by decide
theorem witness_ThBuildErrors_range :
    let s := tKey 1 (tEdge 0x14 0 0xFFFED 13106999 0 0)
    s.touched = [] ∧ s.status.keyv = true ∧ s.lat.len.toNat < 13107000 ∧
      s.params.lmemSize < s.lat.dst.toNat + 20 := by decide
/-- The plane of one pixel at LMEM 0 with room for its one byte of stream right after it. -/
def tEncOne : State := tRun 0x20 (tOps 0 1 1 0 0) (tMem 0 [0x80])
theorem witness_RleEncWritesStream : tEncOne.touched = [] ∧
    tEncOne.lat.src.toNat + planeSize (opPixels tEncOne.lat) ≤ tEncOne.params.lmemSize ∧
    tEncOne.lat.dst.toNat + tEncOne.lat.len.toNat ≤ tEncOne.params.lmemSize ∧
    tEncOne.lat.src.toNat + planeSize (opPixels tEncOne.lat) ≤ tEncOne.lat.dst.toNat ∧
    [0xC0] = rleEncode (planeRead tEncOne tEncOne.lat.src.toNat (opPixels tEncOne.lat)) ∧
    [(0xC0 : Byte)].length ≤ tEncOne.lat.len.toNat := by decide
/-- The 16 × 2 plane of L2.5 that needs 5 bytes, with a capacity of 4. -/
def tEncFour : State := tRun 0x20 (tOps 0 4 4 0 0x0001000F) (tMem 0 [0x55, 0x55, 0x55, 0x55])
theorem witness_RleEncWritesStream_overflow : tEncFour.touched = [] ∧
    tEncFour.lat.src.toNat + planeSize (opPixels tEncFour.lat) ≤ tEncFour.params.lmemSize ∧
    tEncFour.lat.dst.toNat + tEncFour.lat.len.toNat ≤ tEncFour.params.lmemSize ∧
    tEncFour.lat.src.toNat + planeSize (opPixels tEncFour.lat) ≤ tEncFour.lat.dst.toNat ∧
    [0xAA, 0xD5, 0xAA, 0xD5, 0xA8] = rleEncode (planeRead tEncFour tEncFour.lat.src.toNat (opPixels tEncFour.lat)) ∧
    tEncFour.lat.len.toNat < [(0xAA : Byte), 0xD5, 0xAA, 0xD5, 0xA8].length := by decide +kernel
/-- One literal for a plane of one pixel, the plane at the last byte of LMEM. -/
def tDecOne (S : List Byte) : State := tRun 0x21 (tOps 0 0xFFFFF (BitVec.ofNat 32 S.length) 0 0) (tMem 0 S)
theorem witness_RleDecWritesPlane : (tDecOne [0xC0]).touched = [] ∧
    (tDecOne [0xC0]).lat.src.toNat + (tDecOne [0xC0]).lat.len.toNat ≤ (tDecOne [0xC0]).params.lmemSize ∧
    (tDecOne [0xC0]).lat.dst.toNat + planeSize (opPixels (tDecOne [0xC0]).lat) ≤ (tDecOne [0xC0]).params.lmemSize ∧
    (tDecOne [0xC0]).lat.src.toNat + (tDecOne [0xC0]).lat.len.toNat ≤ (tDecOne [0xC0]).lat.dst.toNat ∧
    (rleDecode (memRead (tDecOne [0xC0]) 0 1) (opPixels (tDecOne [0xC0]).lat)).toOption = some [true] := by decide
theorem witness_RleDecWritesPlane_error : (tDecOne [0x42]).touched = [] ∧
    (tDecOne [0x42]).lat.src.toNat + (tDecOne [0x42]).lat.len.toNat ≤ (tDecOne [0x42]).params.lmemSize ∧
    (tDecOne [0x42]).lat.dst.toNat + planeSize (opPixels (tDecOne [0x42]).lat) ≤ (tDecOne [0x42]).params.lmemSize ∧
    (tDecOne [0x42]).lat.src.toNat + (tDecOne [0x42]).lat.len.toNat ≤ (tDecOne [0x42]).lat.dst.toNat ∧
    rleDecode (memRead (tDecOne [0x42]) 0 1) (opPixels (tDecOne [0x42]).lat) = .error (.decOverrun, 0) := by decide
theorem witness_PlaneCodecErrors_range :
    let s := tEdge 0x20 0x100000 0 0 0 0
    s.touched = [] ∧ s.params.lmemSize < s.lat.src.toNat + planeSize (opPixels s.lat) ∧
      s.params.lmemSize < (tEdge 0x21 0x100000 0 1 0 0).lat.src.toNat + (tEdge 0x21 0x100000 0 1 0 0).lat.len.toNat := by
  decide
theorem witness_PlaneCodecErrors_overlap :
    let s := tEdge 0x20 3 0 4 0 0
    let t := tEdge 0x21 0 3 4 0 0
    (s.lat.src.toNat + planeSize (opPixels s.lat) ≤ s.params.lmemSize ∧
      s.lat.dst.toNat + s.lat.len.toNat ≤ s.params.lmemSize ∧ s.lat.len ≠ 0 ∧
      s.lat.src.toNat < s.lat.dst.toNat + s.lat.len.toNat ∧
      s.lat.dst.toNat < s.lat.src.toNat + planeSize (opPixels s.lat)) ∧
    (t.lat.src.toNat + t.lat.len.toNat ≤ t.params.lmemSize ∧
      t.lat.dst.toNat + planeSize (opPixels t.lat) ≤ t.params.lmemSize ∧ t.lat.len ≠ 0 ∧
      t.lat.src.toNat < t.lat.dst.toNat + planeSize (opPixels t.lat) ∧
      t.lat.dst.toNat < t.lat.src.toNat + t.lat.len.toNat) := by decide
theorem witness_PktBuildWritesPacket :
    let s := tKey 1 (tEdge 0x30 0 0xFFF34 200 2 0)
    s.touched = [] ∧ s.status.keyv = true ∧ s.lat.param.toNat = 2 ∧ 1 ≤ 2 ∧ 2 ≤ s.lat.len.toNat / 200 + 1 ∧
      s.lat.len.toNat < 13107000 ∧ s.lat.src.toNat + s.lat.len.toNat ≤ s.params.lmemSize ∧
      s.lat.dst.toNat + 204 ≤ s.params.lmemSize ∧ s.lat.src.toNat + s.lat.len.toNat ≤ s.lat.dst.toNat := by decide
/-- One state for each of the six errors, in the order of the checks. -/
theorem witness_PktBuildErrorOrder :
    0x10000 ≤ (tEdge 0x30 0 0 0 0x10000 0).lat.param.toNat ∧ (tEdge 0x30 0 0 0 1 0).status.keyv = false ∧
    0xFFFF < (tKey 1 (tEdge 0x30 0 0 13107000 1 0)).lat.len.toNat / 200 + 1 ∧
    (tKey 1 (tEdge 0x30 0 0 199 2 0)).lat.len.toNat / 200 + 1 <
      (tKey 1 (tEdge 0x30 0 0 199 2 0)).lat.param.toNat ∧
    (tKey 1 (tEdge 0x30 0 0xFFF35 0 1 0)).params.lmemSize < (tKey 1 (tEdge 0x30 0 0xFFF35 0 1 0)).lat.dst.toNat + 204 ∧
    (tKey 1 (tEdge 0x30 203 0 1 1 0)).lat.src.toNat < (tKey 1 (tEdge 0x30 203 0 1 1 0)).lat.dst.toNat + 204 ∧
    (tKey 1 (tEdge 0x30 203 0 1 1 0)).touched = [] := by decide
theorem witness_PktStreamWritesPackets :
    let s := tKey 1 (tEdge 0x31 0 0xFFE68 200 0 0)
    s.touched = [] ∧ s.status.keyv = true ∧ 2 = s.lat.len.toNat / 200 + 1 ∧ s.lat.len.toNat < 13107000 ∧
      s.lat.src.toNat + s.lat.len.toNat ≤ s.params.lmemSize ∧ s.lat.dst.toNat + 204 * 2 ≤ s.params.lmemSize ∧
      s.lat.src.toNat + s.lat.len.toNat ≤ s.lat.dst.toNat := by decide
theorem witness_PktStreamErrorOrder :
    (tEdge 0x31 0 0 0 0 0).status.keyv = false ∧
    0xFFFF < (tKey 1 (tEdge 0x31 0 0 13107000 0 0)).lat.len.toNat / 200 + 1 ∧
    (tKey 1 (tEdge 0x31 0x100000 0 1 0 0)).params.lmemSize <
      (tKey 1 (tEdge 0x31 0x100000 0 1 0 0)).lat.src.toNat + (tKey 1 (tEdge 0x31 0x100000 0 1 0 0)).lat.len.toNat ∧
    (tKey 1 (tEdge 0x31 0 0xFFF35 0 0 0)).params.lmemSize < (tKey 1 (tEdge 0x31 0 0xFFF35 0 0 0)).lat.dst.toNat + 204 ∧
    (tKey 1 (tEdge 0x31 0 16 32 0 0)).lat.dst.toNat <
      (tKey 1 (tEdge 0x31 0 16 32 0 0)).lat.src.toNat + (tKey 1 (tEdge 0x31 0 16 32 0 0)).lat.len.toNat ∧
    (tKey 1 (tEdge 0x31 0 16 32 0 0)).touched = [] := by decide
/-- A 3-byte run that fills the plane with the last byte of the stream, a 2-byte one and a 1-byte one. -/
theorem witness_RunTokensAppend :
    (tDec [0x40, 7, 0] 7 [] 0).dec.pos + 3 ≤ (tDec [0x40, 7, 0] 7 [] 0).dec.stream.length ∧
    (tDec [0x40, 7, 0] 7 [] 0).dec.out.length + ((7 : Byte).toNat + 256 * (0 : Byte).toNat) ≤
      (tDec [0x40, 7, 0] 7 [] 0).dec.total ∧
    (tDec [0x41, 0] 7 [] 0).dec.pos + 2 ≤ (tDec [0x41, 0] 7 [] 0).dec.stream.length ∧
    (tDec [0x5F] 31 [] 0).dec.pos + 1 ≤ (tDec [0x5F] 31 [] 0).dec.stream.length ∧
    (tDec [0x5F] 31 [] 0).dec.out.length + (31 : BitVec 5).toNat ≤ (tDec [0x5F] 31 [] 0).dec.total := by decide
theorem witness_RunTokensFail :
    (tDec [0x40, 7] 7 [] 0).dec.stream.length < (tDec [0x40, 7] 7 [] 0).dec.pos + 3 ∧
    (tDec [0x41] 7 [] 0).dec.stream.length < (tDec [0x41] 7 [] 0).dec.pos + 2 ∧
    (tDec [0x47] 6 [] 0).dec.pos + 1 ≤ (tDec [0x47] 6 [] 0).dec.stream.length ∧
    (tDec [0x47] 6 [] 0).dec.total < (tDec [0x47] 6 [] 0).dec.out.length + (7 : BitVec 5).toNat ∧
    0 < planeSize (opPixels (tDec [0x47] 6 [] 0).lat) ∧
    (tDec [0x47] 6 [] 0).lat.dst.toNat + 0 < (tDec [0x47] 6 [] 0).params.lmemSize := by decide
theorem witness_TokenWalkEqualsOneStep :
    let s := { tRun 0x21 (tOps 0x10 0x20 3 0 0x0001000F) (tMem 0x10 [0x51, 0xB2, 0x08]) with turns := [.engineByToken] }
    s.dec.active = false ∧ s.status.busy = true ∧ s.touched = [] ∧ decodeCommand s.lat.cmd = .ok .rleDec ∧
      commonCheck .rleDec s = none ∧ s.turns = .engineByToken :: [] := by decide
theorem witness_EveryCommandCompletes : Instr.pktStream.isCommand = true ∧ Instr.nop.isCommand = true := by decide
theorem witness_CommandsKeepOperandRegisters :
    Instr.nop.isCommand = true ∧ ∃ t, exec .nop (tRun 0 Latch.zero []) = .next t := ⟨rfl, _, rfl⟩
theorem witness_CommandsKeepAccAndMemory :
    Instr.xorBlock.isCommand = true ∧ (∃ t, exec .xorBlock (tKey 1 (tEdge 0x12 0 4 4 0 0)) = .next t) ∧
      Instr.xorBlock ∉ [Instr.ckInit, .ckByte, .ckRun, .ckCalc, .thBuild, .pktBuild, .pktStream] ∧
      inRange (outputRange .xorBlock (tEdge 0x12 0 4 4 0 0).lat) 3 = false ∧
      inRange (outputRange .xorBlock (tEdge 0x12 0 4 4 0 0).lat) 8 = false ∧
      3 ∉ (tKey 1 (tEdge 0x12 0 4 4 0 0)).touched := ⟨rfl, ⟨_, rfl⟩, by decide, by decide, by decide, by decide⟩
theorem witness_CheckErrorsArePrecise_illegal : (tRun 0x100 Latch.zero []).status.busy = true ∧
    decodeCommand (tRun 0x100 Latch.zero []).lat.cmd = .error .reservedBits := by decide
theorem witness_CheckErrorsArePrecise : Instr.xorBlock.isCommand = true ∧ (tEdge 0x12 0 0 0 0 0).touched = [] ∧
    commonCheck .xorBlock (tEdge 0x12 0 0 0 0 0) = some .noKey := by decide
theorem witness_KeyChangesOnlyByItsCommands :
    ∃ t, step (tRun 0x10 Latch.zero []) = .next t ∧ t.key8 ≠ (tRun 0x10 Latch.zero []).key8 := ⟨_, rfl, by decide⟩
theorem witness_ParametersNeverChange : ∃ t, step (tRun 0x10 Latch.zero []) = .next t := ⟨_, rfl⟩
/-- In the middle of a decode, with a listed LMEM byte. -/
theorem witness_StepKeepsInv : Invariant { tDec [0x47, 0x80] 8 [] 0 with mem := tMem 0xFFFFF [1] } ∧
    ∃ t, step { tDec [0x47, 0x80] 8 [] 0 with mem := tMem 0xFFFFF [1] } = .next t :=
  ⟨⟨⟨by decide, by decide⟩, fun _ => rfl, ⟨fun _ => rfl, by decide⟩, by unfold DecoderOk; decide⟩, _, rfl⟩
/-- A host write disturbed the output range's first byte and a byte outside it. -/
theorem witness_DisturbedCommandCompletes :
    let s := { tKey 1 (tEdge 0x12 0 4 4 0 0) with touched := [4, 0] }
    Instr.xorBlock.isCommand = true ∧ s.touched ≠ [] ∧ writesAcc .xorBlock = false ∧
      inRange (outputRange .xorBlock s.lat) 3 = false ∧ 3 ∉ s.touched ∧ 7 < s.params.lmemSize ∧
      inRange (outputRange .xorBlock s.lat) 7 = true ∧ 0 ∈ s.touched := by decide
theorem witness_OperandWritesDoNotReachCommand : Instr.xorBlock.isCommand = true ∧
    (∃ t, exec .xorBlock (tKey 1 (tEdge 0x12 0 4 4 0 0)) = .next t) ∧
    Csr.addrHi ∈ [Csr.src, .dst, .len, .param, .dim, .addrLo, .addrHi] := ⟨rfl, ⟨_, rfl⟩, by decide⟩
theorem witness_ObfuscationLaws : 0 < [(1 : Byte)].length ∧ [(1 : Byte), 2].Perm [2, 1] := by decide
theorem witness_HeaderByteNineQuirk_plain : (1 : Half) = BitVec.ofNat 16 ((36 : Word).toNat / 200 + 1) := by decide
theorem witness_HeaderByteNineQuirk : 0 < 20 ∧ 0 ≠ 9 ∧ 19 < 20 ∧ 19 ≠ 9 := by decide
/-- A plane of nine pixels has two bytes, seven padding bits and neighbours on both sides. -/
theorem witness_PlaneLayout : 8 < 9 ∧ [true, false, true, true, false, false, true, true, true].length = 9 ∧
    (9 ≤ 9 ∧ 9 < 8 * ((9 + 7) / 8)) ∧ 15 < 8 * ((9 + 7) / 8) ∧ ¬(1 ≤ 0 ∧ 0 < 1 + (9 + 7) / 8) ∧
    ¬(1 ≤ 3 ∧ 3 < 1 + (9 + 7) / 8) := by decide
theorem witness_EncodedLengthBound : 1 ≤ [true].length ∧ tEncOne.touched = [] ∧ commonCheck .rleEnc tEncOne = none ∧
    (opPixels tEncOne.lat + 6) / 7 ≤ tEncOne.lat.len.toNat := by decide
theorem witness_RleRoundTrip : 1 ≤ [true].length := by decide
/-- Runs of 6, 7, 31, 32 and 255 pixels before a pixel of the other value, and one of 256 that ends the plane. -/
theorem witness_EncoderEmitsCanonicalTokens :
    (∀ r ∈ [6, 7, 31, 32, 255], 1 ≤ r ∧ r ≤ (List.replicate r true ++ [false]).length ∧ r ≤ 0xFFFF ∧
      (∀ j < r, (List.replicate r true ++ [false])[j]? = some true) ∧
      (List.replicate r true ++ [false])[r]? = some (!true)) ∧
    256 = (List.replicate 256 false).length ∧ ∀ j < 256, (List.replicate 256 false)[j]? = some false := by
  decide +kernel
theorem witness_DecoderAnswers : (rleDecode [0x07] 7).toOption = some (List.replicate 7 false) ∧
    rleDecode [] 1 = .error (.decUnderrun, 0) ∧ rleDecode [0x47, 0x20] 7 = .error (.decTrailing, 1) ∧
    rleDecode [0x41] 3 = .error (.decTruncated, 0) ∧ rleDecode [0x47] 6 = .error (.decOverrun, 0) := by decide
theorem witness_PacketsCarryPayload : 1 = ([] : List Byte).length / 200 + 1 ∧ 1 ≤ 0xFFFF := by decide
theorem witness_CmdWriteAcceptedOrDropped :
    (tHost (.write .b4 0x08 3) []).dec.active = false ∧
    (tHost (.write .b4 0x08 3) []).turns = .host (.write .b4 0x08 3) :: [] ∧
    (tHost (.write .b4 0x08 3) []).status.busy = false ∧
    { tRun 0 Latch.zero [] with turns := [.host (.write .b4 0x08 3)] }.status.busy = true ∧
    { tRun 0 Latch.zero [] with turns := [.host (.write .b4 0x08 3)] }.dec.active = false := by decide
theorem witness_StatusWriteOneToClear : (tHost (.write .b4 0x04 0x16) []).dec.active = false ∧
    (tHost (.write .b4 0x04 0x16) []).turns = .host (.write .b4 0x04 0x16) :: [] := by decide
theorem witness_ReadOnlyWritesIgnored : (tHost (.write .b4 0x34 1) []).dec.active = false ∧
    (0x34 : BitVec 21) ∈ [(0x28 : BitVec 21), 0x2C, 0x30, 0x34] ∧
    (tHost (.write .b4 0x34 1) []).turns = .host (.write .b4 0x34 1) :: [] := by decide
theorem witness_OperandRegistersReadBack : Csr.addrLo ∈ [Csr.src, .dst, .len, .param, .addrLo] ∧
    (tHost (.read .b4 0x34) []).dec.active = false ∧
    (tHost (.read .b4 0x34) []).turns = .host (.read .b4 (csrAddress .id)) :: [] ∧
    (tHost (.write .b4 0x24 7) []).dec.active = false ∧
    (tHost (.write .b4 0x24 7) []).turns = .host (.write .b4 0x24 7) :: [] := by decide
/-- An idle block that has every STATUS bit set and the last of the codes. -/
theorem witness_OperandRegistersReadBack_idle :
    let s := { tHost (.read .b4 (csrAddress .status)) [] with
      status := { busy := false, done := true, err := true, keyv := true, ovr := true, errcode := .decTrailing } }
    s.dec.active = false ∧ s.status.busy = false ∧ s.status.errcode = .decTrailing ∧
      s.turns = .host (.read .b4 (csrAddress .status)) :: [] ∧ csrRead .status s = 0x00000D1E := by decide
theorem witness_SoftResetRestores_idle : (tHost (.write .b4 0x00 0x80000000) []).dec.active = false ∧
    (tHost (.write .b4 0x00 0x80000000) []).turns = .host (.write .b4 0x00 0x80000000) :: [] ∧
    (0x80000000 : Word).getLsbD 31 = true ∧ (tHost (.write .b4 0x00 0x80000000) []).status.busy = false := by decide
theorem witness_SoftResetRestores_running :
    let s := { tEdge 0x12 0 4 4 0 0 with turns := [.host (.write .b4 0x00 0xFFFFFFFF)] }
    s.dec.active = false ∧ (0xFFFFFFFF : Word).getLsbD 31 = true ∧ inRange (runningOutput s) 7 = true ∧
      inRange (runningOutput s) 8 = false ∧ 7 < s.params.lmemSize := by decide
theorem witness_ReadsWhileBusy :
    let s := { tEdge 0x12 0 4 4 0 0 with turns := [.host (.read .b4 (csrAddress .result))] }
    let t := { tEdge 0x12 0 2 2 0 0 with turns := [.host (.read .b4 (lmemAddress 0))] }
    s.dec.active = false ∧ s.status.busy = true ∧ s.turns = .host (.read .b4 (csrAddress .result)) :: [] ∧
      t.dec.active = false ∧ t.status.busy = true ∧ t.turns = .host (.read .b4 (lmemAddress 0)) :: [] ∧
      0 % widthBytes .b4 = 0 ∧ 0 + widthBytes .b4 ≤ t.params.lmemSize ∧
      inRange (runningOutput t) 3 = true ∧ inRange (runningOutput t) 1 = false := by decide
theorem witness_LmemLanes :
    let s := tHost (.read .b4 (lmemAddress 0xFFFFC)) []
    let t := { tEdge 0x12 0 2 2 0 0 with turns := [.host (.write .b2 (lmemAddress 2) 7)] }
    s.dec.active = false ∧ s.status.busy = false ∧ 0xFFFFC % widthBytes .b4 = 0 ∧
      0xFFFFC + widthBytes .b4 ≤ s.params.lmemSize ∧ s.turns = .host (.read .b4 (lmemAddress 0xFFFFC)) :: [] ∧
      3 < widthBytes .b4 ∧ t.dec.active = false ∧ 2 % widthBytes .b2 = 0 ∧ 2 + widthBytes .b2 ≤ t.params.lmemSize ∧
      t.turns = .host (.write .b2 (lmemAddress 2) 7) :: [] ∧ disturbedOffsets t 2 (widthBytes .b2) = [2, 3] := by decide
/-- An access that is a bus error and one that is none. -/
theorem witness_BusErrorsExactly :
    let r : BitVec 21 := 0x38
    let d : BitVec 21 := 0x34
    (tHost (.read .b4 r) []).dec.active = false ∧ HostAccess.read .b4 r ∈ [HostAccess.read .b4 r, .write .b4 r 0] ∧
      (tHost (.read .b4 r) []).turns = .host (.read .b4 r) :: [] ∧
      (tHost (.write .b4 d 0) []).turns = .host (.write .b4 d 0) :: [] ∧ d.toNat ≤ 0x34 ∧ ¬r.toNat ≤ 0x34 := by decide
theorem witness_InterruptLine : Instr.nop.isCommand = true ∧ (∃ t, exec .nop (tRun 0 Latch.zero []) = .next t) ∧
    (0x06 : Word).getLsbD 1 = true ∧ (0x06 : Word).getLsbD 2 = true ∧
    (tHost (.write .b4 0x00 0x7FFFFFFF) []).dec.active = false ∧
    (tHost (.write .b4 0x00 0x7FFFFFFF) []).turns = .host (.write .b4 0x00 0x7FFFFFFF) :: [] ∧
    (0x7FFFFFFF : Word).getLsbD 31 = false :=
  ⟨rfl, ⟨_, rfl⟩, by decide, by decide, by decide, by decide, by decide⟩
theorem witness_WaitPollsUntilIdle :
    ∀ s ∈ [{ tRun 0x04 Latch.zero [] with turns := [Turn.wait 2] }, { tBase with turns := [.wait 2] }],
      s.dec.active = false ∧ s.turns = .wait 2 :: [] := by decide
end

/-! ### The parameters of the chip under every step -/

section
namespace Sys2Proof.Machine

/-- The engine's start of the token walk, or the engine's ordinary step (R207). -/
theorem engineByTokenStep_cases (s : State) :
    engineByTokenStep s = .next (startDecoder s) ∨ engineByTokenStep s = engineStep s := by
  unfold engineByTokenStep
  split
  · exact .inl rfl
  · exact .inr rfl

/-! #### The host's accesses -/

@[simp] theorem answer_params (v : Word) (s : State) : (answer v s).params = s.params := rfl

@[simp] theorem lmemWrite_params (w : Width) (off : Nat) (x : Word) (s : State) :
    (lmemWrite w off x s).params = s.params := rfl

/-- A command word is accepted or dropped; neither reaches the parameters (R131, R132). -/
@[simp] theorem writeCmd_params (w : Word) (s : State) : (writeCmd w s).params = s.params := by
  unfold writeCmd
  split <;> rfl

/-- A soft reset takes the registers back to their reset values, and the parameters are none of them (R283). -/
@[simp] theorem writeCtrl_params (w : Word) (s : State) : (writeCtrl w s).params = s.params := by
  unfold writeCtrl
  split <;> rfl

/-- No register of the block gives the host a way to the parameters. -/
@[simp] theorem csrWrite_params (c : Csr) (w : Word) (s : State) : (csrWrite c w s).params = s.params := by
  cases c with
  | ctrl => exact writeCtrl_params w s
  | cmd => exact writeCmd_params w s
  | _ => rfl

theorem hostStep_params {h : HostAccess} {s t : State} (ht : hostStep h s = .next t) : t.params = s.params := by
  rcases hostStep_cases h s with ⟨e, hx⟩ | ⟨v, hx⟩ | ⟨c, a, w, _, _, hx⟩ | ⟨w, off, x, _, hx⟩
  · cases hx.symm.trans ht
  · cases hx.symm.trans ht; exact answer_params v s
  · cases hx.symm.trans ht; exact csrWrite_params c w s
  · cases hx.symm.trans ht; exact lmemWrite_params w off x s

/-- A poll is a host read, on a state whose schedule alone has moved on (R101). -/
theorem waitStep_params {n : Nat} {ts : List Turn} {s t : State} (ht : waitStep n ts s = .next t) :
    t.params = s.params :=
  (hostStep_params ht).trans (setTurns_params _ s)

/-! #### The engine and its token walk -/

theorem engineStep_params {s t : State} (ht : engineStep s = .next t) : t.params = s.params := by
  rcases engineStep_cases s with ⟨_, hx⟩ | ⟨_, _, _, hx⟩ | ⟨_, i, hi, hx⟩
  · cases hx.symm.trans ht; rfl
  · cases hx.symm.trans ht; exact finish_params _ _ s
  · obtain ⟨e, r, u, hu, _, heff⟩ := exec_command_form i (decodeCommand_isCommand hi) s
    cases (hx.trans hu).symm.trans ht
    exact (finish_params e r u).trans heff.params

theorem engineByTokenStep_params {s t : State} (ht : engineByTokenStep s = .next t) : t.params = s.params := by
  rcases engineByTokenStep_cases s with hx | hx
  · cases hx.symm.trans ht; exact setDec_params _ s
  · exact engineStep_params (hx.symm.trans ht)

theorem decoderStep_params {s t : State} (ht : decoderStep s = .next t) : t.params = s.params := by
  rcases decoderStep_cases s with ⟨e, _, hx⟩ | ⟨_, hx⟩ | ⟨d, _, hx⟩
  · cases hx.symm.trans ht; simp [decodeFail]
  · cases hx.symm.trans ht; simp [decodeDone, planeWrite]
  · cases hx.symm.trans ht; exact setDec_params d s

/-! #### The claim -/

/-- Settles O37: whoever's turn it is, `step_cases` hands the step to the token walk, the engine or the host, and each of
them keeps the parameters. -/
theorem parametersNeverChange : Obligations.ParametersNeverChange := by
  intro s t ht
  rcases step_cases s with ⟨_, hx⟩ | ⟨_, ts, hx⟩ | ⟨_, ts, hx⟩ | ⟨_, h, ts, _, hx⟩ | ⟨_, n, ts, _, hx⟩
  · exact decoderStep_params (hx.symm.trans ht)
  · exact (engineStep_params (hx.symm.trans ht)).trans (setTurns_params ts s)
  · exact (engineByTokenStep_params (hx.symm.trans ht)).trans (setTurns_params ts s)
  · exact (hostStep_params (hx.symm.trans ht)).trans (setTurns_params ts s)
  · exact waitStep_params (hx.symm.trans ht)

end Sys2Proof.Machine
end

/-! ### The invariant under every step -/

section
namespace Sys2Proof.Machine

/-! #### Its parts, on the states that differ from each other as the operations do -/

/-- A state whose LMEM and key are sound meets the invariant once a command completes on it: completion ends the record
of disturbed bytes and the hidden decoder (R39, R135). -/
theorem finish_invariant {s : State} (hm : MemoryOk s) (hk : KeyOk s) (e : ErrCode) (r : Word) :
    Invariant (finish e r s) :=
  ⟨hm, hk, ⟨fun _ => rfl, fun _ ha => nomatch ha⟩, rfl⟩

theorem memoryOk_unspecify {s : State} (h : MemoryOk s) {offs : List Nat} (ho : ∀ a ∈ offs, a < s.params.lmemSize) :
    MemoryOk (unspecify offs s) :=
  ⟨drawInto_wf offs s.draw h.1, drawInto_bound offs s.draw ho h.2⟩

theorem memoryOk_memWrite {s : State} (h : MemoryOk s) {d : Nat} {L : List Byte}
    (hd : d + L.length ≤ s.params.lmemSize) : MemoryOk (memWrite d L s) :=
  ⟨writeList_wf L d h.1, writeList_bound L hd h.2⟩

/-- The existing offsets of a range exist. -/
theorem rangeOffsets_bound (size : Nat) (r : Option Range) : ∀ a ∈ rangeOffsets size r, a < size :=
  fun _ ha => (mem_rangeOffsets.1 ha).2

/-- A hidden decoder that is not walking a stream is idle. -/
theorem DecoderOk.idle {s : State} (h : DecoderOk s) (ha : s.dec.active = false) : s.dec = Decoder.idle := by
  simpa [DecoderOk, ha] using h

/-- A walk writes its plane inside LMEM. -/
theorem DecoderOk.plane_valid {s : State} (h : DecoderOk s) (ha : s.dec.active = true) :
    opDst s.lat + planeSize (opPixels s.lat) ≤ s.params.lmemSize := by
  simp only [DecoderOk, ha, if_true] at h
  obtain ⟨_, _, _, _, hv, _⟩ := h
  exact hv

/-- An idle decoder is sound whatever else the state holds. -/
theorem decoderOk_of_idle {s : State} (h : s.dec = Decoder.idle) : DecoderOk s := by
  simp [DecoderOk, h, Decoder.idle]

/-! #### The engine and its token walk -/

/-- Every command ends with the invariant: `EffectOn` carries the soundness of LMEM and of the key to its end. -/
theorem exec_command_invariant {i : Instr} (hi : i.isCommand = true) {s t : State} (h : Invariant s)
    (ht : exec i s = .next t) : Invariant t := by
  obtain ⟨⟨hwf, hbound⟩, hkey, ⟨_, htouched⟩, _⟩ := h
  obtain ⟨e, r, u, hx, _, heff⟩ := exec_command_form i hi s
  cases hx.symm.trans ht
  have hmem : MemoryOk u := ⟨heff.wf hwf, heff.params ▸ heff.bound htouched hbound⟩
  exact finish_invariant hmem (heff.keyZero hkey) e r

theorem engineStep_invariant {s t : State} (h : Invariant s) (ht : engineStep s = .next t) : Invariant t := by
  rcases engineStep_cases s with ⟨_, hx⟩ | ⟨_, _, _, hx⟩ | ⟨_, i, hi, hx⟩
  · cases hx.symm.trans ht; exact h
  · cases hx.symm.trans ht
    obtain ⟨hm, hk, _, _⟩ := h
    exact finish_invariant hm hk _ _
  · exact exec_command_invariant (decodeCommand_isCommand hi) h (hx.symm.trans ht)

/-- What the engine has tested before it starts the token walk (R133, R207). -/
theorem decoderReady_iff (s : State) : decoderReady s = true ↔
    s.status.busy = true ∧ decodeCommand s.lat.cmd = .ok .rleDec ∧ s.touched = [] ∧ commonCheck .rleDec s = none := by
  simp [decoderReady, and_assoc]

/-- A walk starts at the front of the LEN bytes of its stream with no pixel produced, and its checks have found the
plane's range valid. -/
theorem startDecoder_invariant {s : State} (h : Invariant s) (hr : decoderReady s = true) :
    Invariant (startDecoder s) := by
  obtain ⟨hm, hk, htouched, _⟩ := h
  obtain ⟨hbusy, hcmd, hnone, hcheck⟩ := (decoderReady_iff s).1 hr
  refine ⟨hm, hk, htouched, ?_⟩
  exact ⟨hbusy, hcmd, hnone, rfl, output_valid hcheck rfl, memRead_length s _ _, Nat.zero_le _, Nat.zero_le _⟩

theorem engineByTokenStep_invariant {s t : State} (h : Invariant s) (ht : engineByTokenStep s = .next t) :
    Invariant t := by
  unfold engineByTokenStep at ht
  split at ht
  · next hr => cases ht; exact startDecoder_invariant h hr
  · exact engineStep_invariant h ht

/-- A malformed stream leaves free values in the plane's range, at offsets that exist (R209, R255). -/
theorem decodeFail_invariant {s : State} (h : Invariant s) (e : ErrCode) (off : Nat) :
    Invariant (decodeFail e off s) := by
  obtain ⟨hm, hk, _, _⟩ := h
  exact finish_invariant (memoryOk_unspecify hm (rangeOffsets_bound _ _)) hk _ _

/-- A plane that is written inside LMEM (R213). -/
theorem decodeDone_invariant {s : State} (h : Invariant s)
    (hv : opDst s.lat + planeSize (opPixels s.lat) ≤ s.params.lmemSize) (out : List Pixel) :
    Invariant (decodeDone out s) := by
  obtain ⟨hm, hk, _, _⟩ := h
  have hw : MemoryOk (planeWrite (opDst s.lat) (opPixels s.lat) out s) :=
    memoryOk_memWrite hm (by rwa [planeBytes_length])
  exact finish_invariant hw hk _ _

/-- A decoder that moves on by one token stays inside its stream and its plane. -/
theorem setDec_invariant {s : State} (h : Invariant s) (ha : s.dec.active = true) {d : Decoder}
    (hd : DecoderAdvance s.dec d) : Invariant (setDec d s) := by
  obtain ⟨hm, hk, htouched, hdec⟩ := h
  simp only [DecoderOk, ha, if_true] at hdec
  obtain ⟨hbusy, hcmd, hnone, htotal, hv, hlen, _, _⟩ := hdec
  refine ⟨hm, hk, htouched, ?_⟩
  simp only [DecoderOk, setDec_dec, hd.active, ha, if_true, hd.stream, hd.total]
  exact ⟨hbusy, hcmd, hnone, htotal, hv, hlen, hd.inside, hd.room⟩

theorem decoderStep_invariant {s t : State} (h : Invariant s) (ha : s.dec.active = true)
    (ht : decoderStep s = .next t) : Invariant t := by
  rcases decoderStep_cases s with ⟨e, _, hx⟩ | ⟨_, hx⟩ | ⟨d, hd, hx⟩
  · cases hx.symm.trans ht; exact decodeFail_invariant h e _
  · cases hx.symm.trans ht
    have ⟨_, _, _, hdec⟩ := h
    exact decodeDone_invariant h (hdec.plane_valid ha) _
  · cases hx.symm.trans ht; exact setDec_invariant h ha hd

/-! #### The host's accesses, which come only while no token walk is in progress (R74, R137) -/

/-- An idle machine has no range that a host write could disturb. -/
theorem disturbedOffsets_idle {s : State} (hb : s.status.busy = false) (off n : Nat) :
    disturbedOffsets s off n = [] := by
  simp [disturbedOffsets, runningInput, runningOutput, hb, inRange]

/-- A disturbed byte is one of those the host wrote. -/
theorem disturbedOffsets_bound (s : State) (off n : Nat) : ∀ a ∈ disturbedOffsets s off n, a < off + n := by
  intro a ha
  simp only [disturbedOffsets, List.mem_filter, List.mem_map, List.mem_range] at ha
  obtain ⟨⟨i, hi, rfl⟩, _⟩ := ha
  omega

theorem lmemWrite_invariant {s : State} (h : Invariant s) (ha : s.dec.active = false) {w : Width} {off : Nat}
    (ho : off + widthBytes w ≤ s.params.lmemSize) (x : Word) : Invariant (lmemWrite w off x s) := by
  obtain ⟨hm, hk, ⟨hidle, hbound⟩, hdec⟩ := h
  refine ⟨memoryOk_memWrite (s := { s with touched := _ }) hm (by simpa using ho), hk,
    ⟨fun (hb : s.status.busy = false) => ?_, fun a hmem => ?_⟩, decoderOk_of_idle (hdec.idle ha)⟩
  · show s.touched ++ disturbedOffsets s off (widthBytes w) = []
    rw [hidle hb, disturbedOffsets_idle hb, List.nil_append]
  · rcases List.mem_append.1 hmem with hmem | hmem
    · exact hbound a hmem
    · exact Nat.lt_of_lt_of_le (disturbedOffsets_bound s off _ a hmem) ho

/-- Soft reset takes the key and the engine back to reset and keeps LMEM but for the aborted output range (R283). -/
theorem softReset_invariant {s : State} (hm : MemoryOk s) : Invariant (softReset s) :=
  ⟨memoryOk_unspecify hm (rangeOffsets_bound _ _), fun _ => rfl, ⟨fun _ => rfl, fun _ ha => nomatch ha⟩, rfl⟩

theorem writeCtrl_invariant {s : State} (h : Invariant s) (w : Word) : Invariant (writeCtrl w s) := by
  unfold writeCtrl
  split
  · exact softReset_invariant h.1
  · exact h

/-- A command is accepted only while idle, and BUSY rises with the latch (R131, R132). -/
theorem writeCmd_invariant {s : State} (h : Invariant s) (ha : s.dec.active = false) (w : Word) :
    Invariant (writeCmd w s) := by
  unfold writeCmd
  split
  · exact h
  · obtain ⟨hm, hk, ⟨_, hbound⟩, hdec⟩ := h
    exact ⟨hm, hk, ⟨nofun, hbound⟩, decoderOk_of_idle (hdec.idle ha)⟩

theorem csrWrite_invariant {s : State} (h : Invariant s) (ha : s.dec.active = false) (c : Csr) (w : Word) :
    Invariant (csrWrite c w s) := by
  cases c with
  | ctrl => exact writeCtrl_invariant h w
  | cmd => exact writeCmd_invariant h ha w
  | _ => exact h

theorem hostStep_invariant {a : HostAccess} {s t : State} (h : Invariant s) (ha : s.dec.active = false)
    (ht : hostStep a s = .next t) : Invariant t := by
  rcases hostStep_cases a s with ⟨e, hx⟩ | ⟨v, hx⟩ | ⟨c, _, w, _, _, hx⟩ | ⟨w, off, x, ho, hx⟩
  · cases hx.symm.trans ht
  · cases hx.symm.trans ht; exact h
  · cases hx.symm.trans ht; exact csrWrite_invariant h ha c w
  · cases hx.symm.trans ht; exact lmemWrite_invariant h ha ho x

/-- A poll answers the host and changes the schedule, neither of which the invariant speaks of. -/
theorem waitStep_invariant {n : Nat} {ts : List Turn} {s t : State} (h : Invariant s)
    (ht : waitStep n ts s = .next t) : Invariant t := by
  rw [waitStep_eq] at ht
  cases ht
  exact h

/-! #### The claims -/

/-- Settles O6: nothing is written, loaded, disturbed or decoded at reset. -/
theorem resetMeetsInv : Obligations.ResetMeetsInv :=
  ⟨⟨reset_mem_wf, nofun⟩, fun _ => rfl, ⟨fun _ => rfl, nofun⟩, rfl⟩

/-- Settles O38: whoever's turn it is, `step_cases` hands the step to the token walk, the engine or the host. The
schedule is no part of the invariant, so the turn used up does not matter. -/
theorem stepKeepsInv : Obligations.StepKeepsInv := by
  intro s t h ht
  rcases step_cases s with ⟨ha, hx⟩ | ⟨_, ts, hx⟩ | ⟨_, ts, hx⟩ | ⟨ha, a, ts, _, hx⟩ | ⟨ha, n, ts, _, hx⟩
  · exact decoderStep_invariant h ha (hx.symm.trans ht)
  · exact engineStep_invariant (s := setTurns ts s) h (hx.symm.trans ht)
  · exact engineByTokenStep_invariant (s := setTurns ts s) h (hx.symm.trans ht)
  · exact hostStep_invariant (s := setTurns ts s) h ha (hx.symm.trans ht)
  · exact waitStep_invariant h (hx.symm.trans ht)

end Sys2Proof.Machine
end

/-! ### What a command leaves unchanged, and what changes the key -/

section
namespace Sys2Proof.Machine

/-! #### Registers, ACC and LMEM under every command -/

/-- Settles O33: a command is the completion of a state that differs as `EffectOn` says, and neither the effect nor the
completion reaches these fields. -/
theorem commandsKeepOperandRegisters : Obligations.CommandsKeepOperandRegisters := by
  intro i s t hi ht
  obtain ⟨e, r, u, hx, _, heff⟩ := exec_command_form i hi s
  cases hx.symm.trans ht
  exact ⟨heff.src, heff.dst, heff.len, heff.param, heff.dim, heff.addrLo, heff.addrHi, heff.cmd, heff.ctrl, heff.ovr,
    heff.lat, heff.params, heff.turns, heff.busReads⟩

/-- The commands that write ACC are the seven of R34. -/
theorem writesAcc_iff (i : Instr) : writesAcc i = true ↔
    i ∈ [Instr.ckInit, .ckByte, .ckRun, .ckCalc, .thBuild, .pktBuild, .pktStream] := by
  cases i <;> simp [writesAcc]

/-- PB(N_PIX), from the latched DIM (R68, R93). -/
theorem planeSize_opPixels (l : Latch) : planeSize (opPixels l) =
    (((l.dim.extractLsb' 0 16).toNat + 1) * ((l.dim.extractLsb' 16 15).toNat + 1) + 7) / 8 := rfl

/-- Settles O34: ACC and LMEM by `EffectOn`, which every command's effect meets; the ranges row by row of R139. -/
theorem commandsKeepAccAndMemory : Obligations.CommandsKeepAccAndMemory := by
  refine ⟨fun i s t hi ht => ?_, fun l a d n pb ha hd hn hpb i input output hrow => ?_⟩
  · obtain ⟨e, r, u, hx, _, heff⟩ := exec_command_form i hi s
    cases hx.symm.trans ht
    refine ⟨fun hnot => heff.acc ?_, heff.outside⟩
    rwa [← writesAcc_iff, Bool.not_eq_true] at hnot
  · rw [← planeSize_opPixels] at hpb
    subst ha hd hn hpb
    simp only [List.mem_cons, Prod.mk.injEq, List.not_mem_nil, or_false] at hrow
    rcases hrow with ⟨rfl, rfl, rfl⟩ | ⟨rfl, rfl, rfl⟩ | ⟨rfl, rfl, rfl⟩ | ⟨rfl, rfl, rfl⟩ | ⟨rfl, rfl, rfl⟩ |
      ⟨rfl, rfl, rfl⟩ | ⟨rfl, rfl, rfl⟩ | ⟨rfl, rfl, rfl⟩ | ⟨rfl, rfl, rfl⟩ | ⟨rfl, rfl, rfl⟩ | ⟨rfl, rfl, rfl⟩ |
      ⟨rfl, rfl, rfl⟩ | ⟨rfl, rfl, rfl⟩ | ⟨rfl, rfl, rfl⟩ <;> exact ⟨rfl, rfl⟩

/-! #### The key state -/

/-- The two states hold the same key state (R37). -/
def SameKey (s t : State) : Prop := t.key8 = s.key8 ∧ t.status.keyv = s.status.keyv

theorem not_sameKey_iff {s t : State} : ¬ SameKey s t ↔ t.key8 ≠ s.key8 ∨ t.status.keyv ≠ s.status.keyv := by
  rw [SameKey, not_and_or]

theorem SameKey.refl (s : State) : SameKey s s := ⟨rfl, rfl⟩

/-- A command that changes the key is KEY_LOAD or KEY_CLEAR (R172, R173). -/
theorem exec_command_sameKey {i : Instr} (hi : i.isCommand = true) {s t : State} (ht : exec i s = .next t) :
    SameKey s t ∨ i = .keyLoad ∨ i = .keyClear := by
  obtain ⟨e, r, u, hx, _, heff⟩ := exec_command_form i hi s
  cases hx.symm.trans ht
  by_cases hload : i = .keyLoad
  · exact .inr (.inl hload)
  by_cases hclear : i = .keyClear
  · exact .inr (.inr hclear)
  exact .inl (heff.key hload hclear)

/-- The running command is KEY_LOAD or KEY_CLEAR. -/
def RunsKeyCommand (s : State) : Prop :=
  s.status.busy = true ∧ (decodeCommand s.lat.cmd = .ok .keyLoad ∨ decodeCommand s.lat.cmd = .ok .keyClear)

theorem engineStep_sameKey {s t : State} (ht : engineStep s = .next t) : SameKey s t ∨ RunsKeyCommand s := by
  rcases engineStep_cases s with ⟨_, hx⟩ | ⟨_, _, _, hx⟩ | ⟨hb, i, hi, hx⟩
  · cases hx.symm.trans ht; exact .inl (.refl s)
  · cases hx.symm.trans ht; exact .inl (.refl s)
  · rcases exec_command_sameKey (decodeCommand_isCommand hi) (hx.symm.trans ht) with h | rfl | rfl
    · exact .inl h
    · exact .inr ⟨hb, .inl hi⟩
    · exact .inr ⟨hb, .inr hi⟩

theorem engineByTokenStep_sameKey {s t : State} (ht : engineByTokenStep s = .next t) :
    SameKey s t ∨ RunsKeyCommand s := by
  rcases engineByTokenStep_cases s with hx | hx
  · cases hx.symm.trans ht; exact .inl (.refl s)
  · exact engineStep_sameKey (hx.symm.trans ht)

theorem decoderStep_sameKey {s t : State} (ht : decoderStep s = .next t) : SameKey s t := by
  rcases decoderStep_cases s with ⟨e, _, hx⟩ | ⟨_, hx⟩ | ⟨d, _, hx⟩ <;>
    · cases hx.symm.trans ht; exact .refl s

/-- CTRL with bit 31 set is the one register whose write reaches the key (R283). -/
theorem csrWrite_sameKey (c : Csr) (w : Word) (s : State) :
    SameKey s (csrWrite c w s) ∨ c = .ctrl ∧ w.getLsbD 31 = true := by
  cases c with
  | ctrl =>
    show SameKey s (writeCtrl w s) ∨ _
    unfold writeCtrl
    split
    · next hw => exact .inr ⟨rfl, hw⟩
    · exact .inl (.refl s)
  | cmd =>
    show SameKey s (writeCmd w s) ∨ _
    unfold writeCmd
    split <;> exact .inl (.refl s)
  | _ => exact .inl (.refl s)

theorem hostStep_sameKey {h : HostAccess} {s t : State} (ht : hostStep h s = .next t) :
    SameKey s t ∨ ∃ a w, h = .write .b4 a w ∧ a.toNat = 0 ∧ w.getLsbD 31 = true := by
  rcases hostStep_cases h s with ⟨e, hx⟩ | ⟨v, hx⟩ | ⟨c, a, w, hw, ha, hx⟩ | ⟨w, off, x, _, hx⟩
  · cases hx.symm.trans ht
  · cases hx.symm.trans ht; exact .inl (.refl s)
  · cases hx.symm.trans ht
    refine (csrWrite_sameKey c w s).imp id ?_
    rintro ⟨rfl, hbit⟩
    exact ⟨a, w, hw, ha, hbit⟩
  · cases hx.symm.trans ht; exact .inl (.refl s)

theorem waitStep_sameKey {n : Nat} {ts : List Turn} {s t : State} (ht : waitStep n ts s = .next t) : SameKey s t := by
  rw [waitStep_eq] at ht
  cases ht
  exact .refl s

/-- Settles O36: whoever's turn it is, the step keeps the key or is one of the three. -/
theorem keyChangesOnlyByItsCommands : Obligations.KeyChangesOnlyByItsCommands := by
  intro s t ht hne
  rw [← not_sameKey_iff] at hne
  rcases step_cases s with ⟨_, hx⟩ | ⟨_, ts, hx⟩ | ⟨_, ts, hx⟩ | ⟨_, h, ts, hturns, hx⟩ | ⟨_, n, ts, _, hx⟩
  · exact absurd (decoderStep_sameKey (hx.symm.trans ht)) hne
  · exact .inl ((engineStep_sameKey (s := setTurns ts s) (hx.symm.trans ht)).resolve_left hne)
  · exact .inl ((engineByTokenStep_sameKey (s := setTurns ts s) (hx.symm.trans ht)).resolve_left hne)
  · obtain ⟨a, w, rfl, ha, hbit⟩ := (hostStep_sameKey (s := setTurns ts s) (hx.symm.trans ht)).resolve_left hne
    exact .inr ⟨a, w, ts, hturns, ha, hbit⟩
  · exact absurd (waitStep_sameKey (hx.symm.trans ht)) hne

end Sys2Proof.Machine
end

/-! ### The registers as the host reads and writes them -/

section
namespace Sys2Proof.Machine

/-! #### One register access on the host's turn -/

/-- The host's turn: no token walk is in progress (R74, R76). -/
theorem step_host {s : State} (ha : s.dec.active = false) {h : HostAccess} {ts : List Turn}
    (ht : s.turns = .host h :: ts) : step s = hostStep h (setTurns ts s) := by
  simp [step, ha, ht]

theorem step_writeCsr {s : State} (ha : s.dec.active = false) {c : Csr} {w : Word} {ts : List Turn}
    (ht : s.turns = .host (.write .b4 (csrAddress c) w) :: ts) :
    step s = .next (csrWrite c w (setTurns ts s)) :=
  (step_host ha ht).trans (hostStep_writeCsr c w _)

/-- What a register reads does not depend on the schedule. -/
@[simp] theorem csrRead_setTurns (c : Csr) (ts : List Turn) (s : State) :
    csrRead c (setTurns ts s) = csrRead c s := by
  cases c <;> rfl

theorem step_readCsr {s : State} (ha : s.dec.active = false) {c : Csr} {ts : List Turn}
    (ht : s.turns = .host (.read .b4 (csrAddress c)) :: ts) :
    step s = .next (answer (csrRead c s) (setTurns ts s)) := by
  rw [step_host ha ht, hostStep_readCsr, csrRead_setTurns]

/-- An answer while idle draws no free value. -/
theorem answer_idle {s : State} (hb : s.status.busy = false) (v : Word) :
    answer v s = { s with busReads := v :: s.busReads } := by
  simp [answer, hb]

/-! #### Writes -/

/-- R25 in its own words: a 1 clears the bit, a 0 keeps it. -/
theorem clearStatus_eq (w : Word) (st : Status) : clearStatus w st =
    { st with
      done := if w.getLsbD 1 then false else st.done
      err := if w.getLsbD 2 then false else st.err
      ovr := if w.getLsbD 4 then false else st.ovr } := by
  have clear (b flag : Bool) : (flag && !b) = if b then false else flag := by cases b <;> simp
  simp only [clearStatus, clear]

/-- Settles O52. -/
theorem statusWriteOneToClear : Obligations.StatusWriteOneToClear := by
  intro s w ts ha ht
  rw [step_writeCsr (c := .status) ha ht, ← clearStatus_eq]
  rfl

/-- Settles O53: the four offsets are those of KEY, ACC, RESULT and ID, whose write keeps the state. -/
theorem readOnlyWritesIgnored : Obligations.ReadOnlyWritesIgnored := by
  intro s a w ts ha hmem ht
  simp only [List.mem_cons, List.not_mem_nil, or_false] at hmem
  rcases hmem with rfl | rfl | rfl | rfl
  · exact step_writeCsr (c := .key) ha ht
  · exact step_writeCsr (c := .acc) ha ht
  · exact step_writeCsr (c := .result) ha ht
  · exact step_writeCsr (c := .id) ha ht

/-! #### Reads -/

/-- A field of `k` bits, widened to a word, is the word with its upper bits cleared. -/
theorem lowBits_zeroExtend (w : Word) {k : Nat} (hk : k ≤ 32) :
    (w.extractLsb' 0 k).zeroExtend 32 = w &&& BitVec.ofNat 32 (2 ^ k - 1) := by
  have hpow : 2 ^ k - 1 < 2 ^ 32 :=
    Nat.lt_of_lt_of_le (Nat.sub_lt (Nat.two_pow_pos k) Nat.one_pos) (Nat.pow_le_pow_right (by omega) hk)
  apply BitVec.eq_of_toNat_eq
  simp only [BitVec.truncate_eq_setWidth, BitVec.toNat_setWidth, BitVec.extractLsb'_toNat, BitVec.toNat_and,
    BitVec.toNat_ofNat, Nat.mod_eq_of_lt hpow, Nat.and_two_pow_sub_one_eq_mod, Nat.shiftRight_zero]
  exact Nat.mod_eq_of_lt (Nat.lt_of_le_of_lt (Nat.mod_le _ _) w.isLt)

/-- Widening a field puts zeros above it. -/
theorem zeroExtend_eq_append {n : Nat} (k : Nat) (x : BitVec n) : x.zeroExtend (k + n) = 0#k ++ x := by
  apply BitVec.eq_of_getLsbD_eq
  intro i hi
  rw [BitVec.getLsbD_append, BitVec.getLsbD_setWidth]
  split
  · simp [hi]
  · next hge => simp [BitVec.getLsbD_of_ge x i (Nat.not_lt.1 hge)]

/-- The STATUS word, from bit 31 down (R24, R42). -/
theorem statusWord_eq_append (st : Status) (code : Byte) : statusWord st code =
    (0#16 ++ code ++ 0#3 ++ BitVec.ofBool st.ovr ++ BitVec.ofBool st.keyv ++ BitVec.ofBool st.err ++
      BitVec.ofBool st.done ++ BitVec.ofBool st.busy : BitVec 32) := by
  apply BitVec.eq_of_getLsbD_eq
  intro i hi
  simp only [BitVec.getLsbD_append]
  interval_cases i <;> simp [statusWord, bitAt]

/-- The CTRL word, from bit 31 down (R23). -/
theorem ctrlWord_eq_append (c : Ctrl) :
    ctrlWord c = (0#30 ++ BitVec.ofBool c.ieErr ++ BitVec.ofBool c.ieDone : BitVec 32) := by
  obtain ⟨ieDone, ieErr⟩ := c
  cases ieDone <;> cases ieErr <;> rfl

/-- The codes of R250 with their numbers. -/
def errTable : List (ErrCode × Byte) :=
  [(.noError, 0x00), (.illegalCmd, 0x01), (.badParam, 0x02), (.noKey, 0x03), (.keyLocked, 0x04), (.countOverflow, 0x05),
   (.badSeq, 0x06), (.range, 0x07), (.overlap, 0x08), (.encOverflow, 0x09), (.decTruncated, 0x0A), (.decUnderrun, 0x0B),
   (.decOverrun, 0x0C), (.decTrailing, 0x0D)]

theorem errNumber_of_mem_errTable : ∀ row ∈ errTable, errNumber row.1 = row.2 := by decide

section Idle
variable {s : State} (hb : s.status.busy = false)
include hb

theorem csrRead_status_idle : csrRead .status s =
    (0#16 ++ errNumber s.status.errcode ++ 0#3 ++ BitVec.ofBool s.status.ovr ++ BitVec.ofBool s.status.keyv ++
      BitVec.ofBool s.status.err ++ BitVec.ofBool s.status.done ++ 0#1 : BitVec 32) := by
  rw [csrRead, statusWord_eq_append, hb]
  rfl

theorem csrRead_key_idle : csrRead .key s = if s.status.keyv then 0#24 ++ s.key8 else 0 := by
  simp only [csrRead, hb, keyWord, ← zeroExtend_eq_append]
  rfl

theorem csrRead_acc_idle : csrRead .acc s = 0#16 ++ s.acc := by
  rw [← zeroExtend_eq_append]
  simp [csrRead, hb]

theorem csrRead_result_idle : csrRead .result s = s.result := by simp [csrRead, hb]

end Idle

/-- Settles O54, clause by clause: a written register reads its stored bits, the two kinds of register turn are
`step_writeCsr` and `step_readCsr`, and an idle read shows the register's own value and draws nothing. -/
theorem operandRegistersReadBack : Obligations.OperandRegistersReadBack := by
  intro s w
  refine ⟨fun c hc => ?plain, lowBits_zeroExtend w (by decide), lowBits_zeroExtend w (by decide),
    fun ha c a t ts hrow ht => ?write, fun ha c ts ht => ⟨_, step_readCsr ha ht⟩,
    fun ha hb code hcode c v ts hrow ht => ?idle⟩
  case plain =>
    simp only [List.mem_cons, List.not_mem_nil, or_false] at hc
    rcases hc with rfl | rfl | rfl | rfl | rfl <;> rfl
  case write =>
    obtain ⟨rfl, hwrite⟩ : a = csrAddress c ∧ csrWrite c w (setTurns ts s) = { t with turns := ts } := by
      simp only [List.mem_cons, Prod.mk.injEq, List.not_mem_nil, or_false] at hrow
      rcases hrow with ⟨rfl, rfl, rfl⟩ | ⟨rfl, rfl, rfl⟩ | ⟨rfl, rfl, rfl⟩ | ⟨rfl, rfl, rfl⟩ | ⟨rfl, rfl, rfl⟩ |
        ⟨rfl, rfl, rfl⟩ | ⟨rfl, rfl, rfl⟩ <;> exact ⟨rfl, rfl⟩
    exact ⟨rfl, step_writeCsr ha ht, hwrite ▸ step_writeCsr ha ht⟩
  case idle =>
    obtain rfl : errNumber s.status.errcode = code := errNumber_of_mem_errTable _ hcode
    suffices hv : csrRead c s = v by
      rw [step_readCsr ha ht, answer_idle (s := setTurns ts s) hb, hv]
      rfl
    simp only [List.mem_cons, Prod.mk.injEq, List.not_mem_nil, or_false] at hrow
    rcases hrow with ⟨rfl, rfl⟩ | ⟨rfl, rfl⟩ | ⟨rfl, rfl⟩ | ⟨rfl, rfl⟩ | ⟨rfl, rfl⟩ | ⟨rfl, rfl⟩ | ⟨rfl, rfl⟩ |
      ⟨rfl, rfl⟩ | ⟨rfl, rfl⟩ | ⟨rfl, rfl⟩ | ⟨rfl, rfl⟩ | ⟨rfl, rfl⟩ | ⟨rfl, rfl⟩ | ⟨rfl, rfl⟩
    · exact csrRead_status_idle hb
    · exact csrRead_key_idle hb
    · exact csrRead_acc_idle hb
    · exact csrRead_result_idle hb
    · exact ctrlWord_eq_append s.ctrl
    · rfl
    · rfl
    · rfl
    · rfl
    · rfl
    · exact zeroExtend_eq_append 1 s.dim
    · rfl
    · exact zeroExtend_eq_append 16 s.addrHi
    · rfl

end Sys2Proof.Machine
end

/-! ### The LMEM window and the bus errors -/

section
namespace Sys2Proof.Machine

/-! #### The address map -/

/-- The registers stand at the multiples of 4 up to 0x34 (R22). -/
theorem exists_csrOffset_eq_iff (n : Nat) : (∃ c ∈ csrList, csrOffset c = n) ↔ n % 4 = 0 ∧ n ≤ 0x34 := by
  constructor
  · have hoffsets : ∀ c ∈ csrList, csrOffset c % 4 = 0 ∧ csrOffset c ≤ 0x34 := by decide
    rintro ⟨c, hc, rfl⟩
    exact hoffsets c hc
  · have hall : ∀ k < 14, ∃ c ∈ csrList, csrOffset c = 4 * k := by decide
    rintro ⟨hmod, hle⟩
    obtain ⟨k, rfl⟩ := Nat.dvd_of_mod_eq_zero hmod
    exact hall k (by omega)

/-- Inside the CSR window an access reaches a register exactly if it is 4 bytes wide at a register's offset (R42, R71). -/
theorem busTarget_csr_ok_iff {size : Nat} {w : Width} {a : BitVec 21} (ha : a.toNat < csrWindowEnd) :
    (∃ t, busTarget size w a = .ok t) ↔ w = .b4 ∧ a.toNat % 4 = 0 ∧ a.toNat ≤ 0x34 := by
  rw [← exists_csrOffset_eq_iff]
  have hoffset := exists_csrOffset_eq_iff a.toNat
  unfold busTarget
  rw [if_pos ha]
  by_cases hw : w = .b4
  · by_cases hmod : a.toNat % 4 = 0
    · cases hfind : csrList.find? (fun c => csrOffset c == a.toNat) with
      | none =>
        have hnone : ¬∃ c ∈ csrList, csrOffset c = a.toNat := by simpa using hfind
        simp [hw, hmod, hnone]
      | some c =>
        have hsome : ∃ c ∈ csrList, csrOffset c = a.toNat :=
          ⟨c, List.mem_of_find?_eq_some hfind, by simpa using List.find?_some hfind⟩
        simp [hw, hmod, hsome]
    · simp [hw, hmod, hoffset]
  · simp [hw]

theorem widthBytes_pos (w : Width) : 0 < widthBytes w := by cases w <;> decide

theorem widthBytes_le (w : Width) : widthBytes w ≤ 4 := by cases w <;> decide

/-- An aligned access inside the LMEM window reaches LMEM (R62, R72). -/
theorem busTarget_lmem {size : Nat} {w : Width} {a : BitVec 21} (hbase : lmemBase ≤ a.toNat)
    (halign : a.toNat % widthBytes w = 0) (hend : a.toNat - lmemBase + widthBytes w ≤ size) :
    busTarget size w a = .ok (.lmem (a.toNat - lmemBase)) := by
  have hwidth := widthBytes_pos w
  unfold busTarget
  rw [if_neg (by simp only [csrWindowEnd, lmemBase] at *; omega), if_neg (by omega), if_neg (by omega),
    if_neg (by omega), if_neg (by omega)]

/-- Past the CSR window every other access is a bus error (R62, R72, R73). -/
theorem busTarget_lmem_ok_iff {size : Nat} {w : Width} {a : BitVec 21} (ha : ¬a.toNat < csrWindowEnd) :
    (∃ t, busTarget size w a = .ok t) ↔
      lmemBase ≤ a.toNat ∧ a.toNat % widthBytes w = 0 ∧ a.toNat - lmemBase + widthBytes w ≤ size := by
  constructor
  · rintro ⟨t, ht⟩
    rw [busTarget, if_neg ha] at ht
    repeat' (split at ht; · cases ht)
    omega
  · rintro ⟨hbase, halign, hend⟩
    exact ⟨_, busTarget_lmem hbase halign hend⟩

/-- The accesses that are no bus error, over the whole address map. -/
theorem busTarget_ok_iff (size : Nat) (w : Width) (a : BitVec 21) :
    (∃ t, busTarget size w a = .ok t) ↔
      (w = .b4 ∧ a.toNat % 4 = 0 ∧ a.toNat ≤ 0x34) ∨
      (lmemBase ≤ a.toNat ∧ a.toNat % widthBytes w = 0 ∧ a.toNat - lmemBase + widthBytes w ≤ size) := by
  by_cases ha : a.toNat < csrWindowEnd
  · rw [busTarget_csr_ok_iff ha, or_iff_left]
    rintro ⟨hbase, _⟩
    simp only [csrWindowEnd, lmemBase] at *
    omega
  · rw [busTarget_lmem_ok_iff ha, or_iff_right]
    rintro ⟨_, _, hle⟩
    simp only [csrWindowEnd] at ha
    omega

/-- A host access is a bus error exactly if the address map gives it no target (R73). -/
theorem hostStep_busError_iff {h : HostAccess} {w : Width} {a : BitVec 21} {data : Word}
    (hh : h ∈ [HostAccess.read w a, .write w a data]) (s : State) :
    (∃ e, hostStep h s = .fault (.busError e)) ↔ ¬∃ t, busTarget s.params.lmemSize w a = .ok t := by
  simp only [List.mem_cons, List.not_mem_nil, or_false] at hh
  rcases hh with rfl | rfl <;>
  · cases hb : busTarget s.params.lmemSize w a with
    | error e => simp [hostStep, hb]
    | ok t => cases t <;> simp [hostStep, hb]

/-- Settles O58: a host's turn faults where the address map gives no target, and it gives one to these two kinds of access
only. -/
theorem busErrorsExactly : Obligations.BusErrorsExactly := by
  intro s w a data ts ha h hh ht
  rw [step_host ha ht, hostStep_busError_iff hh, busTarget_ok_iff, not_or, setTurns_params]
  rfl

/-! #### Byte lanes (R69) -/

theorem leBytes_getD (k v : Nat) {i : Nat} (hi : i < k) :
    (leBytes k v).getD i 0 = BitVec.ofNat 8 (v >>> (8 * i)) := by
  simp [leBytes, List.getD_eq_getElem?_getD, hi]

theorem leValue_lt (L : List Byte) : leValue L < 2 ^ (8 * L.length) := by
  induction L with
  | nil => simp [leValue]
  | cons b bs ih =>
    have hb : b.toNat < 256 := b.isLt
    have hpow : 2 ^ (8 * (bs.length + 1)) = 256 * 2 ^ (8 * bs.length) := by rw [Nat.mul_succ, Nat.pow_add, Nat.mul_comm]
    simp only [leValue, List.length_cons]
    omega

/-- A byte of the list stands in its number at bits 8i + 7 : 8i. -/
theorem leValue_byte (L : List Byte) (i : Nat) :
    BitVec.ofNat 8 (leValue L >>> (8 * i)) = L.getD i 0 := by
  induction L generalizing i with
  | nil => simp [leValue]
  | cons b bs ih =>
    cases i with
    | zero =>
      apply BitVec.eq_of_toNat_eq
      simpa [leValue] using b.isLt
    | succ i =>
      have hb : b.toNat < 2 ^ 8 := b.isLt
      have hshift : leValue (b :: bs) >>> 8 = leValue bs := by
        rw [Nat.shiftRight_eq_div_pow, leValue]
        omega
      rw [Nat.mul_succ, Nat.add_comm, Nat.shiftRight_add, hshift, ih, List.getD_cons_succ]

/-- A byte of a number that is cut to a word, where the word still has it. -/
theorem extractLsb'_ofNat_byte (v : Nat) {i : Nat} (hi : 8 * i + 8 ≤ 32) :
    (BitVec.ofNat 32 v).extractLsb' (8 * i) 8 = BitVec.ofNat 8 (v >>> (8 * i)) := by
  apply BitVec.eq_of_getLsbD_eq
  intro j hj
  simp only [BitVec.getLsbD_extractLsb', BitVec.getLsbD_ofNat, Nat.testBit_shiftRight, hj,
    show 8 * i + j < 32 by omega, decide_true, Bool.true_and]

/-- The bytes that a host read of LMEM answers, lane by lane. -/
theorem lmemRead_lane {w : Width} {i : Nat} (hi : i < widthBytes w) (off : Nat) (s : State) :
    (lmemRead w off s).extractLsb' (8 * i) 8 = hostByte s off i := by
  have hw := widthBytes_le w
  rw [lmemRead, extractLsb'_ofNat_byte _ (by omega), leValue_byte]
  simp [List.getD_eq_getElem?_getD, hi]

/-- Nothing stands above the lanes of a narrow read (log 6). -/
theorem lmemRead_lt (w : Width) (off : Nat) (s : State) : (lmemRead w off s).toNat < 2 ^ (8 * widthBytes w) := by
  rw [lmemRead, BitVec.toNat_ofNat]
  refine Nat.lt_of_le_of_lt (Nat.mod_le _ _) ?_
  simpa using leValue_lt ((List.range (widthBytes w)).map fun i => hostByte s off i)

/-- While idle the host reads what LMEM holds. -/
theorem hostByte_idle {s : State} (hb : s.status.busy = false) (off i : Nat) :
    hostByte s off i = readByte s (off + i) := by
  simp [hostByte, runningOutput, hb, inRange]

/-- LMEM after a host write, lane by lane. -/
theorem readByte_lmemWrite (w : Width) (off : Nat) (data : Word) (s : State) (a : Nat) :
    readByte (lmemWrite w off data s) a =
      if off ≤ a ∧ a < off + widthBytes w then data.extractLsb' (8 * (a - off)) 8 else readByte s a := by
  rw [lmemWrite, readByte_memWrite, leBytes_length]
  split
  · next ha => exact leBytes_getD _ _ (by omega)
  · rfl

/-! #### What a host write disturbs (R289) -/

theorem inRange_runningInput_iff (s : State) (a : Nat) : inRange (runningInput s) a = true ↔
    s.status.busy = true ∧ ∃ i, decodeCommand s.lat.cmd = .ok i ∧ inRange (inputRange i s.lat) a = true := by
  cases hb : s.status.busy <;> cases hd : decodeCommand s.lat.cmd <;> simp [runningInput, hb, hd, inRange]

theorem inRange_runningOutput_iff (s : State) (a : Nat) : inRange (runningOutput s) a = true ↔
    s.status.busy = true ∧ ∃ i, decodeCommand s.lat.cmd = .ok i ∧ inRange (outputRange i s.lat) a = true := by
  cases hb : s.status.busy <;> cases hd : decodeCommand s.lat.cmd <;> simp [runningOutput, hb, hd, inRange]

/-- The disturbed bytes are those of the write that lie in a range of the running command. -/
theorem mem_disturbedOffsets_iff (s : State) (off n a : Nat) : a ∈ disturbedOffsets s off n ↔
    s.status.busy = true ∧ (off ≤ a ∧ a < off + n) ∧
      ∃ i, decodeCommand s.lat.cmd = .ok i ∧
        (inRange (inputRange i s.lat) a = true ∨ inRange (outputRange i s.lat) a = true) := by
  have hwritten : a ∈ (List.range n).map (fun i => off + i) ↔ off ≤ a ∧ a < off + n := by
    simp only [List.mem_map, List.mem_range]
    constructor
    · rintro ⟨i, hi, rfl⟩; omega
    · rintro ⟨h1, h2⟩; exact ⟨a - off, by omega, by omega⟩
  simp only [disturbedOffsets, List.mem_filter, hwritten, Bool.or_eq_true, inRange_runningInput_iff,
    inRange_runningOutput_iff, ← and_or_left, ← exists_or]
  exact and_left_comm

/-! #### The host's turn at the window -/

section Window
variable {s : State} {w : Width} {off : Nat} (halign : off % widthBytes w = 0)
  (hend : off + widthBytes w ≤ s.params.lmemSize)
include halign hend

/-- The window's addresses fit 21 bits, and its base is aligned for every width (R61, R62). -/
theorem busTarget_lmemAddress : busTarget s.params.lmemSize w (lmemAddress off) = .ok (.lmem off) := by
  have hsize : s.params.lmemSize ≤ 0x100000 := s.params.lmemTop.isLt
  have hwidth := widthBytes_pos w
  have haddr : (lmemAddress off).toNat = lmemBase + off := by
    rw [lmemAddress, BitVec.toNat_ofNat, lmemBase]
    omega
  have hmod : (lmemBase + off) % widthBytes w = 0 := by
    have hbase : widthBytes w ∣ lmemBase := by cases w <;> decide
    exact Nat.mod_eq_zero_of_dvd (Nat.dvd_add hbase (Nat.dvd_of_mod_eq_zero halign))
  have htarget := busTarget_lmem (size := s.params.lmemSize) (w := w) (a := lmemAddress off)
  rw [haddr, Nat.add_sub_cancel_left] at htarget
  exact htarget (Nat.le_add_right _ _) hmod hend

/-- A read inside the window is answered, and the schedule plays no part in the answer. -/
theorem step_readLmem (ha : s.dec.active = false) {ts : List Turn}
    (ht : s.turns = .host (.read w (lmemAddress off)) :: ts) :
    step s = .next (answer (lmemRead w off s) (setTurns ts s)) := by
  rw [step_host ha ht, hostStep, setTurns_params, busTarget_lmemAddress halign hend]
  rfl

theorem step_writeLmem (ha : s.dec.active = false) {data : Word} {ts : List Turn}
    (ht : s.turns = .host (.write w (lmemAddress off) data) :: ts) :
    step s = .next (lmemWrite w off data (setTurns ts s)) := by
  rw [step_host ha ht, hostStep, setTurns_params, busTarget_lmemAddress halign hend]

end Window

/-- Settles O57: the host's turn is `step_readLmem` or `step_writeLmem`; the lanes are those of `lmemRead` and
`lmemWrite`. -/
theorem lmemLanes : Obligations.LmemLanes := by
  intro s w off data ts ha halign hend
  refine ⟨fun hb ht => ⟨lmemRead w off s, ?_, lmemRead_lt w off s, fun i hi => ?_⟩,
    fun ht => ⟨Memory.writeList s.mem off (leBytes (widthBytes w) data.toNat), ?_,
      readByte_lmemWrite w off data s, mem_disturbedOffsets_iff s off (widthBytes w)⟩⟩
  · rw [step_readLmem halign hend ha ht, answer_idle (s := setTurns ts s) hb]
    rfl
  · rw [lmemRead_lane hi, hostByte_idle hb]
  · exact step_writeLmem halign hend ha ht

end Sys2Proof.Machine
end

/-! ### Planes in LMEM -/

section
namespace Sys2Proof.Machine

/-! #### Pixels of bytes -/

/-- Pixel k of a byte string is bit 7 − (k mod 8) of byte k div 8 (R68). -/
theorem flatMap_bytePixels_getD (L : List Byte) (k : Nat) :
    (L.flatMap bytePixels).getD k false = (L.getD (k / 8) 0).getLsbD (7 - k % 8) := by
  induction L generalizing k with
  | nil => simp
  | cons b bs ih =>
    rw [List.flatMap_cons]
    by_cases hk : k < 8
    · rw [List.getD_append _ _ _ _ (by simpa using hk), Nat.div_eq_of_lt hk, Nat.mod_eq_of_lt hk]
      simp [bytePixels, List.getD_eq_getElem?_getD, hk]
    · obtain ⟨j, rfl⟩ : ∃ j, k = j + 8 := ⟨k - 8, by omega⟩
      rw [List.getD_append_right _ _ _ _ (by simp), bytePixels_length, Nat.add_sub_cancel, ih,
        show (j + 8) / 8 = j / 8 + 1 by omega, Nat.add_mod_right, List.getD_cons_succ]

@[simp] theorem flatMap_bytePixels_length (L : List Byte) : (L.flatMap bytePixels).length = 8 * L.length := by
  induction L with
  | nil => rfl
  | cons b bs ih => rw [List.flatMap_cons, List.length_append, bytePixels_length, ih, List.length_cons, Nat.mul_succ,
      Nat.add_comm]

/-- The first pixel is the most significant bit, so the last is bit 0. -/
theorem packBits_testBit (L : List Pixel) (i : Nat) : (packBits L).testBit i = L.reverse.getD i false := by
  induction L using List.reverseRecOn generalizing i with
  | nil => simp [packBits]
  | append_singleton L p ih =>
    have hpack : packBits (L ++ [p]) = Nat.bit p (packBits L) := by
      cases p <;> simp [packBits, Nat.bit]
    rw [hpack, List.reverse_append]
    cases i with
    | zero => simp
    | succ i => simpa [Nat.testBit_bit_succ] using ih i

/-- Eight pixels packed into a byte are read back from it. -/
theorem bytePixels_packBits {L : List Pixel} (hL : L.length = 8) : bytePixels (BitVec.ofNat 8 (packBits L)) = L := by
  refine List.ext_getElem (by simp [hL]) fun i hi hi' => ?_
  have hi8 : i < 8 := by simpa using hi
  simp only [bytePixels, List.getElem_map, List.getElem_range, BitVec.getLsbD_ofNat, packBits_testBit]
  rw [List.getD_eq_getElem _ _ (by simp [hL]; omega), List.getElem_reverse]
  simp only [hL, show 8 - 1 - (7 - i) = i by omega, show 7 - i < 8 by omega, decide_true, Bool.true_and]

/-! #### The bytes of a plane -/

theorem takePad_add {α : Type} (a b : Nat) (x : α) (L : List α) :
    takePad (a + b) x L = takePad a x L ++ takePad b x (L.drop a) := by
  simp only [takePad, List.take_add, List.length_drop]
  rcases Nat.le_total a L.length with ha | ha
  · rw [Nat.sub_eq_zero_of_le ha, show a + b - L.length = b - (L.length - a) by omega]
    simp
  · rw [List.drop_eq_nil_of_le ha, Nat.sub_eq_zero_of_le ha, show a + b - L.length = (a - L.length) + b by omega,
      List.replicate_add]
    simp

/-- The bytes of a plane hold its pixels, then padding bits 0 (R68). -/
theorem planeBytes_pixels (m : Nat) (P : List Pixel) :
    (planeBytes m P).flatMap bytePixels = takePad (8 * m) false P := by
  induction m generalizing P with
  | zero => simp [planeBytes, takePad]
  | succ m ih =>
    rw [planeBytes, List.flatMap_cons, bytePixels_packBits (takePad_length _ _ _), ih, Nat.mul_succ, Nat.add_comm,
      takePad_add]

theorem le_planeSize (n : Nat) : n ≤ 8 * planeSize n := by
  rw [planeSize]
  omega

/-! #### Reading and writing LMEM -/

/-- A list written to LMEM is read back. -/
theorem memRead_memWrite_same (p : Nat) (L : List Byte) (s : State) : memRead (memWrite p L s) p L.length = L := by
  refine List.ext_getElem (by simp) fun i hi hi' => ?_
  rw [memRead_getElem, readByte_memWrite, if_pos (by omega), Nat.add_sub_cancel_left, List.getD_eq_getElem _ _ hi']

/-- The pixel at position k of the bytes from offset p on. -/
theorem memRead_pixel (s : State) (p : Nat) {m k : Nat} (hk : k < 8 * m) :
    ((memRead s p m).flatMap bytePixels).getD k false = (readByte s (p + k / 8)).getLsbD (7 - k % 8) := by
  have hbyte : k / 8 < (memRead s p m).length := by rw [memRead_length]; omega
  rw [flatMap_bytePixels_getD, List.getD_eq_getElem _ _ hbyte, memRead_getElem]

theorem planeRead_length (s : State) (p n : Nat) : (planeRead s p n).length = n := by
  rw [planeRead, List.length_take, flatMap_bytePixels_length, memRead_length, Nat.min_eq_left (le_planeSize n)]

theorem planeRead_getD (s : State) (p : Nat) {n k : Nat} (hk : k < n) :
    (planeRead s p n).getD k false = (readByte s (p + k / 8)).getLsbD (7 - k % 8) := by
  rw [← memRead_pixel s p (Nat.lt_of_lt_of_le hk (le_planeSize n))]
  simp [planeRead, List.getD_eq_getElem?_getD, hk]

/-- All the pixels that PlaneWrite leaves in the bytes of its range: the given ones, then padding. -/
theorem memRead_planeWrite_pixels (p n : Nat) (P : List Pixel) (s : State) :
    (memRead (planeWrite p n P s) p (planeSize n)).flatMap bytePixels = takePad (8 * planeSize n) false P := by
  have hback := memRead_memWrite_same p (planeBytes (planeSize n) P) s
  rw [planeBytes_length] at hback
  rw [planeWrite, hback, planeBytes_pixels]

theorem planeRead_planeWrite_same (p : Nat) (P : List Pixel) (s : State) :
    planeRead (planeWrite p P.length P s) p P.length = P := by
  rw [planeRead, memRead_planeWrite_pixels, takePad, List.take_of_length_le (le_planeSize _), List.take_left]

theorem planeWrite_padding (p : Nat) (P : List Pixel) (s : State) {k : Nat} (hge : P.length ≤ k)
    (hk : k < 8 * planeSize P.length) :
    (readByte (planeWrite p P.length P s) (p + k / 8)).getLsbD (7 - k % 8) = false := by
  rw [← memRead_pixel _ p hk, memRead_planeWrite_pixels, takePad_getD _ _ _ _ hk, List.getD_eq_default _ _ hge]

theorem readByte_planeWrite_outside (p n : Nat) (P : List Pixel) (s : State) {a : Nat}
    (ha : ¬(p ≤ a ∧ a < p + planeSize n)) : readByte (planeWrite p n P s) a = readByte s a := by
  rw [planeWrite, readByte_memWrite, planeBytes_length, if_neg ha]

/-- Settles O45: the reads by `memRead_pixel`; after PlaneWrite the range holds `takePad`'s pixels, the plane's and then
the padding, by `memRead_planeWrite_pixels`. -/
theorem planeLayout : Obligations.PlaneLayout := by
  intro s p n
  refine ⟨planeRead_length s p n, fun k hk => planeRead_getD s p hk, ?_⟩
  rintro P rfl
  exact ⟨planeRead_planeWrite_same p P s, fun k hge hk => planeWrite_padding p P s hge hk,
    fun a ha => readByte_planeWrite_outside p _ P s ha⟩

end Sys2Proof.Machine
end

/-! ### The two encoded languages -/

section
namespace Sys2Proof.Machine

/-! #### Command words (R90, R91) -/

/-- No opcode stands twice in the map, so a search by opcode finds the row itself. -/
theorem find?_opcodeMap_of_mem : ∀ row ∈ opcodeMap, opcodeMap.find? (fun r => r.1 == row.1) = some row := by decide

/-- A word decodes exactly if its reserved field is 0 and its opcode field is in the map (R90, R91). -/
theorem decodeCommand_ok_iff (w : Word) (i : Instr) :
    decodeCommand w = .ok i ↔ reservedField w = 0 ∧ (opField w, i) ∈ opcodeMap := by
  constructor
  · intro h
    unfold decodeCommand at h
    split at h
    · cases h
    · next hres =>
      split at h
      · next row hfind =>
        cases h
        have hop : row.1 = opField w := by simpa using List.find?_some hfind
        exact ⟨Decidable.not_not.1 hres, hop ▸ List.mem_of_find?_eq_some hfind⟩
      · cases h
  · rintro ⟨hres, hmem⟩
    simp [decodeCommand, hres, find?_opcodeMap_of_mem _ hmem]

/-- A command word is its reserved field above its opcode field (R90). -/
theorem reservedField_append_opField (w : Word) : (reservedField w ++ opField w : Word) = w :=
  BitVec.extractLsb'_append_extractLsb' (w := 24) (len := 8)

/-- The words whose reserved field is 0 are the command words of their opcodes. -/
theorem eq_commandWord_iff (w : Word) (op : Byte) : w = commandWord op ↔ reservedField w = 0 ∧ opField w = op := by
  have hword : commandWord op = 0#24 ++ op := zeroExtend_eq_append 24 op
  constructor
  · rintro rfl
    rw [hword]
    exact ⟨BitVec.extractLsb'_append_eq_left, BitVec.extractLsb'_append_eq_right⟩
  · rintro ⟨hres, rfl⟩
    calc w = reservedField w ++ opField w := (reservedField_append_opField w).symm
      _ = commandWord (opField w) := by rw [hres, hword]; rfl

/-- The opcode map as pairs of a whole word and its command. -/
theorem decodeCommand_ok_iff_mem_map (w : Word) (i : Instr) :
    decodeCommand w = .ok i ↔ (w, i) ∈ opcodeMap.map fun row => (commandWord row.1, row.2) := by
  simp only [decodeCommand_ok_iff, List.mem_map, Prod.mk.injEq, Prod.exists]
  constructor
  · rintro ⟨hres, hmem⟩
    exact ⟨_, _, hmem, ((eq_commandWord_iff w _).2 ⟨hres, rfl⟩).symm, rfl⟩
  · rintro ⟨op, _, hmem, hw, rfl⟩
    obtain ⟨hres, rfl⟩ := (eq_commandWord_iff w op).1 hw.symm
    exact ⟨hres, hmem⟩

/-- Settles O3: the fourteen pairs are the opcode map with its opcodes widened to words. -/
theorem legalWordsAreFourteen : Obligations.LegalWordsAreFourteen :=
  decodeCommand_ok_iff_mem_map

/-- An instruction's opcode is the one the opcode map gives it. -/
theorem mem_opcodeMap_of_opcodeOf {i : Instr} {op : Byte} (h : opcodeOf i = some op) : (op, i) ∈ opcodeMap := by
  cases i with
  | rleLit _ | rleRun3 _ _ _ | rleRun2 _ _ | rleRun1 _ _ _ => cases h
  | _ => cases h; decide

theorem decodeCommand_commandWord {i : Instr} {op : Byte} (h : opcodeOf i = some op) :
    decodeCommand (commandWord op) = .ok i := by
  obtain ⟨hres, hop⟩ := (eq_commandWord_iff _ op).1 rfl
  exact (decodeCommand_ok_iff _ i).2 ⟨hres, hop.symm ▸ mem_opcodeMap_of_opcodeOf h⟩

/-! #### The bytes of a word -/

theorem leBytes_succ (k v : Nat) : leBytes (k + 1) v = BitVec.ofNat 8 v :: leBytes k (v >>> 8) := by
  simp [leBytes, List.range_succ_eq_map, Function.comp_def, ← Nat.shiftRight_add, Nat.mul_succ, Nat.add_comm]

/-- The bytes of a number give back the number, as far as they hold it (R10). -/
theorem leValue_leBytes (k v : Nat) : leValue (leBytes k v) = v % 2 ^ (8 * k) := by
  induction k generalizing v with
  | zero => simp [leBytes, leValue, Nat.mod_one]
  | succ k ih =>
    rw [leBytes_succ, leValue, ih, BitVec.toNat_ofNat, Nat.shiftRight_eq_div_pow, Nat.mul_succ,
      Nat.add_comm (8 * k), Nat.pow_add, Nat.mod_mul]

/-- The first four bytes of a stream that begins with a word's bytes are the word. -/
theorem ofNat_leValue_take_leBytes (w : Word) (rest : List Byte) :
    BitVec.ofNat 32 (leValue ((leBytes 4 w.toNat ++ rest).take 4)) = w := by
  rw [List.take_left' (leBytes_length 4 _), leValue_leBytes, Nat.mod_eq_of_lt w.isLt, BitVec.ofNat_toNat,
    BitVec.setWidth_eq]

/-- The command half of the round trip (R90, R91). -/
theorem decodeAs_encode_command {i : Instr} {op : Byte} (h : opcodeOf i = some op) (rest : List Byte) :
    decodeAs true (encode i ++ rest) = some i := by
  have hlen : 4 ≤ (leBytes 4 (commandWord op).toNat ++ rest).length := by simp
  simp only [decodeAs, encode, h, if_true, if_pos hlen, ofNat_leValue_take_leBytes, decodeCommand_commandWord h]
  rfl

/-! #### The first byte of a token (R94, R95) -/

theorem extractLsb'_one {w : Nat} (x : BitVec w) (k : Nat) : x.extractLsb' k 1 = BitVec.ofBool (x.getLsbD k) := by
  apply BitVec.eq_of_getLsbD_eq
  intro j hj
  obtain rfl : j = 0 := by omega
  simp

/-- A bit vector is its top bit above the others. -/
theorem ofBool_append_extractLsb' {n : Nat} (x : BitVec (1 + n)) :
    BitVec.ofBool (x.getLsbD n) ++ x.extractLsb' 0 n = x := by
  rw [← extractLsb'_one]
  exact BitVec.extractLsb'_append_extractLsb'

/-- The test for a literal block is the test of bit 7. -/
theorem literal_kind_iff (sb : Byte) : sb &&& 0x80 = 0x80 ↔ sb.getLsbD 7 = true := by
  have hmask : sb &&& 0x80 = if sb.getLsbD 7 then 0x80 else 0 := BitVec.and_twoPow sb 7
  rw [hmask]
  split <;> simp_all

/-- A literal block is bit 7 above its seven pixels. -/
theorem literalByte_fields {sb : Byte} (h : sb &&& 0x80 = 0x80) : (1#1 ++ sb.extractLsb' 0 7 : Byte) = sb := by
  have hsplit := ofBool_append_extractLsb' (n := 7) sb
  rwa [(literal_kind_iff sb).1 h] at hsplit

/-- The first byte of a run token: bit 7 clear, the value in bit 6, and six bits that tell the kind. -/
def runByte (v : Pixel) (low : BitVec 6) : Byte := 0#1 ++ BitVec.ofBool v ++ low

@[simp] theorem runByte_bit7 (v : Pixel) (low : BitVec 6) : (runByte v low).getLsbD 7 = false := by
  rw [runByte, BitVec.getLsbD_append, BitVec.getLsbD_append]
  rfl

@[simp] theorem runByte_value (v : Pixel) (low : BitVec 6) : (runByte v low).getLsbD 6 = v := by
  rw [runByte, BitVec.getLsbD_append, BitVec.getLsbD_append]
  cases v <;> rfl

@[simp] theorem runByte_bit5 (v : Pixel) (low : BitVec 6) : (runByte v low).getLsbD 5 = low.getLsbD 5 := by
  rw [runByte, BitVec.getLsbD_append]
  rfl

@[simp] theorem runByte_extractLsb' (v : Pixel) (low : BitVec 6) {k : Nat} (hk : k ≤ 6) :
    (runByte v low).extractLsb' 0 k = low.extractLsb' 0 k :=
  BitVec.extractLsb'_append_eq_of_add_le (by omega)

theorem runByte_inj (v : Pixel) {low low' : BitVec 6} : runByte v low = runByte v low' ↔ low = low' := by
  refine ⟨fun h => ?_, congrArg _⟩
  have hlow := congrArg (fun sb => sb.extractLsb' 0 6) h
  simpa [BitVec.extractLsb'_eq_self] using hlow

/-- A run byte is no literal block. -/
theorem runByte_not_literal (v : Pixel) (low : BitVec 6) : ¬runByte v low &&& 0x80 = 0x80 := by
  rw [literal_kind_iff, runByte_bit7]
  exact Bool.false_ne_true

/-- Every byte that is no literal block is a run byte. -/
theorem exists_runByte {sb : Byte} (h : ¬sb &&& 0x80 = 0x80) : ∃ v low, sb = runByte v low := by
  have h7 : sb.getLsbD 7 = false := Bool.eq_false_iff.2 (mt (literal_kind_iff sb).2 h)
  refine ⟨sb.getLsbD 6, sb.extractLsb' 0 6, ?_⟩
  calc sb = sb.extractLsb' 6 2 ++ sb.extractLsb' 0 6 :=
        (BitVec.extractLsb'_append_extractLsb' (w := 2) (len := 6)).symm
    _ = sb.extractLsb' 7 1 ++ sb.extractLsb' 6 1 ++ sb.extractLsb' 0 6 :=
        congrArg (· ++ sb.extractLsb' 0 6)
          (BitVec.extractLsb'_append_extractLsb'_eq_extractLsb' (start₁ := 6) (len₁ := 1) (len₂ := 1) rfl).symm
    _ = runByte (sb.getLsbD 6) (sb.extractLsb' 0 6) := by rw [extractLsb'_one, extractLsb'_one, h7]; rfl

/-- The tests for a 3-byte and a 2-byte run clear the value and compare the six bits below it. -/
theorem run_kind_iff (v : Pixel) (low c : BitVec 6) : runByte v low &&& 0xBF = runByte false c ↔ low = c := by
  have hmask : (0xBF : Byte) = 1#1 ++ 0#1 ++ BitVec.allOnes 6 := by decide
  have hclear : runByte v low &&& 0xBF = runByte false low := by
    rw [runByte, hmask, BitVec.and_append, BitVec.and_append, BitVec.and_allOnes, BitVec.and_zero]
    rfl
  rw [hclear, runByte_inj]

/-! #### Tokens (R94, R95) -/

theorem decodeToken_literal (p : BitVec 7) (rest : List Byte) :
    decodeToken ((1#1 ++ p : Byte) :: rest) = .ok (.rleLit p) := by
  have hkind : (1#1 ++ p : Byte) &&& 0x80 = 0x80 := (literal_kind_iff _).2 (by rw [BitVec.getLsbD_append]; rfl)
  simp only [decodeToken, if_pos hkind, BitVec.extractLsb'_append_eq_right]

theorem decodeToken_run3 (v : Pixel) (lo hi : Byte) (rest : List Byte) :
    decodeToken (runByte v 0 :: lo :: hi :: rest) = .ok (.rleRun3 v lo hi) := by
  have hkind : runByte v 0 &&& 0xBF = 0x00 := (run_kind_iff v 0 0).2 rfl
  simp only [decodeToken, if_neg (runByte_not_literal v 0), if_pos hkind, runByte_value]

theorem decodeToken_run2 (v : Pixel) (n : Byte) (rest : List Byte) :
    decodeToken (runByte v 1 :: n :: rest) = .ok (.rleRun2 v n) := by
  have hkind3 : ¬runByte v 1 &&& 0xBF = 0x00 := mt (run_kind_iff v 1 0).1 (by decide)
  have hkind : runByte v 1 &&& 0xBF = 0x01 := (run_kind_iff v 1 1).2 rfl
  simp only [decodeToken, if_neg (runByte_not_literal v 1), if_neg hkind3, if_pos hkind, runByte_value]

/-- Any other run byte is a token of its own: bit 5 is its `x`, bits 4:0 its length. -/
theorem decodeToken_run1 (v : Pixel) {low : BitVec 6} (h0 : low ≠ 0) (h1 : low ≠ 1) (rest : List Byte) :
    decodeToken (runByte v low :: rest) = .ok (.rleRun1 v (low.getLsbD 5) (low.extractLsb' 0 5)) := by
  have hkind3 : ¬runByte v low &&& 0xBF = 0x00 := mt (run_kind_iff v low 0).1 h0
  have hkind2 : ¬runByte v low &&& 0xBF = 0x01 := mt (run_kind_iff v low 1).1 h1
  simp only [decodeToken, if_neg (runByte_not_literal v low), if_neg hkind3, if_neg hkind2, runByte_value, runByte_bit5,
    runByte_extractLsb' v low (k := 5) (by decide)]

theorem tokenBytes_run1 (v x : Pixel) (r : BitVec 5) :
    tokenBytes (.rleRun1 v x r) = [runByte v (BitVec.ofBool x ++ r)] := by
  rw [tokenBytes, runByte, BitVec.append_assoc]
  rfl

/-- A 1-byte run has an encoding unless its six low bits are those of a longer run (log 14). -/
theorem wellFormed_run1_iff (v x : Pixel) (r : BitVec 5) : (Instr.rleRun1 v x r).wellFormed = true ↔
    (BitVec.ofBool x ++ r : BitVec 6) ≠ 0 ∧ (BitVec.ofBool x ++ r : BitVec 6) ≠ 1 := by
  have hbits : ∀ (x : Bool) (r : BitVec 5), (x || decide (2 ≤ r.toNat)) = true ↔
      (BitVec.ofBool x ++ r : BitVec 6) ≠ 0 ∧ (BitVec.ofBool x ++ r : BitVec 6) ≠ 1 := by decide
  exact hbits x r

/-- The token half of the round trip. -/
theorem decodeToken_tokenBytes {i : Instr} (hi : i.isCommand = false) (hwf : i.wellFormed = true) (rest : List Byte) :
    decodeToken (tokenBytes i ++ rest) = .ok i := by
  cases i with
  | rleLit p => exact decodeToken_literal p rest
  | rleRun3 v lo hi => exact decodeToken_run3 v lo _ rest
  | rleRun2 v n => exact decodeToken_run2 v n rest
  | rleRun1 v x r =>
    obtain ⟨h0, h1⟩ := (wellFormed_run1_iff v x r).1 hwf
    have hx : (BitVec.ofBool x ++ r : BitVec 6).getLsbD 5 = x := by rw [BitVec.getLsbD_append]; simp
    have hr : (BitVec.ofBool x ++ r : BitVec 6).extractLsb' 0 5 = r := BitVec.extractLsb'_append_eq_right
    rw [tokenBytes_run1, List.singleton_append, decodeToken_run1 v h0 h1, hx, hr]
  | _ => cases hi

/-- A token that the decoder reads has its bytes at the front of the stream. -/
theorem decodeToken_front {S : List Byte} {i : Instr} (h : decodeToken S = .ok i) :
    i.isCommand = false ∧ i.wellFormed = true ∧ ∃ rest, S = tokenBytes i ++ rest := by
  rcases decodeToken_cases h with ⟨sb, rest, rfl, rfl, hlit⟩ | ⟨sb, lo, hi, rest, rfl, rfl, hlit, hkind⟩ |
    ⟨sb, n, rest, rfl, rfl, hlit, _, hkind⟩ | ⟨sb, rest, rfl, rfl, hlit, hkind3, hkind2⟩
  · exact ⟨rfl, rfl, rest, congrArg (· :: rest) (literalByte_fields hlit).symm⟩
  · obtain ⟨v, low, rfl⟩ := exists_runByte hlit
    obtain rfl := (run_kind_iff v low 0).1 hkind
    rw [runByte_value]
    exact ⟨rfl, rfl, rest, rfl⟩
  · obtain ⟨v, low, rfl⟩ := exists_runByte hlit
    obtain rfl := (run_kind_iff v low 1).1 hkind
    rw [runByte_value]
    exact ⟨rfl, rfl, rest, rfl⟩
  · obtain ⟨v, low, rfl⟩ := exists_runByte hlit
    have hlow : (BitVec.ofBool (low.getLsbD 5) ++ low.extractLsb' 0 5 : BitVec 6) = low :=
      ofBool_append_extractLsb' (n := 5) low
    rw [runByte_value, runByte_bit5, runByte_extractLsb' v low (by decide), wellFormed_run1_iff, tokenBytes_run1, hlow]
    exact ⟨rfl, ⟨mt (run_kind_iff v low 0).2 hkind3, mt (run_kind_iff v low 1).2 hkind2⟩, rest, rfl⟩

/-! #### Both languages -/

/-- The commands are the instructions with an opcode. -/
theorem opcodeOf_isSome (i : Instr) : (opcodeOf i).isSome = i.isCommand := by
  cases i <;> rfl

theorem encode_token {i : Instr} (hi : i.isCommand = false) : encode i = tokenBytes i := by
  have hop : opcodeOf i = none := by simpa [hi] using opcodeOf_isSome i
  rw [encode, hop]

/-- Settles O1: a command word comes back from its four bytes, a token from the front of the stream. -/
theorem decodeInvertsEncode : Obligations.DecodeInvertsEncode := by
  intro i rest hwf
  cases hi : i.isCommand with
  | true =>
    obtain ⟨op, hop⟩ := Option.isSome_iff_exists.1 ((opcodeOf_isSome i).trans hi)
    exact decodeAs_encode_command hop rest
  | false =>
    rw [encode_token hi, decodeAs, if_neg Bool.false_ne_true, decodeToken_tokenBytes hi hwf]
    rfl

/-- Settles O2: the four cases are those of `decodeToken_front`. -/
theorem decodedTokenIsFrontOfStream : Obligations.DecodedTokenIsFrontOfStream := by
  intro S i h
  obtain ⟨hi, hwf, hfront⟩ := decodeToken_front h
  exact ⟨hi, hwf, (encode_token hi).symm ▸ hfront⟩

/-- Settles O4: eight closed words, evaluated. -/
theorem sampleWordsDecode : Obligations.SampleWordsDecode := by
  refine ⟨?_, ?_, ?_, ?_, ?_, ?_, ?_, ?_⟩ <;> decide

end Sys2Proof.Machine
end

/-! ### PH_BUILD -/

section
namespace Sys2Proof.Machine

/-- be_4 of a word, byte by byte (R10). -/
theorem beBytes_four (w : Word) : beBytes 4 w.toNat =
    [w.extractLsb' 24 8, w.extractLsb' 16 8, w.extractLsb' 8 8, w.extractLsb' 0 8] := rfl

/-- be_2 of a 16-bit value, byte by byte (R10). -/
theorem beBytes_two (h : Half) : beBytes 2 h.toNat = [h.extractLsb' 8 8, h.extractLsb' 0 8] := rfl

/-- A flag above a field, as a number. -/
theorem toNat_ofBool_append (b : Bool) {n : Nat} (x : BitVec n) :
    (BitVec.ofBool b ++ x).toNat = x.toNat ||| (if b then 2 ^ n else 0) := by
  cases b <;> simp [BitVec.toNat_append, Nat.one_shiftLeft, Nat.or_comm]

/-- The upper byte of a flag above a 15-bit field. -/
theorem extractLsb'_ofBool_append (b : Bool) (x : BitVec 15) :
    (BitVec.ofBool b ++ x : Half).extractLsb' 8 8 = BitVec.ofBool b ++ x.extractLsb' 8 7 := by
  rw [BitVec.extractLsb'_append_eq_ite]
  simp

/-- The 13 bytes of the plane header, from the fields of its operands (R97, R175). -/
theorem planeHeader_eq (red : Bool) (w : BitVec 16) (h : BitVec 15) (len : Word) :
    planeHeader red (w.toNat + 1) (h.toNat + 1) len.toNat =
      [0xFC, BitVec.ofBool red ++ 0#7, 0x00, 0x00, 0x00, BitVec.ofBool red ++ h.extractLsb' 8 7, h.extractLsb' 0 8,
        w.extractLsb' 8 8, w.extractLsb' 0 8, len.extractLsb' 24 8, len.extractLsb' 16 8, len.extractLsb' 8 8,
        len.extractLsb' 0 8] := by
  have hptype : beBytes 4 (if red then 0x80000000 else 0x00000000) = [BitVec.ofBool red ++ 0#7, 0x00, 0x00, 0x00] := by
    cases red <;> rfl
  have hhfield : (h.toNat ||| if red then 0x8000 else 0x0000) = (BitVec.ofBool red ++ h : BitVec 16).toNat :=
    (toNat_ofBool_append red h).symm
  have hlow : (BitVec.ofBool red ++ h : BitVec 16).extractLsb' 0 8 = h.extractLsb' 0 8 :=
    BitVec.extractLsb'_append_eq_of_add_le (by decide)
  simp only [planeHeader, Nat.add_sub_cancel, hptype, hhfield, beBytes_two, beBytes_four, extractLsb'_ofBool_append,
    hlow]
  rfl

/-- A field of a field. -/
theorem extractLsb'_extractLsb' {w : Nat} (x : BitVec w) (start : Nat) {n k len : Nat} (h : k + len ≤ n) :
    (x.extractLsb' start n).extractLsb' k len = x.extractLsb' (start + k) len := by
  apply BitVec.eq_of_getLsbD_eq
  intro i hi
  simp only [BitVec.getLsbD_extractLsb', hi, show k + i < n by omega, decide_true, Bool.true_and, Nat.add_assoc]

/-- The plane header that the latch stands for, in the fields of PARAM, DIM and LEN (R93, R97). -/
theorem planeHeader_latch (l : Latch) : planeHeader (opRed l) (opWidth l) (opHeight l) (opLen l) =
    [0xFC, l.param.extractLsb' 0 1 ++ 0#7, 0x00, 0x00, 0x00, l.param.extractLsb' 0 1 ++ l.dim.extractLsb' 24 7,
      l.dim.extractLsb' 16 8, l.dim.extractLsb' 8 8, l.dim.extractLsb' 0 8, l.len.extractLsb' 24 8,
      l.len.extractLsb' 16 8, l.len.extractLsb' 8 8, l.len.extractLsb' 0 8] := by
  simp only [opRed, opWidth, opHeight, opLen, planeHeader_eq, ← extractLsb'_one]
  simp only [extractLsb'_extractLsb', Nat.reduceAdd, Nat.reduceLeDiff]

/-- PARAM has a bit above bit 0 exactly if it is at least 2. -/
theorem badParam_phBuild (l : Latch) : badParam .phBuild l = decide (2 ≤ l.param.toNat) := by
  have hfield : (l.param.extractLsb' 1 31).toNat = l.param.toNat / 2 := by
    rw [BitVec.extractLsb'_toNat, Nat.shiftRight_eq_div_pow, Nat.mod_eq_of_lt (by omega)]
  rw [Bool.eq_iff_iff, badParam, bne_iff_ne, Ne, ← BitVec.toNat_inj, hfield, decide_eq_true_iff]
  show ¬l.param.toNat / 2 = 0 ↔ _
  omega

/-- A range that is not valid, in numbers. -/
theorem badRange_some_eq (size : Nat) (r : Range) : badRange size (some r) = decide (size < r.start + r.len) := by
  simp [badRange, Range.valid, ← decide_not]

/-- A command without an input range has no overlap (R133, check 7). -/
theorem badOverlap_of_inputRange_none {i : Instr} {l : Latch} (h : inputRange i l = none) : badOverlap i l = false := by
  rw [badOverlap, h]
  cases outputRange i l <;> rfl

/-- The checks of PH_BUILD: a PARAM bit above bit 0, then the 13 bytes from DST (R133, R177). -/
theorem commonCheck_phBuild (s : State) : commonCheck .phBuild s =
    if 2 ≤ s.lat.param.toNat then some .badParam
    else if s.params.lmemSize < s.lat.dst.toNat + 13 then some .range else none := by
  have hrange : badRange s.params.lmemSize (outputRange .phBuild s.lat) =
      decide (s.params.lmemSize < s.lat.dst.toNat + 13) := badRange_some_eq _ _
  have hinput : badRange s.params.lmemSize (inputRange .phBuild s.lat) = false := rfl
  have hoverlap : badOverlap .phBuild s.lat = false := badOverlap_of_inputRange_none rfl
  simp [commonCheck, firstError, badParam_phBuild, hinput, hrange, hoverlap, needsKey, locksKey, countsPackets, badSeq]

/-- Settles O18: the three cases are those of `commonCheck_phBuild`, and the header is `planeHeader_latch`. -/
theorem phBuildWritesHeader : Obligations.PhBuildWritesHeader := by
  refine ⟨decodeCommand_commandWord (i := .phBuild) (op := 0x13) rfl, fun s ht => ?_⟩
  have hcheck := commonCheck_phBuild s
  refine ⟨fun hparam hdst => ⟨_, ?_, stores_writeList s _ _⟩, fun hparam => ?_, fun hparam hdst => ?_⟩
  · rw [if_neg (by omega), if_neg (by omega)] at hcheck
    rw [exec_phBuild, runCommand_effect ht hcheck, phBuildEffect, planeHeader_latch, complete_eq_finish,
      finish_noError]
    rfl
  · rw [if_pos hparam] at hcheck
    rw [exec_phBuild, runCommand_error ht hcheck]
  · rw [if_neg (by omega), if_pos hdst] at hcheck
    rw [exec_phBuild, runCommand_error ht hcheck]

end Sys2Proof.Machine
end

/-! ### The host's wait -/

section
namespace Sys2Proof.Machine

/-- The host inside a `wait`: no token walk is in progress (R74, R101). -/
theorem step_wait {s : State} (ha : s.dec.active = false) {n : Nat} {ts : List Turn} (ht : s.turns = .wait n :: ts) :
    step s = .next (answer (csrRead .status s) (setTurns (if s.status.busy then pollAgain n ts else ts) s)) := by
  rw [← waitStep_eq, step, if_neg (by simp [ha]), ht]

/-- The engine's turn. -/
theorem step_engine {s : State} (ha : s.dec.active = false) {ts : List Turn} (ht : s.turns = .engine :: ts) :
    step s = engineStep (setTurns ts s) := by
  rw [step, if_neg (by simp [ha]), ht]

/-- A run goes on from the state after its first step. -/
theorem runSteps_succ_of_step {s t : State} (h : step s = .next t) (k : Nat) : runSteps (k + 1) s = runSteps k t := by
  rw [runSteps, h]

/-- The engine's turn ends the running command, and neither the schedule nor the host's answers are the engine's
(R134, R136). -/
theorem engineStep_completes {s : State} (hb : s.status.busy = true) :
    ∃ t, engineStep s = .next t ∧ t.dec.active = false ∧ t.status.busy = false ∧ t.turns = s.turns ∧
      t.busReads = s.busReads := by
  rcases engineStep_cases s with ⟨hidle, _⟩ | ⟨_, _, _, hx⟩ | ⟨_, i, hi, hx⟩
  · rw [hb] at hidle
    cases hidle
  · exact ⟨_, hx, rfl, rfl, rfl, rfl⟩
  · obtain ⟨e, r, u, hu, _, heff⟩ := exec_command_form i (decodeCommand_isCommand hi) s
    exact ⟨_, hx.trans hu, rfl, rfl, heff.turns, heff.busReads⟩

/-- From `s` some steps use the wait up: the schedule is then `ts` and no command runs, and the values that the host has
read are some with BUSY = 1 and then one with BUSY = 0 (R101). -/
def WaitEnds (ts : List Turn) (s : State) : Prop :=
  ∃ k t v vs, runSteps k s = .next t ∧ t.turns = ts ∧ t.status.busy = false ∧ t.busReads = v :: vs ++ s.busReads ∧
    v.getLsbD 0 = false ∧ ∀ u ∈ vs, u.getLsbD 0 = true

/-- A step that answers the host nothing leaves the wait to what follows it. -/
theorem WaitEnds.of_step {s t : State} {ts : List Turn} (hstep : step s = .next t) (hreads : t.busReads = s.busReads)
    (h : WaitEnds ts t) : WaitEnds ts s := by
  obtain ⟨k, u, v, vs, hrun, hturns, hbusy, hu, hv, hvs⟩ := h
  exact ⟨k + 1, u, v, vs, (runSteps_succ_of_step hstep k).trans hrun, hturns, hbusy, hreads ▸ hu, hv, hvs⟩

/-- A poll ends the wait if it reads BUSY = 0, and else leaves it to what follows the poll. -/
theorem waitEnds_of_poll {s : State} (ha : s.dec.active = false) {n : Nat} {ts : List Turn}
    (ht : s.turns = .wait n :: ts)
    (hnext : s.status.busy = true → WaitEnds ts (answer (csrRead .status s) (setTurns (pollAgain n ts) s))) :
    WaitEnds ts s := by
  have hstep := step_wait ha ht
  have hbit := csrRead_status_busy s
  cases hb : s.status.busy with
  | false =>
    rw [hb, if_neg Bool.false_ne_true] at hstep
    exact ⟨1, _, _, [], runSteps_succ_of_step hstep 0, rfl, hb, rfl, hbit.trans hb, nofun⟩
  | true =>
    rw [hb, if_pos rfl] at hstep
    obtain ⟨k, t, v, vs, hrun, hturns, hbusy, hreads, hv, hvs⟩ := hnext hb
    refine ⟨k + 1, t, v, vs ++ [csrRead .status s], (runSteps_succ_of_step hstep k).trans hrun, hturns, hbusy, ?_, hv,
      fun u hu => ?_⟩
    · rw [hreads, List.cons_append, List.cons_append, List.append_assoc]
      rfl
    · rcases List.mem_append.1 hu with hu | hu
      · exact hvs u hu
      · rw [List.mem_singleton.1 hu, hbit, hb]

/-- The engine's turn in front of a wait, while a command runs: the poll after it reads BUSY = 0. -/
theorem waitEnds_of_engine {s : State} (ha : s.dec.active = false) {n : Nat} {ts : List Turn}
    (ht : s.turns = .engine :: .wait n :: ts) (hb : s.status.busy = true) : WaitEnds ts s := by
  obtain ⟨t, hx, hactive, hbusy, hturns, hreads⟩ := engineStep_completes (s := setTurns (.wait n :: ts) s) hb
  refine .of_step ((step_engine ha ht).trans hx) hreads (waitEnds_of_poll hactive hturns fun h => ?_)
  rw [hbusy] at h
  cases h

/-- Every wait ends, by induction on the polls that the schedule puts before the engine's step (R136, log 20). -/
theorem waitEnds {s : State} (ha : s.dec.active = false) {n : Nat} {ts : List Turn} (ht : s.turns = .wait n :: ts) :
    WaitEnds ts s := by
  induction n generalizing s with
  | zero =>
    refine waitEnds_of_poll ha ht fun hb => waitEnds_of_engine (n := 0) ?_ rfl ?_
    · exact ha
    · exact hb
  | succ n ih =>
    refine waitEnds_of_poll ha ht fun _ => ih ?_ rfl
    exact ha

/-- Settles O60: one poll is `step_wait`, and `waitEnds` is the end of the wait. -/
theorem waitPollsUntilIdle : Obligations.WaitPollsUntilIdle := by
  intro s n ts ha ht
  have hbit := csrRead_status_busy s
  refine ⟨⟨_, _, _, step_wait ha ht, rfl, hbit, fun hv => ?_, fun hv => ?_⟩, waitEnds ha ht⟩
  · rw [← hbit, hv, if_neg Bool.false_ne_true]
    rfl
  · rw [← hbit, hv, if_pos rfl]
    cases n with
    | zero => exact ⟨0, .inr rfl⟩
    | succ n => exact ⟨n, .inl rfl⟩

end Sys2Proof.Machine
end

/-! ### What the encoder emits -/

section
namespace Sys2Proof.Machine

/-! #### One token -/

/-- The token of a run, by its length (R96, R202). -/
def runInstr (v : Pixel) (r : Nat) : Instr :=
  if r ≤ 31 then .rleRun1 v false (BitVec.ofNat 5 r)
  else if r ≤ 255 then .rleRun2 v (BitVec.ofNat 8 r)
  else .rleRun3 v (BitVec.ofNat 8 (r % 256)) (BitVec.ofNat 8 (r / 256))

/-- The field of the next seven pixels, zero past the plane's end (R203). -/
def literalField (P : List Pixel) : BitVec 7 := BitVec.ofNat 7 (packBits (takePad 7 false P))

/-- The first byte of a run token, as the encoder computes it. -/
theorem ofNat_eq_runByte (v : Pixel) (low : BitVec 6) :
    BitVec.ofNat 8 ((v.toNat <<< 6) ||| low.toNat) = runByte v low := by
  have hnat : (runByte v low).toNat = (v.toNat <<< 6) ||| low.toNat := by
    rw [runByte, BitVec.toNat_append, BitVec.toNat_append, BitVec.toNat_ofBool]
    simp
  rw [← hnat, BitVec.ofNat_toNat, BitVec.setWidth_eq]

theorem encodeRun_eq_encode (v : Pixel) {r : Nat} (hr : r ≤ 0xFFFF) : encodeRun v r = encode (runInstr v r) := by
  unfold encodeRun runInstr
  split
  · next h1 =>
    have hlow : (BitVec.ofBool false ++ BitVec.ofNat 5 r : BitVec 6).toNat = r := by
      rw [BitVec.toNat_append, BitVec.toNat_ofNat, Nat.mod_eq_of_lt (by omega)]
      simp
    rw [encode_token rfl, tokenBytes_run1, ← ofNat_eq_runByte, hlow]
  · split
    · exact congrArg (fun sb => [sb, BitVec.ofNat 8 r]) (ofNat_eq_runByte v 1)
    · have hlo : r &&& 0xFF = r % 256 := Nat.and_two_pow_sub_one_eq_mod r 8
      have hhi : (r >>> 8) &&& 0xFF = r / 256 := by
        rw [Nat.and_two_pow_sub_one_eq_mod _ 8, Nat.shiftRight_eq_div_pow]
        omega
      rw [hlo, hhi]
      exact congrArg (fun sb => [sb, BitVec.ofNat 8 (r % 256), BitVec.ofNat 8 (r / 256)])
        ((congrArg _ (Nat.or_zero _).symm).trans (ofNat_eq_runByte v 0))

theorem encodeLiteral_eq_encode (P : List Pixel) : [encodeLiteral P] = encode (.rleLit (literalField P)) := by
  have hbyte (n : Nat) : BitVec.ofNat 8 (0x80 ||| n) = (1#1 ++ BitVec.ofNat 7 n : Byte) := by
    apply BitVec.eq_of_getLsbD_eq
    intro i hi
    rw [BitVec.getLsbD_append, BitVec.getLsbD_ofNat, BitVec.getLsbD_ofNat, Nat.testBit_or,
      show 0x80 = 2 ^ 7 from rfl, Nat.testBit_two_pow]
    by_cases h7 : i < 7
    · simp [h7, hi]; omega
    · obtain rfl : i = 7 := by omega
      simp
  exact congrArg (fun sb => [sb]) (hbyte _)

/-- The literal's field holds the next seven pixels, the first in bit 6 (R95, R203). -/
theorem literalField_pixel (P : List Pixel) {j : Nat} (hj : j < 7) :
    (literalField P).getLsbD (6 - j) = P.getD j false := by
  rw [literalField, BitVec.getLsbD_ofNat, packBits_testBit, ← takePad_getD 7 false P j hj]
  simp only [List.getD_eq_getElem?_getD]
  rw [List.getElem?_reverse (by simp; omega), takePad_length]
  simp [show 6 - j < 7 by omega, show 7 - 1 - (6 - j) = j by omega]

/-- The tokens the encoder may emit (R96). -/
def CanonicalToken (i : Instr) : Prop :=
  (∃ p, i = .rleLit p) ∨ (∃ v r, i = .rleRun1 v false r ∧ 7 ≤ r.toNat) ∨
    (∃ v n, i = .rleRun2 v n ∧ 32 ≤ n.toNat) ∨ (∃ v lo hi, i = .rleRun3 v lo hi ∧ hi ≠ 0)

theorem runInstr_canonical (v : Pixel) {r : Nat} (h7 : 7 ≤ r) (hr : r ≤ 0xFFFF) : CanonicalToken (runInstr v r) := by
  unfold runInstr
  split
  · refine .inr (.inl ⟨v, _, rfl, ?_⟩)
    rw [BitVec.toNat_ofNat]
    omega
  · split
    · refine .inr (.inr (.inl ⟨v, _, rfl, ?_⟩))
      rw [BitVec.toNat_ofNat]
      omega
    · refine .inr (.inr (.inr ⟨v, _, _, rfl, fun h => ?_⟩))
      have hnat := congrArg BitVec.toNat h
      rw [BitVec.toNat_ofNat] at hnat
      simp at hnat
      omega

/-! #### The run at the cursor -/

theorem runAt_le (P : List Pixel) : runAt P ≤ 0xFFFF := by
  cases P with
  | nil => exact Nat.zero_le _
  | cons v rest => exact Nat.min_le_left _ _

/-- The maximal run of the first value, or the cap (R201). -/
theorem runAt_eq {P : List Pixel} {v : Pixel} {r : Nat} (h1 : 1 ≤ r) (hlen : r ≤ P.length) (hcap : r ≤ 0xFFFF)
    (hrun : ∀ j < r, P[j]? = some v) (hend : r = 0xFFFF ∨ r = P.length ∨ P[r]? = some (!v)) : runAt P = r := by
  have htake : P.take r = List.replicate r v := by
    refine List.ext_getElem? fun j => ?_
    rw [List.getElem?_take, List.getElem?_replicate]
    split
    · next hj => exact hrun j hj
    · rfl
  have hwhile : (P.takeWhile (· == v)).length = r + ((P.drop r).takeWhile (· == v)).length := by
    conv_lhs => rw [← List.take_append_drop r P, htake]
    rw [List.takeWhile_append_of_pos (by simp), List.length_append, List.length_replicate]
  have hrunAt : runAt P = min 0xFFFF (r + ((P.drop r).takeWhile (· == v)).length) := by
    rw [← hwhile]
    cases P with
    | nil => exact absurd (Nat.le_trans h1 hlen) (by decide)
    | cons w rest =>
      obtain rfl : w = v := by simpa using hrun 0 h1
      rfl
  rw [hrunAt]
  rcases hend with rfl | rfl | hend
  · exact Nat.min_eq_left (Nat.le_add_right _ _)
  · rw [List.drop_length]
    exact Nat.min_eq_right hcap
  · have hstop : (P.drop r).takeWhile (· == v) = [] := by
      obtain ⟨hlt, hnext⟩ := List.getElem?_eq_some_iff.1 hend
      rw [List.drop_eq_getElem_cons hlt, hnext, List.takeWhile_cons_of_neg (by simp)]
    rw [hstop]
    exact Nat.min_eq_right hcap

/-! #### The loop -/

@[simp] theorem rleEncodeFrom_nil (fuel : Nat) : rleEncodeFrom fuel [] = [] := by
  cases fuel <;> rfl

/-- A run of seven or more gives its run token (R202, R205). -/
theorem rleEncodeFrom_run (fuel : Nat) {v : Pixel} {rest : List Pixel} (h : 7 ≤ runAt (v :: rest)) :
    rleEncodeFrom (fuel + 1) (v :: rest) =
      encode (runInstr v (runAt (v :: rest))) ++ rleEncodeFrom fuel ((v :: rest).drop (runAt (v :: rest))) := by
  rw [← encodeRun_eq_encode v (runAt_le _)]
  exact if_pos h

/-- A shorter run gives a literal block (R203, R205). -/
theorem rleEncodeFrom_literal (fuel : Nat) {v : Pixel} {rest : List Pixel} (h : ¬7 ≤ runAt (v :: rest)) :
    rleEncodeFrom (fuel + 1) (v :: rest) =
      encode (.rleLit (literalField (v :: rest))) ++ rleEncodeFrom fuel ((v :: rest).drop 7) := by
  rw [← encodeLiteral_eq_encode]
  exact if_neg h

/-- One pass of the loop emits one canonical token and moves the cursor on. -/
theorem rleEncodeFrom_pass (v : Pixel) (rest : List Pixel) : ∃ i k, CanonicalToken i ∧ 1 ≤ k ∧
    ∀ fuel, rleEncodeFrom (fuel + 1) (v :: rest) = encode i ++ rleEncodeFrom fuel ((v :: rest).drop k) := by
  by_cases h : 7 ≤ runAt (v :: rest)
  · exact ⟨_, _, runInstr_canonical v h (runAt_le _), by omega, fun fuel => rleEncodeFrom_run fuel h⟩
  · exact ⟨_, _, .inl ⟨_, rfl⟩, by omega, fun fuel => rleEncodeFrom_literal fuel h⟩

/-- The fuel only bounds the tokens: as many as the plane has pixels are enough. -/
theorem rleEncodeFrom_fuel {fuel fuel' : Nat} {P : List Pixel} (h : P.length ≤ fuel) (h' : P.length ≤ fuel') :
    rleEncodeFrom fuel P = rleEncodeFrom fuel' P := by
  induction fuel generalizing fuel' P with
  | zero => rw [List.length_eq_zero_iff.1 (Nat.le_zero.1 h), rleEncodeFrom_nil, rleEncodeFrom_nil]
  | succ fuel ih =>
    cases P with
    | nil => rw [rleEncodeFrom_nil, rleEncodeFrom_nil]
    | cons v rest =>
      obtain ⟨i, k, _, hk, hpass⟩ := rleEncodeFrom_pass v rest
      obtain ⟨fuel', rfl⟩ : ∃ n, fuel' = n + 1 := Nat.exists_eq_add_of_le' (Nat.le_trans (by simp) h')
      have hdrop : ((v :: rest).drop k).length ≤ rest.length := by
        rw [List.length_drop, List.length_cons]
        omega
      rw [hpass, hpass, ih (Nat.le_trans hdrop (Nat.le_of_succ_le_succ h))
        (Nat.le_trans hdrop (Nat.le_of_succ_le_succ h'))]

/-- Where a run is long enough, the encoding is its token and the encoding of the pixels after it. -/
theorem rleEncode_run {v : Pixel} {rest : List Pixel} (h : 7 ≤ runAt (v :: rest)) :
    rleEncode (v :: rest) =
      encode (runInstr v (runAt (v :: rest))) ++ rleEncode ((v :: rest).drop (runAt (v :: rest))) := by
  have hdrop : ((v :: rest).drop (runAt (v :: rest))).length ≤ rest.length := by simp; omega
  rw [rleEncode, List.length_cons, rleEncodeFrom_run _ h, rleEncodeFrom_fuel hdrop le_rfl]
  rfl

theorem rleEncode_literal {v : Pixel} {rest : List Pixel} (h : ¬7 ≤ runAt (v :: rest)) :
    rleEncode (v :: rest) = encode (.rleLit (literalField (v :: rest))) ++ rleEncode ((v :: rest).drop 7) := by
  have hdrop : ((v :: rest).drop 7).length ≤ rest.length := by simp
  rw [rleEncode, List.length_cons, rleEncodeFrom_literal _ h, rleEncodeFrom_fuel hdrop le_rfl]
  rfl

/-- The stream is a sequence of canonical tokens, one for each pass of the loop (R96, R205). -/
theorem rleEncodeFrom_canonical (fuel : Nat) (P : List Pixel) :
    ∃ toks : List Instr, rleEncodeFrom fuel P = toks.flatMap encode ∧ ∀ i ∈ toks, CanonicalToken i := by
  induction fuel generalizing P with
  | zero => exact ⟨[], rfl, nofun⟩
  | succ fuel ih =>
    cases P with
    | nil => exact ⟨[], rfl, nofun⟩
    | cons v rest =>
      obtain ⟨i, k, hi, _, hpass⟩ := rleEncodeFrom_pass v rest
      obtain ⟨toks, heq, htoks⟩ := ih ((v :: rest).drop k)
      refine ⟨i :: toks, ?_, List.forall_mem_cons.2 ⟨hi, htoks⟩⟩
      rw [hpass, heq, List.flatMap_cons]

/-- Settles O48: `rleEncodeFrom_canonical`, then the token at the cursor by the length of the run that stands there. -/
theorem encoderEmitsCanonicalTokens : Obligations.EncoderEmitsCanonicalTokens := by
  refine ⟨fun P => rleEncodeFrom_canonical P.length P, rfl, fun P v r h1 hlen hcap hrun hend => ?_⟩
  have hr := runAt_eq h1 hlen hcap hrun hend
  cases P with
  | nil => exact absurd (Nat.le_trans h1 hlen) (by decide)
  | cons w rest =>
    obtain rfl : w = v := by simpa using hrun 0 h1
    have htoken (h7 : 7 ≤ r) : rleEncode (w :: rest) = encode (runInstr w r) ++ rleEncode ((w :: rest).drop r) := by
      have hpass := rleEncode_run (hr.symm ▸ h7)
      rwa [hr] at hpass
    refine ⟨fun h7 h31 => ?_, fun h32 h255 => ?_, fun h256 => ?_,
      fun h7 => ⟨literalField (w :: rest), ?_, fun j hj => ?_⟩⟩
    · rw [htoken h7, runInstr, if_pos h31]
    · rw [htoken (by omega), runInstr, if_neg (by omega), if_pos h255]
    · rw [htoken (by omega), runInstr, if_neg (by omega), if_neg (by omega)]
    · exact rleEncode_literal (by omega)
    · exact literalField_pixel _ hj

end Sys2Proof.Machine
end

/-! ### Dispatch: what the engine's turn runs, and how a command ends -/

section
namespace Sys2Proof.Machine

/-! #### The engine's turn and the token at the cursor -/

/-- The schedule has run out: the engine moves (R136). -/
theorem step_unscheduled {s : State} (ha : s.dec.active = false) (ht : s.turns = []) : step s = engineStep s := by
  rw [step, if_neg (by simp [ha]), ht]

theorem engineStep_idle {s : State} (hb : s.status.busy = false) : engineStep s = .next s := by
  simp [engineStep, hb]

theorem engineStep_command {s : State} (hb : s.status.busy = true) {i : Instr} (hi : decodeCommand s.lat.cmd = .ok i) :
    engineStep s = exec i s := by
  simp [engineStep, hb, hi]

theorem engineStep_illegal {s : State} (hb : s.status.busy = true) {e : CommandReject}
    (he : decodeCommand s.lat.cmd = .error e) : engineStep s = .next (illegalCommand s) := by
  simp [engineStep, hb, he]

/-- A walk that has pixels left to produce runs the token at its cursor (R207). -/
theorem step_token {s : State} (ha : s.dec.active = true) (hroom : s.dec.out.length < s.dec.total) {i : Instr}
    (hi : decodeToken (s.dec.stream.drop s.dec.pos) = .ok i) : step s = exec i s := by
  rw [step, if_pos ha, decoderStep, if_neg (Nat.not_le.2 hroom), hi]

/-! #### Words placed for the next step -/

theorem toOption_eq_some_iff {ε α : Type} (x : Except ε α) (a : α) : x.toOption = some a ↔ x = .ok a := by
  cases x <;> simp [Except.toOption]

/-- A table row of 32 bits is a command word. -/
theorem decodeTableWord_command_iff (w : Nat) (i : Instr) :
    decodeTableWord 32 w = some i ↔ decodeCommand (BitVec.ofNat 32 w) = .ok i := by
  rw [decodeTableWord, if_neg (by decide), toOption_eq_some_iff]

/-- A table row of at most 24 bits is a token at the front of a stream. -/
theorem decodeTableWord_token_iff {nbits : Nat} (hn : nbits ≤ 24) (w : Nat) (i : Instr) :
    decodeTableWord nbits w = some i ↔ decodeToken (leBytes 3 (w % 2 ^ nbits)) = .ok i := by
  rw [decodeTableWord, if_pos hn, toOption_eq_some_iff]

/-- A placed command has the engine's turn in front of the schedule (log 8). -/
theorem step_loadCommand (s : State) {w : Word} {i : Instr} (hi : decodeCommand w = .ok i) :
    step (loadCommand w s) = exec i (setTurns s.turns (loadCommand w s)) :=
  (step_engine (s := loadCommand w s) rfl rfl).trans (engineStep_command rfl hi)

/-- A placed token stands at the cursor of a walk that has produced nothing (log 8). -/
theorem step_loadToken (s : State) {w : Nat} {i : Instr} (hi : decodeToken (leBytes 3 w) = .ok i) :
    step (loadToken w s) = exec i (loadToken w s) :=
  step_token (s := loadToken w s) rfl (by simp [loadToken]) hi

/-! #### Commands without a check -/

/-- Every check names a code of its command, so a command without codes passes them all (R133, R251). -/
theorem commonCheck_of_no_codes {i : Instr} (hi : commandCodes i = []) (s : State) : commonCheck i s = none := by
  refine Option.eq_none_iff_forall_not_mem.2 fun e he => ?_
  have hmem := commonCheck_mem_codes he
  rw [hi] at hmem
  cases hmem

/-! #### A CMD write -/

theorem writeCmd_idle {s : State} (hb : s.status.busy = false) (w : Word) : writeCmd w s = acceptCommand w s := by
  simp [writeCmd, hb]

theorem writeCmd_busy {s : State} (hb : s.status.busy = true) (w : Word) :
    writeCmd w s = { s with status := { s.status with ovr := true } } := by
  simp [writeCmd, hb]

/-! #### The claims -/

/-- Settles O32: every command is a completion (`exec_command_form`), and its codes are read off row by row. -/
theorem everyCommandCompletes : Obligations.EveryCommandCompletes := by
  refine ⟨fun i s hi => ?_, fun i codes hrow => ?_⟩
  · obtain ⟨e, r, u, hx, he, heff⟩ := exec_command_form i hi s
    refine ⟨_, hx, rfl, rfl, he, ?_⟩
    rw [finish_status_err, finish_status_errcode, heff.err, Bool.or_eq_true, bne_iff_ne]
  · have hcodes : commandCodes i = codes :=
      (by decide : ∀ row ∈ _, commandCodes row.1 = row.2) (i, codes) hrow
    exact fun e => hcodes ▸ Iff.rfl

/-- Settles O7. -/
theorem idleEngineStartsNothing : Obligations.IdleEngineStartsNothing :=
  fun _ ha hb ht => (step_unscheduled ha ht).trans (engineStep_idle hb)

/-- Settles O8: with the schedule run out, and with the engine's turn in front of it. -/
theorem stepRunsLatchedCommand : Obligations.StepRunsLatchedCommand := by
  intro s i ha hb hi
  refine ⟨fun ht => ?_, fun ts ht => ?_⟩
  · exact (step_unscheduled ha ht).trans (engineStep_command hb hi)
  · exact (step_engine ha ht).trans (engineStep_command (s := setTurns ts s) hb hi)

/-- Settles O10: a command word by `step_loadCommand`, a token by `step_loadToken`. -/
theorem placedWordRunsNext : Obligations.PlacedWordRunsNext := by
  refine ⟨fun s w i hi => ?_, fun s nbits w i hn hi => ?_⟩
  · rw [State.withFetchWord, if_neg (by decide)]
    exact step_loadCommand s ((decodeTableWord_command_iff w i).1 hi)
  · rw [State.withFetchWord, if_pos hn]
    exact step_loadToken s ((decodeTableWord_token_iff hn w i).1 hi)

/-- Settles O11: check 1 of R133 is the decoder's, and ILLEGAL_CMD is an error code. -/
theorem illegalWordCompletes : Obligations.IllegalWordCompletes := by
  intro s e ha ht hb he
  rw [step_unscheduled ha ht, engineStep_illegal hb he, illegalCommand, raiseError_eq_finish, finish_error (by decide)]

/-- Settles O12: the three words by their opcodes; the effects run because these commands have no codes. -/
theorem uncheckedCommandsComplete : Obligations.UncheckedCommandsComplete := by
  refine ⟨decodeCommand_commandWord (op := 0x00) rfl, decodeCommand_commandWord (op := 0x01) rfl,
    decodeCommand_commandWord (op := 0x11) rfl, fun s ht => ⟨?_, ?_, ?_⟩⟩
  · rw [exec_nop, runCommand_effect ht (commonCheck_of_no_codes rfl s), complete_eq_finish, finish_noError]
  · rw [exec_ckInit, runCommand_effect ht (commonCheck_of_no_codes rfl s), ckInitEffect, finishAcc, complete_eq_finish,
      finish_noError]
    rfl
  · rw [exec_keyClear, runCommand_effect ht (commonCheck_of_no_codes rfl s), keyClearEffect, complete_eq_finish,
      finish_noError]
    rfl

/-- Settles O51: the host's turn writes CMD, which `writeCmd` accepts or drops by BUSY. -/
theorem cmdWriteAcceptedOrDropped : Obligations.CmdWriteAcceptedOrDropped := by
  intro s w ts ha ht
  have hstep : step s = .next (writeCmd w (setTurns ts s)) := step_writeCsr (c := .cmd) ha ht
  refine ⟨fun hb => ?_, fun hb => ?_⟩
  · exact hstep.trans (congrArg _ (writeCmd_idle (s := setTurns ts s) hb w))
  · exact hstep.trans (congrArg _ (writeCmd_busy (s := setTurns ts s) hb w))

end Sys2Proof.Machine
end

/-! ### Checksums -/

section
namespace Sys2Proof.Machine

/-! #### The byte step (R151) -/

/-- One nibble step on a 16-bit register, with the nibble of the byte that it takes in. -/
def nibbleStep (p : Params) (t : Half) (x : BitVec 4) : Half :=
  (t <<< 4) ^^^ tableEntry p (t.extractLsb' 12 4 ^^^ x).toNat

/-- The loop's table index is the register's nibble [15:12] XOR the byte's [7:4]; bits above those do not reach it. -/
theorem tableIndex_eq_nibbles (t x : Nat) : (((t >>> 8) ^^^ x) >>> 4) &&& 0xF =
    ((BitVec.ofNat 16 t).extractLsb' 12 4 ^^^ (BitVec.ofNat 8 x).extractLsb' 4 4).toNat := by
  have hreg : (t >>> 8 >>> 4) % 2 ^ 4 = ((t % 2 ^ 16) >>> 12) % 2 ^ 4 := by
    simp only [Nat.shiftRight_eq_div_pow]
    omega
  have hbyte : (x >>> 4) % 2 ^ 4 = ((x % 2 ^ 8) >>> 4) % 2 ^ 4 := by
    simp only [Nat.shiftRight_eq_div_pow]
    omega
  calc (((t >>> 8) ^^^ x) >>> 4) &&& 0xF
      = (((t >>> 8) ^^^ x) >>> 4) % 2 ^ 4 := Nat.and_two_pow_sub_one_eq_mod _ 4
    _ = (t >>> 8 >>> 4) % 2 ^ 4 ^^^ (x >>> 4) % 2 ^ 4 := by
        rw [Nat.shiftRight_xor_distrib, Nat.xor_mod_two_pow]
    _ = _ := by
        rw [hreg, hbyte, BitVec.toNat_xor, BitVec.extractLsb'_toNat, BitVec.extractLsb'_toNat, BitVec.toNat_ofNat,
          BitVec.toNat_ofNat]

/-- A pass of the loop on unbounded naturals, masked, is the nibble step on the masked register. -/
theorem ofNat_ckNibble (p : Params) (t x : Nat) : BitVec.ofNat 16 (ckNibble p t x) =
    nibbleStep p (BitVec.ofNat 16 t) ((BitVec.ofNat 8 x).extractLsb' 4 4) := by
  have hshift : BitVec.ofNat 16 (t <<< 4) = BitVec.ofNat 16 t <<< 4 := by
    apply BitVec.eq_of_toNat_eq
    simp only [BitVec.toNat_shiftLeft, BitVec.toNat_ofNat, Nat.shiftLeft_eq]
    omega
  rw [ckNibble, tableIndex_eq_nibbles, BitVec.ofNat_xor, hshift, BitVec.ofNat_toNat, BitVec.setWidth_eq, nibbleStep]

/-- After `b <<= 4` the nibble [7:4] is the low nibble of the byte. -/
theorem lowNibble_shifted (b : Byte) :
    (BitVec.ofNat 8 (b.toNat <<< 4)).extractLsb' 4 4 = b.extractLsb' 0 4 := by
  apply BitVec.eq_of_toNat_eq
  simp only [BitVec.extractLsb'_toNat, BitVec.toNat_ofNat, Nat.shiftRight_eq_div_pow, Nat.shiftLeft_eq]
  omega

/-- The mask after the loop can be taken after each pass: the upper nibble of the byte first, then the lower. -/
theorem ckStep_eq_nibbleSteps (p : Params) (acc : Half) (b : Byte) :
    ckStep p acc b = nibbleStep p (nibbleStep p acc (b.extractLsb' 4 4)) (b.extractLsb' 0 4) := by
  rw [ckStep, ofNat_ckNibble, ofNat_ckNibble, lowNibble_shifted]
  simp only [BitVec.ofNat_toNat, BitVec.setWidth_eq]

/-! #### The fold (R152, R153) -/

theorem tableEntry_eq_getElem (p : Params) (i : Fin 16) : tableEntry p i.val = p.ckTable[i] := by
  rw [tableEntry, Fin.ofNat_val_eq_self]
  rfl

theorem ckFold_append (p : Params) (acc : Half) (L M : List Byte) :
    ckFold p acc (L ++ M) = ckFold p (ckFold p acc L) M := List.foldl_append

/-! #### The commands (R156, R157, R158) -/

/-- ACC and RESULT take the checksum, and the command ends without an error. -/
theorem finishAcc_eq_endedWith (h : Half) (s : State) :
    finishAcc h s = endedWith (succeeded s.status) (h.zeroExtend 32) { s with acc := h } := by
  rw [finishAcc, complete_eq_finish, finish_noError]
  rfl

/-- A word has a bit at or above bit k exactly if it is at least 2^k. -/
theorem extractLsb'_top_ne_zero (w : Word) {k n : Nat} (h : k + n = 32) :
    (w.extractLsb' k n != 0) = decide (2 ^ k ≤ w.toNat) := by
  have hfield : (w.extractLsb' k n).toNat = w.toNat / 2 ^ k := by
    have hlt : w.toNat / 2 ^ k < 2 ^ n := Nat.div_lt_of_lt_mul (by rw [← Nat.pow_add, h]; exact w.isLt)
    rw [BitVec.extractLsb'_toNat, Nat.shiftRight_eq_div_pow, Nat.mod_eq_of_lt hlt]
  rw [Bool.eq_iff_iff, bne_iff_ne, decide_eq_true_iff, Ne, ← BitVec.toNat_inj, hfield]
  simp [Nat.div_eq_zero_iff_lt (Nat.two_pow_pos k)]

/-- The one check of CK_BYTE: a PARAM bit above bit 7 (R133, R156). -/
theorem commonCheck_ckByte (s : State) :
    commonCheck .ckByte s = if 256 ≤ s.lat.param.toNat then some .badParam else none := by
  have hparam : badParam .ckByte s.lat = decide (256 ≤ s.lat.param.toNat) :=
    extractLsb'_top_ne_zero s.lat.param (by decide)
  have hinput : badRange s.params.lmemSize (inputRange .ckByte s.lat) = false := rfl
  have houtput : badRange s.params.lmemSize (outputRange .ckByte s.lat) = false := rfl
  have hoverlap : badOverlap .ckByte s.lat = false := badOverlap_of_inputRange_none rfl
  simp [commonCheck, firstError, hparam, hinput, houtput, hoverlap, needsKey, locksKey, countsPackets, badSeq]

/-- The one check of CK_RUN and CK_CALC: the input range (R64, R133). -/
theorem commonCheck_rangeChecksum {i : Instr} (hi : i = .ckRun ∨ i = .ckCalc) (s : State) : commonCheck i s =
    if s.params.lmemSize < s.lat.src.toNat + s.lat.len.toNat then some .range else none := by
  have hrange : badRange s.params.lmemSize (some ⟨opSrc s.lat, opLen s.lat⟩) =
      decide (s.params.lmemSize < s.lat.src.toNat + s.lat.len.toNat) := badRange_some_eq _ _
  have hnone : badRange s.params.lmemSize none = false := rfl
  rcases hi with rfl | rfl <;>
    simp [commonCheck, firstError, badParam, inputRange, outputRange, hrange, hnone, badOverlap, needsKey, locksKey,
      countsPackets, badSeq]

/-- CK_RUN and CK_CALC differ in the seed alone: ACC, or the seed of a checksum. -/
theorem exec_rangeChecksum {i : Instr} {seed : Half} {s : State}
    (h : (i, seed) ∈ [(Instr.ckRun, s.acc), (.ckCalc, 0xFFFF)]) :
    (i = .ckRun ∨ i = .ckCalc) ∧ ∃ f, exec i s = .next (runCommand i f s) ∧
      f s = finishAcc (ckFold s.params seed (memRead s s.lat.src.toNat s.lat.len.toNat)) s := by
  obtain ⟨rfl, rfl⟩ | ⟨rfl, rfl⟩ : i = .ckRun ∧ seed = s.acc ∨ i = .ckCalc ∧ seed = 0xFFFF := by simpa using h
  · exact ⟨.inl rfl, ckRunEffect, exec_ckRun s, rfl⟩
  · exact ⟨.inr rfl, ckCalcEffect, exec_ckCalc s, rfl⟩

/-! #### The claims -/

/-- Settles O41: the two masked nibble steps, written out. -/
theorem byteStepSixteenBitForm : Obligations.ByteStepSixteenBitForm := ckStep_eq_nibbleSteps

/-- Settles O42: two adjacent ranges are one list, and the fold over it is the fold over its two parts. -/
theorem checksumInPieces : Obligations.ChecksumInPieces := by
  refine ⟨fun p acc b L => ⟨ckFold_nil p acc, ckFold_cons p acc b L, rfl, rfl⟩, tableEntry_eq_getElem,
    fun s a n k acc => ?_⟩
  rw [memRead_append, ckFold_append]

/-- Settles O13: the cases are those of `commonCheck_ckByte`. -/
theorem ckByteStepsAcc : Obligations.CkByteStepsAcc := by
  refine ⟨decodeCommand_commandWord (op := 0x02) rfl, fun s ht => ?_⟩
  have hcheck := commonCheck_ckByte s
  refine ⟨fun hparam => ?_, fun hparam => ?_⟩
  · rw [if_neg (by omega)] at hcheck
    rw [exec_ckByte, runCommand_effect ht hcheck, ckByteEffect, finishAcc_eq_endedWith]
    rfl
  · rw [if_pos hparam] at hcheck
    rw [exec_ckByte, runCommand_error ht hcheck]

/-- Settles O14: both commands run the effect of `exec_rangeChecksum` after the check of `commonCheck_rangeChecksum`. -/
theorem rangeChecksumsComplete : Obligations.RangeChecksumsComplete := by
  refine ⟨decodeCommand_commandWord (op := 0x03) rfl, decodeCommand_commandWord (op := 0x04) rfl,
    fun s i seed ht hrow => ?_⟩
  obtain ⟨hi, f, hexec, heffect⟩ := exec_rangeChecksum hrow
  have hcheck := commonCheck_rangeChecksum hi s
  refine ⟨fun hvalid => ?_, fun hinvalid => ?_⟩
  · rw [if_neg (by omega)] at hcheck
    rw [hexec, runCommand_effect ht hcheck, heffect, finishAcc_eq_endedWith]
  · rw [if_pos hinvalid] at hcheck
    rw [hexec, runCommand_error ht hcheck]

end Sys2Proof.Machine
end

/-! ### The frame codec -/

section
namespace Sys2Proof.Machine

/-! #### Obfuscation and the key (R170, R171) -/

/-- Obfuscation is self-inverse because the XOR with the key is (R171). -/
theorem xorBytes_xorBytes (k : Byte) (L : List Byte) : xorBytes k (xorBytes k L) = L :=
  List.map_involutive_iff.2 (xor_left_involutive k) L

theorem xorBytes_zero (L : List Byte) : xorBytes 0x00 L = L := by
  have hid : (fun b : Byte => b ^^^ 0x00) = id := funext fun _ => BitVec.xor_zero
  rw [xorBytes, hid, List.map_id]

theorem xorBytes_getD (k : Byte) (L : List Byte) {j : Nat} (hj : j < L.length) :
    (xorBytes k L).getD j 0 = L.getD j 0 ^^^ k := by
  simp [xorBytes, List.getD, hj]

/-- XOR is commutative and associative, so the fold does not see the order of the address bytes (R170). -/
theorem deriveKey_perm {L M : List Byte} (h : L.Perm M) : deriveKey L = deriveKey M := h.foldl_eq Config.keySeed

/-- XORing one more byte with the key can be done before the obfuscation of the list or after it. -/
theorem modify_xorBytes (k : Byte) (i : Nat) (L : List Byte) :
    (xorBytes k L).modify i (fun b => b ^^^ k) = xorBytes k (L.modify i fun b => b ^^^ k) := by
  refine List.ext_getElem (by simp [xorBytes]) fun j _ _ => ?_
  simp only [xorBytes, List.getElem_modify, List.getElem_map]
  split <;> rfl

/-- XORing one byte with the key twice changes nothing. -/
theorem modify_xor_twice (k : Byte) (i : Nat) (L : List Byte) :
    (L.modify i fun b => b ^^^ k).modify i (fun b => b ^^^ k) = L := by
  rw [List.modify_modify_eq, (xor_left_involutive k).comp_self, List.modify_id]

/-! #### The transaction header (R178, R179) -/

/-- be_2 of any number: the two bytes of its low 16 bits (R10). -/
theorem beBytes_two_ofNat (v : Nat) :
    beBytes 2 v = [(BitVec.ofNat 16 v).extractLsb' 8 8, (BitVec.ofNat 16 v).extractLsb' 0 8] := by
  have hhigh : v >>> 8 % 2 ^ 8 = (v % 2 ^ 16) >>> 8 % 2 ^ 8 := by
    simp only [Nat.shiftRight_eq_div_pow]
    omega
  have hlow : v % 2 ^ 8 = v % 2 ^ 16 % 2 ^ 8 := by omega
  calc beBytes 2 v = [BitVec.ofNat 8 (v >>> 8), BitVec.ofNat 8 v] := rfl
    _ = beBytes 2 (BitVec.ofNat 16 v).toNat :=
        congrArg₂ (fun x y : Byte => [x, y]) (BitVec.eq_of_toNat_eq hhigh) (BitVec.eq_of_toNat_eq hlow)
    _ = _ := beBytes_two _

theorem packetCount_eq (n : Nat) : packetCount n = n / 200 + 1 := rfl

/-- The 18 raw bytes, from the bits of N and of the packet count (R98, R178). -/
theorem txnRaw_eq (n : Word) {count : Half} (hcount : count = BitVec.ofNat 16 (n.toNat / 200 + 1)) :
    txnRaw n.toNat = [0xFF, 0xFC, 0x65, 0x61, 0x73, 0x79, 0x54, 0x61, 0x67, 0x62, n.extractLsb' 24 8,
      n.extractLsb' 16 8, n.extractLsb' 8 8, n.extractLsb' 0 8, count.extractLsb' 8 8, count.extractLsb' 0 8, 0x42,
      0x54] := by
  rw [txnRaw, beBytes_four, beBytes_two_ofNat, packetCount_eq, ← hcount]
  rfl

/-- The plain header ends with the two bytes of the checksum (R178). -/
theorem txnPlain_eq (p : Params) (n : Nat) : txnPlain p n =
    txnRaw n ++ [(txnChecksum p n).extractLsb' 8 8, (txnChecksum p n).extractLsb' 0 8] := by
  rw [txnPlain, beBytes_two]

@[simp] theorem txnPlain_length (p : Params) (n : Nat) : (txnPlain p n).length = 20 := by simp [txnPlain]

theorem txnPlain_nine (p : Params) (n : Nat) : (txnPlain p n).getD 9 0 = 0x62 := rfl

/-- Byte 9 meets the key twice and stays plain (R179). -/
theorem txnHeader_nine (p : Params) (n : Nat) (k : Byte) : (txnHeader p n k).getD 9 0 = 0x62 := by
  have hplain : ((txnPlain p n).modify 9 fun b => b ^^^ k).getD 9 0 = 0x62 ^^^ k := by
    rw [← txnPlain_nine p n]
    simp [List.getD]
  rw [txnHeader, xorBytes_getD k _ (by simp), hplain, xor_cancel_right]

/-- Every byte but byte 9 meets the key once (R179). -/
theorem txnHeader_other (p : Params) (n : Nat) (k : Byte) {j : Nat} (hj : j < 20) (h9 : j ≠ 9) :
    (txnHeader p n k).getD j 0 = (txnPlain p n).getD j 0 ^^^ k := by
  have hplain : ((txnPlain p n).modify 9 fun b => b ^^^ k).getD j 0 = (txnPlain p n).getD j 0 := by
    simp [List.getD, h9.symm]
  rw [txnHeader, xorBytes_getD k _ (by simpa using hj), hplain]

/-- The obfuscation of the header, applied to the header, gives the plain bytes (R179). -/
theorem txnHeader_inverse (p : Params) (n : Nat) (k : Byte) :
    xorBytes k ((txnHeader p n k).modify 9 fun b => b ^^^ k) = txnPlain p n := by
  rw [txnHeader, modify_xorBytes, modify_xor_twice, xorBytes_xorBytes]

/-! #### The checks of the commands (R133) -/

/-- The one check of KEY_LOAD: no key is loaded yet (R172). -/
theorem commonCheck_keyLoad (s : State) :
    commonCheck .keyLoad s = if s.status.keyv = true then some .keyLocked else none := by
  have hinput : badRange s.params.lmemSize (inputRange .keyLoad s.lat) = false := rfl
  have houtput : badRange s.params.lmemSize (outputRange .keyLoad s.lat) = false := rfl
  have hoverlap : badOverlap .keyLoad s.lat = false := badOverlap_of_inputRange_none rfl
  simp [commonCheck, firstError, hinput, houtput, hoverlap, badParam, needsKey, locksKey, countsPackets, badSeq]

/-- The ranges of XOR_BLOCK overlap and are not in place (R65, R133). Two ranges of the same length that start at
different offsets and overlap are not empty. -/
theorem badOverlap_xorBlock (l : Latch) : badOverlap .xorBlock l =
    decide (l.src ≠ l.dst ∧ l.dst.toNat < l.src.toNat + l.len.toNat ∧ l.src.toNat < l.dst.toNat + l.len.toNat) := by
  rw [Bool.eq_iff_iff]
  simp only [badOverlap, inputRange, outputRange, Range.overlaps, Bool.and_eq_true, Bool.not_eq_true', decide_true,
    Bool.true_and, decide_eq_true_iff, decide_eq_false_iff_not, Ne, ← BitVec.toNat_inj]
  simp only [opSrc, opDst, opLen]
  omega

/-- The checks of XOR_BLOCK: the key, the two ranges, the overlap (R133, R174). -/
theorem commonCheck_xorBlock (s : State) : commonCheck .xorBlock s =
    if s.status.keyv = false then some .noKey
    else if s.params.lmemSize < s.lat.src.toNat + s.lat.len.toNat ∨
      s.params.lmemSize < s.lat.dst.toNat + s.lat.len.toNat then some .range
    else if s.lat.src ≠ s.lat.dst ∧ s.lat.dst.toNat < s.lat.src.toNat + s.lat.len.toNat ∧
      s.lat.src.toNat < s.lat.dst.toNat + s.lat.len.toNat then some .overlap
    else none := by
  have hinput : badRange s.params.lmemSize (inputRange .xorBlock s.lat) =
      decide (s.params.lmemSize < s.lat.src.toNat + s.lat.len.toNat) := badRange_some_eq _ _
  have houtput : badRange s.params.lmemSize (outputRange .xorBlock s.lat) =
      decide (s.params.lmemSize < s.lat.dst.toNat + s.lat.len.toNat) := badRange_some_eq _ _
  simp [commonCheck, firstError, hinput, houtput, badOverlap_xorBlock, badParam, needsKey, locksKey, countsPackets,
    badSeq, ite_or]

/-- The packet count passes 0xFFFF exactly from 13107000 payload bytes on (R133, R230). -/
theorem packetCount_overflow_iff (n : Nat) : 0xFFFF < packetCount n ↔ 13107000 ≤ n := by
  rw [packetCount_eq]
  omega

/-- The checks of TH_BUILD: the key, the packet count, the 20 bytes from DST (R133, R180). -/
theorem commonCheck_thBuild (s : State) : commonCheck .thBuild s =
    if s.status.keyv = false then some .noKey
    else if 13107000 ≤ s.lat.len.toNat then some .countOverflow
    else if s.params.lmemSize < s.lat.dst.toNat + 20 then some .range
    else none := by
  have hinput : badRange s.params.lmemSize (inputRange .thBuild s.lat) = false := rfl
  have houtput : badRange s.params.lmemSize (outputRange .thBuild s.lat) =
      decide (s.params.lmemSize < s.lat.dst.toNat + 20) := badRange_some_eq _ _
  have hoverlap : badOverlap .thBuild s.lat = false := badOverlap_of_inputRange_none rfl
  simp [commonCheck, firstError, hinput, houtput, hoverlap, packetCount_overflow_iff, opLen, badParam, needsKey,
    locksKey, countsPackets, badSeq]

/-- TH_BUILD past its checks: the header at DST, the checksum in ACC, the packet count in RESULT (R180). -/
theorem thBuildEffect_eq (s : State) : thBuildEffect s =
    endedWith (succeeded s.status) (BitVec.ofNat 32 (s.lat.len.toNat / 200 + 1))
      { s with
        mem := Memory.writeList s.mem s.lat.dst.toNat (txnHeader s.params s.lat.len.toNat s.key8)
        acc := checksum s.params (txnRaw s.lat.len.toNat) } := by
  rw [thBuildEffect, complete_eq_finish, finish_noError, opLen, opDst, packetCount_eq, txnChecksum]
  simp only [setAcc, memWrite, setMem]

/-! #### The claims -/

/-- Settles O43: each law is the one of `xorBytes` or `deriveKey` above. -/
theorem obfuscationLaws : Obligations.ObfuscationLaws :=
  ⟨fun k L => ⟨xorBytes_xorBytes k L, xorBytes_zero L, fun _ hj => xorBytes_getD k L hj⟩, fun _ _ h => deriveKey_perm h⟩

/-- Settles O44: the plain bytes field by field, then the quirk of byte 9 from what the key does to each byte. -/
theorem headerByteNineQuirk : Obligations.HeaderByteNineQuirk := by
  refine ⟨fun p n count ck raw hcount hraw hck => ?_, fun p n k => ?_⟩
  · have htxn : txnRaw n.toNat = raw := (txnRaw_eq n hcount).trans hraw.symm
    have hsum : txnChecksum p n.toNat = ck := by rw [txnChecksum, htxn, hck]
    exact ⟨htxn, hsum, by rw [txnPlain_eq, htxn, hsum]⟩
  · exact ⟨txnHeader_length p n k, txnHeader_nine p n k, fun j hj h9 => txnHeader_other p n k hj h9,
      txnHeader_inverse p n k⟩

/-- Settles O15: the two cases are those of `commonCheck_keyLoad`. -/
theorem keyLoadDerivesKey : Obligations.KeyLoadDerivesKey := by
  refine ⟨decodeCommand_commandWord (op := 0x10) rfl, fun s ht => ?_⟩
  have hcheck := commonCheck_keyLoad s
  refine ⟨fun hfree => ?_, fun hloaded => ?_⟩
  · rw [if_neg (by simp [hfree])] at hcheck
    rw [exec_keyLoad, runCommand_effect ht hcheck, keyLoadEffect, complete_eq_finish, finish_noError]
    rfl
  · rw [if_pos hloaded] at hcheck
    rw [exec_keyLoad, runCommand_error ht hcheck]

/-- Settles O16: no check of `commonCheck_xorBlock` fails, and the obfuscated list is what reads show. -/
theorem xorBlockObfuscates : Obligations.XorBlockObfuscates := by
  intro s ht hkey hsrc hdst hplaces
  have happart : ¬(s.lat.src ≠ s.lat.dst ∧ s.lat.dst.toNat < s.lat.src.toNat + s.lat.len.toNat ∧
      s.lat.src.toNat < s.lat.dst.toNat + s.lat.len.toNat) := by
    rintro ⟨hne, hlt, hlt'⟩
    obtain hempty | hinplace | hbefore | hafter := hplaces
    · have hzero : s.lat.len.toNat = 0 := by rw [hempty]; rfl
      omega
    · exact hne hinplace
    · omega
    · omega
  have hcheck := commonCheck_xorBlock s
  rw [if_neg (by simp [hkey]), if_neg (by omega), if_neg happart] at hcheck
  refine ⟨_, ?_, stores_writeList s _ _⟩
  rw [exec_xorBlock, runCommand_effect ht hcheck, xorBlockEffect, complete_eq_finish, finish_noError]
  rfl

/-- Settles O17: the three cases are those of `commonCheck_xorBlock`. -/
theorem xorBlockErrors : Obligations.XorBlockErrors := by
  intro s ht
  have hcheck := commonCheck_xorBlock s
  refine ⟨fun hkey => ?_, fun hkey hrange => ?_, fun hkey hsrc hdst hne hlt hlt' => ?_⟩
  · rw [if_pos hkey] at hcheck
    rw [exec_xorBlock, runCommand_error ht hcheck]
  · rw [if_neg (by simp [hkey]), if_pos hrange] at hcheck
    rw [exec_xorBlock, runCommand_error ht hcheck]
  · rw [if_neg (by simp [hkey]), if_neg (by omega), if_pos ⟨hne, hlt, hlt'⟩] at hcheck
    rw [exec_xorBlock, runCommand_error ht hcheck]

/-- Settles O19: no check of `commonCheck_thBuild` fails, and the header is what reads show. -/
theorem thBuildWritesHeader : Obligations.ThBuildWritesHeader := by
  intro s ht hkey hlen hdst
  have hcheck := commonCheck_thBuild s
  rw [if_neg (by simp [hkey]), if_neg (by omega), if_neg (by omega)] at hcheck
  refine ⟨_, ?_, stores_writeList s _ _⟩
  rw [exec_thBuild, runCommand_effect ht hcheck, thBuildEffect_eq]

/-- Settles O20: the three cases are those of `commonCheck_thBuild`. -/
theorem thBuildErrors : Obligations.ThBuildErrors := by
  intro s ht
  have hcheck := commonCheck_thBuild s
  refine ⟨fun hkey => ?_, fun hkey hlen => ?_, fun hkey hlen hdst => ?_⟩
  · rw [if_pos hkey] at hcheck
    rw [exec_thBuild, runCommand_error ht hcheck]
  · rw [if_neg (by simp [hkey]), if_pos hlen] at hcheck
    rw [exec_thBuild, runCommand_error ht hcheck]
  · rw [if_neg (by simp [hkey]), if_neg (by omega), if_pos hdst] at hcheck
    rw [exec_thBuild, runCommand_error ht hcheck]

end Sys2Proof.Machine
end

/-! ### The RLE tokens -/

section
namespace Sys2Proof.Machine

/-! #### A run token: its size, its value and its length (R215 to R217) -/

/-- The instruction is a run token of `size` bytes that stands for r copies of v; bit 5 of a 1-byte run is ignored. -/
inductive IsRunToken : Instr → Nat → Pixel → Nat → Prop where
  | run3 (v : Pixel) (lo hi : Byte) : IsRunToken (.rleRun3 v lo hi) 3 v (lo.toNat + 256 * hi.toNat)
  | run2 (v : Pixel) (n : Byte) : IsRunToken (.rleRun2 v n) 2 v n.toNat
  | run1 (v x : Pixel) (r : BitVec 5) : IsRunToken (.rleRun1 v x r) 1 v r.toNat

section
variable {i : Instr} {size r : Nat} {v : Pixel}

theorem IsRunToken.exec (h : IsRunToken i size v r) (s : State) :
    Machine.exec i s = .next (runTokenStep size v r s) := by
  cases h <;> rfl

theorem IsRunToken.encode_length (h : IsRunToken i size v r) : (encode i).length = size := by
  cases h <;> rfl

theorem IsRunToken.tokenBytes_length (h : IsRunToken i size v r) : (tokenBytes i).length = size := by
  cases h <;> rfl

theorem IsRunToken.size_pos (h : IsRunToken i size v r) : 0 < size := by
  cases h <;> decide

/-- The rows of the claims about run tokens. -/
theorem isRunToken_of_mem {x : Pixel} {lo hi n : Byte} {r5 : BitVec 5}
    (h : (i, size, r) ∈ [(Instr.rleRun3 v lo hi, 3, lo.toNat + 256 * hi.toNat), (.rleRun2 v n, 2, n.toNat),
      (.rleRun1 v x r5, 1, r5.toNat)]) : IsRunToken i size v r := by
  simp only [List.mem_cons, Prod.mk.injEq, List.not_mem_nil, or_false] at h
  obtain ⟨rfl, rfl, rfl⟩ | ⟨rfl, rfl, rfl⟩ | ⟨rfl, rfl, rfl⟩ := h
  · exact .run3 v lo hi
  · exact .run2 v n
  · exact .run1 v x r5

theorem runTokenStep_append {s : State} (hstream : s.dec.pos + size ≤ s.dec.stream.length)
    (hroom : s.dec.out.length + r ≤ s.dec.total) : runTokenStep size v r s =
      setDec { s.dec with out := s.dec.out ++ List.replicate r v, pos := s.dec.pos + size } s := by
  rw [runTokenStep, runStep, if_neg (by omega), if_neg (by omega)]

theorem runTokenStep_truncated {s : State} (hstream : s.dec.stream.length < s.dec.pos + size) :
    runTokenStep size v r s = decodeFail .decTruncated s.dec.pos s := by
  rw [runTokenStep, runStep, if_pos hstream]

theorem runTokenStep_overrun {s : State} (hstream : s.dec.pos + size ≤ s.dec.stream.length)
    (hroom : s.dec.total < s.dec.out.length + r) :
    runTokenStep size v r s = decodeFail .decOverrun s.dec.pos s := by
  rw [runTokenStep, runStep, if_neg (by omega), if_pos hroom]

end

/-! #### Ranges that an error leaves unspecified (R255) -/

/-- The existing bytes of a range of unspecified bytes hold free values that were not drawn before. -/
theorem readByte_drawInto_inside (s : State) (t : Range) {a : Nat} (ha : t.has a = true)
    (hsize : a < s.params.lmemSize) :
    ∃ k, s.draw ≤ k ∧ k < s.draw + (t.offsets s.params.lmemSize).length ∧
      readByte { s with mem := Memory.drawInto s.mem s.draw (t.offsets s.params.lmemSize) } a = Config.freeByte k := by
  have hmem : a ∈ t.offsets s.params.lmemSize := mem_rangeOffsets (r := some t).2 ⟨ha, hsize⟩
  obtain ⟨k, hge, hlt, hread⟩ := read_drawInto_drawn _ s.mem s.draw hmem
  exact ⟨k, hge, hlt, by simp [readByte, hread]⟩

/-- An error entry that leaves a range unspecified: RESULT and STATUS, free values in the range, nothing else. -/
theorem raiseError_unspecify {e : ErrCode} (he : e ≠ .noError) (res : Word) (s : State) (t : Range) :
    ∃ m n, raiseError e res (unspecify (rangeOffsets s.params.lmemSize (some t)) s) =
        endedWith (failed e s.status) res { s with mem := m, draw := n } ∧
      KeepsOutside s { s with mem := m } (some t) ∧
      ∀ j < t.len, t.start + j < s.params.lmemSize → ∃ k, s.draw ≤ k ∧ k < n ∧
        readByte { s with mem := m } (t.start + j) = Config.freeByte k := by
  refine ⟨_, _, finish_error he _ _, drawInto_keepsOutside s t, fun j hj hsize => ?_⟩
  exact readByte_drawInto_inside s t (by simpa [Range.has] using hj) hsize

/-- A malformed stream leaves free values in the plane's range (R209, R213). -/
theorem decodeFail_frees_plane {e : ErrCode} (he : e ≠ .noError) (off : Nat) (s : State) :
    ∃ m n, decodeFail e off s =
        endedWith (failed e s.status) (BitVec.ofNat 32 off) { s with mem := m, draw := n } ∧
      KeepsOutside s { s with mem := m } (some ⟨s.lat.dst.toNat, planeSize (opPixels s.lat)⟩) ∧
      ∀ j < planeSize (opPixels s.lat), s.lat.dst.toNat + j < s.params.lmemSize → ∃ k, s.draw ≤ k ∧ k < n ∧
        readByte { s with mem := m } (s.lat.dst.toNat + j) = Config.freeByte k :=
  raiseError_unspecify he _ s ⟨opDst s.lat, planeSize (opPixels s.lat)⟩

/-! #### The claims -/

/-- Settles O9. -/
theorem stepRunsTokenAtCursor : Obligations.StepRunsTokenAtCursor :=
  fun _ _ ha hroom hi => step_token ha hroom hi

/-- Settles O28: the literal's field by `decodeToken_literal`, its seven pixels by `fieldPixels`. -/
theorem literalTokenAppends : Obligations.LiteralTokenAppends :=
  ⟨decodeToken_literal, fun p s => exec_rleLit p s⟩

/-- Settles O29: each of the three rows is a `IsRunToken`. -/
theorem runTokensAppend : Obligations.RunTokensAppend := by
  intro s v x lo hi n r i size len hrow hstream hroom
  rw [(isRunToken_of_mem hrow).exec, runTokenStep_append hstream hroom]
  rfl

/-- Settles O30: both cases are `decodeFail` at the cursor. -/
theorem runTokensFail : Obligations.RunTokensFail := by
  intro s v x lo hi n r i size len e hcase
  obtain ⟨he, hfail⟩ : e ≠ .noError ∧ exec i s = .next (decodeFail e s.dec.pos s) := by
    obtain ⟨hrow, hstream, rfl⟩ | ⟨hrow, hstream, hroom, rfl⟩ := hcase
    · obtain ⟨len, htoken⟩ : ∃ len, IsRunToken i size v len := by
        simp only [List.mem_cons, Prod.mk.injEq, List.not_mem_nil, or_false] at hrow
        obtain ⟨rfl, rfl⟩ | ⟨rfl, rfl⟩ := hrow
        · exact ⟨_, .run3 v lo hi⟩
        · exact ⟨_, .run2 v n⟩
      exact ⟨by decide, by rw [htoken.exec, runTokenStep_truncated hstream]⟩
    · exact ⟨by decide, by rw [(isRunToken_of_mem hrow).exec, runTokenStep_overrun hstream hroom]⟩
  obtain ⟨m, d, hend, hkeep, hfree⟩ := decodeFail_frees_plane he s.dec.pos s
  exact ⟨m, d, by rw [hfail, hend], hkeep, hfree⟩

end Sys2Proof.Machine
end

/-! ### The decoder -/

section
namespace Sys2Proof.Machine

/-! #### The first byte of a token, as R207's loop tests it -/

/-- The loop's test of bit 7. -/
theorem literal_test_iff (sb : Byte) : sb &&& 0x80 ≠ 0 ↔ sb &&& 0x80 = 0x80 := by
  have hmask : sb &&& 0x80 = if sb.getLsbD 7 then 0x80 else 0 := BitVec.and_twoPow sb 7
  rw [literal_kind_iff, hmask]
  cases sb.getLsbD 7 <;> simp

/-- The loop compares the six low bits where the decoder of tokens clears the value (R94, R207). -/
theorem run_test_iff (v : Pixel) (low c : BitVec 6) : runByte v low &&& 0x3F = runByte false c ↔ low = c := by
  have hmask : (0x3F : Byte) = 0#1 ++ 0#1 ++ BitVec.allOnes 6 := by decide
  have hclear : runByte v low &&& 0x3F = runByte false low := by
    rw [runByte, hmask, BitVec.and_append, BitVec.and_append, BitVec.and_allOnes]
    cases v <;> rfl
  rw [hclear, runByte_inj]

theorem literalValues_literalByte (p : BitVec 7) : literalValues (1#1 ++ p) = fieldPixels p := by
  refine List.map_congr_left fun j hj => ?_
  have hlow : 6 - j < 7 := by omega
  rw [BitVec.getLsbD_append, if_pos (by simpa using hlow)]

theorem runByte_low5 (v : Pixel) (low : BitVec 6) :
    (runByte v low &&& 0x1F).toNat = (low.extractLsb' 0 5).toNat := by
  have hmask (n : Nat) : n &&& 0x1F = n % 32 := Nat.and_two_pow_sub_one_eq_mod n 5
  rw [← runByte_extractLsb' v low (k := 5) (by decide), BitVec.toNat_and, BitVec.extractLsb'_toNat]
  exact hmask _

/-! #### The run of a first byte (R207) -/

theorem runToken_run3 (S : List Byte) (p : Nat) (v : Pixel) : runToken S p (runByte v 0) =
    if p + 3 ≤ S.length then some ((S.getD (p + 1) 0).toNat + 256 * (S.getD (p + 2) 0).toNat, p + 3) else none := by
  have hkind : runByte v 0 &&& 0x3F = 0x00 := (run_test_iff v 0 0).2 rfl
  rw [runToken, if_pos hkind, Nat.shiftLeft_eq, Nat.mul_comm]

theorem runToken_run2 (S : List Byte) (p : Nat) (v : Pixel) : runToken S p (runByte v 1) =
    if p + 2 ≤ S.length then some ((S.getD (p + 1) 0).toNat, p + 2) else none := by
  have hkind3 : ¬runByte v 1 &&& 0x3F = 0x00 := mt (run_test_iff v 1 0).1 (by decide)
  have hkind : runByte v 1 &&& 0x3F = 0x01 := (run_test_iff v 1 1).2 rfl
  rw [runToken, if_neg hkind3, if_pos hkind]

theorem runToken_run1 (S : List Byte) (p : Nat) (v : Pixel) {low : BitVec 6} (h0 : low ≠ 0) (h1 : low ≠ 1) :
    runToken S p (runByte v low) = some ((low.extractLsb' 0 5).toNat, p + 1) := by
  have hkind3 : ¬runByte v low &&& 0x3F = 0x00 := mt (run_test_iff v low 0).1 h0
  have hkind2 : ¬runByte v low &&& 0x3F = 0x01 := mt (run_test_iff v low 1).1 h1
  rw [runToken, if_neg hkind3, if_neg hkind2, runByte_low5]

/-! #### The token at the cursor -/

section
variable {S L : List Byte} {p : Nat}

theorem getElem?_cursor (h : S.drop p = L) (k : Nat) : S[p + k]? = L[k]? := by
  rw [← h, List.getElem?_drop]

theorem getD_cursor (h : S.drop p = L) (k : Nat) : S.getD (p + k) 0 = L.getD k 0 := by
  rw [List.getD_eq_getElem?_getD, List.getD_eq_getElem?_getD, getElem?_cursor h]

end

/-- What a token that the decoder reads is: a literal block, or one of the three runs. -/
theorem decodeToken_literal_or_run {L : List Byte} {i : Instr} (h : decodeToken L = .ok i) :
    (∃ f, i = .rleLit f) ∨ ∃ size v r, IsRunToken i size v r := by
  rcases decodeToken_cases h with ⟨sb, _, _, rfl, _⟩ | ⟨sb, lo, hi, _, _, rfl, _⟩ | ⟨sb, n, _, _, rfl, _⟩ |
    ⟨sb, _, _, rfl, _⟩
  · exact .inl ⟨_, rfl⟩
  · exact .inr ⟨_, _, _, .run3 _ lo hi⟩
  · exact .inr ⟨_, _, _, .run2 _ n⟩
  · exact .inr ⟨_, _, _, .run1 _ _ _⟩

/-- A token that the decoder reads has all its bytes in the stream. -/
theorem decodeToken_fits {S : List Byte} {p : Nat} {i : Instr} (hd : decodeToken (S.drop p) = .ok i) :
    p + (tokenBytes i).length ≤ S.length := by
  have hcursor : p < S.length := by
    by_contra hend
    rw [List.drop_eq_nil_of_le (Nat.not_lt.1 hend)] at hd
    cases hd
  obtain ⟨_, _, rest, hfront⟩ := decodeToken_front hd
  have hlen := congrArg List.length hfront
  rw [List.length_drop, List.length_append] at hlen
  omega

/-- The loop reads the same run at the cursor as the decoder of tokens (R95, R207). -/
theorem runToken_eq_some {S : List Byte} {p : Nat} {i : Instr} (hd : decodeToken (S.drop p) = .ok i) {size r : Nat}
    {v : Pixel} (h : IsRunToken i size v r) :
    ∃ low, S[p]? = some (runByte v low) ∧ runToken S p (runByte v low) = some (r, p + size) := by
  obtain ⟨_, hwf, rest, hfront⟩ := decodeToken_front hd
  have hlen : p + size ≤ S.length := h.tokenBytes_length ▸ decodeToken_fits hd
  cases h with
  | run3 v lo hi =>
    refine ⟨0, getElem?_cursor hfront 0, ?_⟩
    rw [runToken_run3, if_pos hlen, getD_cursor hfront 1, getD_cursor hfront 2]
    rfl
  | run2 v n =>
    refine ⟨1, getElem?_cursor hfront 0, ?_⟩
    rw [runToken_run2, if_pos hlen, getD_cursor hfront 1]
    rfl
  | run1 v x r =>
    obtain ⟨h0, h1⟩ := (wellFormed_run1_iff v x r).1 hwf
    rw [tokenBytes_run1] at hfront
    refine ⟨BitVec.ofBool x ++ r, getElem?_cursor hfront 0, ?_⟩
    rw [runToken_run1 S p v h0 h1, BitVec.extractLsb'_append_eq_right]

/-- No byte is left exactly at the stream's end. -/
theorem decodeToken_emptyStream {L : List Byte} (h : decodeToken L = .error .emptyStream) : L = [] := by
  cases L with
  | nil => rfl
  | cons sb rest =>
    simp only [decodeToken] at h
    split_ifs at h <;> split at h <;> cases h

/-- A cut token is a 3-byte or 2-byte run without its operand bytes (R94). -/
theorem decodeToken_truncated {L : List Byte} (h : decodeToken L = .error .truncatedToken) :
    ∃ v low rest, L = runByte v low :: rest ∧ (low = 0 ∧ rest.length < 2 ∨ low = 1 ∧ rest.length < 1) := by
  cases L with
  | nil => cases h
  | cons sb rest =>
    by_cases hlit : sb &&& 0x80 = 0x80
    · simp only [decodeToken, if_pos hlit] at h
      cases h
    · obtain ⟨v, low, rfl⟩ := exists_runByte hlit
      refine ⟨v, low, rest, rfl, ?_⟩
      by_cases h0 : low = 0
      · subst h0
        refine .inl ⟨rfl, ?_⟩
        match rest with
        | [] | [_] => simp
        | lo :: hi :: rest => rw [decodeToken_run3] at h; cases h
      · by_cases h1 : low = 1
        · subst h1
          refine .inr ⟨rfl, ?_⟩
          match rest with
          | [] => simp
          | n :: rest => rw [decodeToken_run2] at h; cases h
        · rw [decodeToken_run1 v h0 h1] at h
          cases h

theorem runToken_eq_none {S : List Byte} {p : Nat} (h : decodeToken (S.drop p) = .error .truncatedToken) :
    ∃ v low, S[p]? = some (runByte v low) ∧ runToken S p (runByte v low) = none := by
  obtain ⟨v, low, rest, hfront, hcut⟩ := decodeToken_truncated h
  have hlen := congrArg List.length hfront
  rw [List.length_drop, List.length_cons] at hlen
  refine ⟨v, low, getElem?_cursor hfront 0, ?_⟩
  obtain ⟨rfl, hrest⟩ | ⟨rfl, hrest⟩ := hcut
  · rw [runToken_run3, if_neg (by omega)]
  · rw [runToken_run2, if_neg (by omega)]

/-! #### One pass of the loop (R207) -/

section
variable {S : List Byte} {n p : Nat} {out : List Pixel} (fuel : Nat)

theorem rleDecodeFrom_full (h : n ≤ out.length) : rleDecodeFrom S n (fuel + 1) p out =
    if p < S.length then .error (.decTrailing, p) else .ok out :=
  if_pos h

variable (h : out.length < n)
include h

theorem rleDecodeFrom_underrun (hd : decodeToken (S.drop p) = .error .emptyStream) :
    rleDecodeFrom S n (fuel + 1) p out = .error (.decUnderrun, p) := by
  have hend : S[p]? = none := getElem?_cursor (decodeToken_emptyStream hd) 0
  simp only [rleDecodeFrom, if_neg (Nat.not_le.2 h), hend]

theorem rleDecodeFrom_truncated (hd : decodeToken (S.drop p) = .error .truncatedToken) :
    rleDecodeFrom S n (fuel + 1) p out = .error (.decTruncated, p) := by
  obtain ⟨v, low, hsb, htoken⟩ := runToken_eq_none hd
  have hrun := mt (literal_test_iff _).1 (runByte_not_literal v low)
  simp only [rleDecodeFrom, if_neg (Nat.not_le.2 h), hsb, if_neg hrun, htoken]

theorem rleDecodeFrom_literal {f : BitVec 7} (hd : decodeToken (S.drop p) = .ok (.rleLit f)) :
    rleDecodeFrom S n (fuel + 1) p out =
      rleDecodeFrom S n fuel (p + 1) (out ++ (fieldPixels f).take (n - out.length)) := by
  obtain ⟨_, _, rest, hfront⟩ := decodeToken_front hd
  have hsb : S[p]? = some (1#1 ++ f : Byte) := getElem?_cursor hfront 0
  have hlit : (1#1 ++ f : Byte) &&& 0x80 ≠ 0 :=
    (literal_test_iff _).2 ((literal_kind_iff _).2 (by rw [BitVec.getLsbD_append]; rfl))
  have htake : (fieldPixels f).take (min 7 (n - out.length)) = (fieldPixels f).take (n - out.length) := by
    rw [List.take_eq_take_iff, fieldPixels_length]
    omega
  simp only [rleDecodeFrom, if_neg (Nat.not_le.2 h), hsb, if_pos hlit, literalValues_literalByte, htake]

theorem rleDecodeFrom_run {i : Instr} (hd : decodeToken (S.drop p) = .ok i) {size r : Nat} {v : Pixel}
    (hi : IsRunToken i size v r) : rleDecodeFrom S n (fuel + 1) p out =
      if n < out.length + r then .error (.decOverrun, p)
      else rleDecodeFrom S n fuel (p + size) (out ++ List.replicate r v) := by
  obtain ⟨low, hsb, htoken⟩ := runToken_eq_some hd hi
  have hrun := mt (literal_test_iff _).1 (runByte_not_literal v low)
  simp only [rleDecodeFrom, if_neg (Nat.not_le.2 h), hsb, if_neg hrun, htoken, runByte_value]

end

end Sys2Proof.Machine
end

/-! ### The loop of the decoder and its token walk -/

section
namespace Sys2Proof.Machine

/-! #### One pass in its two forms: R207's loop, and the walk on the hidden decoder -/

/-- The loop of R207 from the state of a decoder on. -/
def decodeLoop (fuel : Nat) (d : Decoder) : Except (ErrCode × Nat) (List Pixel) :=
  rleDecodeFrom d.stream d.total fuel d.pos d.out

/-- A decoder before its first pass (R207: out <- [], p <- 0). -/
def Decoder.start (S : List Byte) (n : Nat) : Decoder :=
  { active := true, stream := S, total := n, out := [], pos := 0 }

theorem rleDecode_eq_decodeLoop (S : List Byte) (n : Nat) :
    rleDecode S n = decodeLoop (S.length + 1) (Decoder.start S n) := rfl

theorem startDecoder_eq_setDec (s : State) :
    startDecoder s = setDec (Decoder.start (memRead s (opSrc s.lat) (opLen s.lat)) (opPixels s.lat)) s := rfl

/-- From the decoder `d` one pass of the loop answers `answer` for the fuel left, and one pass of the walk gives
`next`. -/
structure PassIs (d : Decoder) (answer : Nat → Except (ErrCode × Nat) (List Pixel)) (next : State → State) : Prop where
  loop : ∀ fuel, decodeLoop (fuel + 1) d = answer fuel
  walk : ∀ s : State, s.dec = d → decoderStep s = .next (next s)

/-- The errors of a pass: DEC_UNDERRUN once the cursor has left the stream, the others before that (R209). -/
def PassFails (d : Decoder) (e : ErrCode) : Prop :=
  (e = .decUnderrun ∧ d.stream.length ≤ d.pos) ∨
    ((e = .decTruncated ∨ e = .decOverrun ∨ e = .decTrailing) ∧ d.pos < d.stream.length)

/-- What a pass can do (R207): fail at the cursor, end with the pixels produced, or move on by one token. -/
inductive DecoderPass (d : Decoder) : Prop where
  | fails (e : ErrCode) (why : PassFails d e) (same : PassIs d (fun _ => .error (e, d.pos)) (decodeFail e d.pos))
  | ends (full : d.total ≤ d.out.length) (same : PassIs d (fun _ => .ok d.out) (decodeDone d.out))
  | moves (d' : Decoder) (adv : DecoderAdvance d d') (same : PassIs d (fun fuel => decodeLoop fuel d') (setDec d'))

theorem decoderPass_full {d : Decoder} (h : d.total ≤ d.out.length) : DecoderPass d := by
  have hloop (fuel) := rleDecodeFrom_full (S := d.stream) (p := d.pos) fuel h
  by_cases hend : d.pos < d.stream.length
  · simp only [if_pos hend] at hloop
    refine .fails .decTrailing (.inr ⟨.inr (.inr rfl), hend⟩) ⟨hloop, ?_⟩
    rintro s rfl
    rw [decoderStep, if_pos h, if_pos hend]
  · simp only [if_neg hend] at hloop
    refine .ends h ⟨hloop, ?_⟩
    rintro s rfl
    rw [decoderStep, if_pos h, if_neg hend]

section
variable {d : Decoder} (hroom : d.out.length < d.total)
include hroom

theorem decoderPass_reject {why : TokenReject} (hd : decodeToken (d.stream.drop d.pos) = .error why) :
    DecoderPass d := by
  cases why with
  | emptyStream =>
    have hend := List.drop_eq_nil_iff.1 (decodeToken_emptyStream hd)
    refine .fails .decUnderrun (.inl ⟨rfl, hend⟩) ⟨fun fuel => rleDecodeFrom_underrun fuel hroom hd, ?_⟩
    rintro s rfl
    rw [decoderStep, if_neg (Nat.not_le.2 hroom), hd]
  | truncatedToken =>
    obtain ⟨_, _, hsb, _⟩ := runToken_eq_none hd
    obtain ⟨hend, _⟩ := List.getElem?_eq_some_iff.1 hsb
    refine .fails .decTruncated (.inr ⟨.inl rfl, hend⟩) ⟨fun fuel => rleDecodeFrom_truncated fuel hroom hd, ?_⟩
    rintro s rfl
    rw [decoderStep, if_neg (Nat.not_le.2 hroom), hd]

/-- The walk runs the token at the cursor. -/
theorem decoderStep_token {i : Instr} (hd : decodeToken (d.stream.drop d.pos) = .ok i) {s : State} (hs : s.dec = d) :
    decoderStep s = exec i s := by
  subst hs
  rw [decoderStep, if_neg (Nat.not_le.2 hroom), hd]

theorem decoderPass_literal {f : BitVec 7} (hd : decodeToken (d.stream.drop d.pos) = .ok (.rleLit f)) :
    DecoderPass d := by
  have hout : (literalStep f d).out.length ≤ d.total := by
    simp only [literalStep, List.length_append, List.length_take]
    omega
  refine .moves (literalStep f d) ⟨rfl, rfl, rfl, Nat.lt_succ_self _, decodeToken_fits hd, hout⟩
    ⟨fun fuel => rleDecodeFrom_literal fuel hroom hd, ?_⟩
  rintro s rfl
  rw [decoderStep_token hroom hd rfl, exec_rleLit]

theorem decoderPass_run {i : Instr} (hd : decodeToken (d.stream.drop d.pos) = .ok i) {size r : Nat} {v : Pixel}
    (hi : IsRunToken i size v r) : DecoderPass d := by
  have hstream : d.pos + size ≤ d.stream.length := hi.tokenBytes_length ▸ decodeToken_fits hd
  have hsize := hi.size_pos
  have hloop (fuel) := rleDecodeFrom_run fuel hroom hd hi
  by_cases hover : d.total < d.out.length + r
  · simp only [if_pos hover] at hloop
    refine .fails .decOverrun (.inr ⟨.inr (.inl rfl), by omega⟩) ⟨hloop, ?_⟩
    rintro s rfl
    rw [decoderStep_token hroom hd rfl, hi.exec, runTokenStep_overrun hstream hover]
  · simp only [if_neg hover] at hloop
    have hout : (d.out ++ List.replicate r v).length ≤ d.total := by
      rw [List.length_append, List.length_replicate]
      exact Nat.not_lt.1 hover
    refine .moves { d with out := d.out ++ List.replicate r v, pos := d.pos + size }
      ⟨rfl, rfl, rfl, Nat.lt_add_of_pos_right hsize, hstream, hout⟩ ⟨hloop, ?_⟩
    rintro s rfl
    rw [decoderStep_token hroom hd rfl, hi.exec, runTokenStep_append hstream (Nat.not_lt.1 hover)]

end

/-- The loop and the walk do the same on every pass (R207, R214 to R217). -/
theorem decoderPass (d : Decoder) : DecoderPass d := by
  by_cases hfull : d.total ≤ d.out.length
  · exact decoderPass_full hfull
  · have hroom := Nat.not_le.1 hfull
    cases hd : decodeToken (d.stream.drop d.pos) with
    | error why => exact decoderPass_reject hroom hd
    | ok i =>
      rcases decodeToken_literal_or_run hd with ⟨f, rfl⟩ | ⟨size, v, r, hi⟩
      · exact decoderPass_literal hroom hd
      · exact decoderPass_run hroom hd hi

/-! #### The answers of the loop (R207, R209) -/

/-- N pixels, or an error at an offset inside the stream, DEC_UNDERRUN's being the stream's length. -/
def AnswerOk (S : List Byte) (n : Nat) : Except (ErrCode × Nat) (List Pixel) → Prop
  | .ok P => P.length = n
  | .error (e, off) => (e = .decUnderrun ∧ off = S.length) ∨
      ((e = .decTruncated ∨ e = .decOverrun ∨ e = .decTrailing) ∧ off < S.length)

/-- Every pass moves the cursor, so fuel past the bytes left is enough for the loop to end by its own exits. -/
theorem decodeLoop_answerOk (fuel : Nat) {d : Decoder} (hpos : d.pos ≤ d.stream.length) (hout : d.out.length ≤ d.total)
    (hfuel : d.stream.length < d.pos + fuel) : AnswerOk d.stream d.total (decodeLoop fuel d) := by
  induction fuel generalizing d with
  | zero => omega
  | succ fuel ih =>
    cases decoderPass d with
    | fails e why same =>
      rw [same.loop]
      exact why.imp (fun ⟨he, hend⟩ => ⟨he, Nat.le_antisymm hpos hend⟩) id
    | ends full same =>
      rw [same.loop]
      exact Nat.le_antisymm hout full
    | moves d' adv same =>
      have hmoved := adv.moved
      have hd' := ih (d := d')
      rw [adv.stream, adv.total] at hd'
      rw [same.loop]
      exact hd' adv.inside adv.room (by omega)

/-- Settles O49: the loop from a decoder that has read nothing. -/
theorem decoderAnswers : Obligations.DecoderAnswers := by
  intro S n
  have hok : AnswerOk S n (rleDecode S n) :=
    decodeLoop_answerOk (S.length + 1) (d := Decoder.start S n) (Nat.zero_le _) (Nat.zero_le _)
      (by simp [Decoder.start])
  refine ⟨fun P h => ?_, fun e off h => ?_⟩ <;>
  · rw [h] at hok
    exact hok

/-! #### The walk ends where the loop does -/

/-- What RLE_DEC does with the decoder's answer (R213). -/
def decodeEnd : Except (ErrCode × Nat) (List Pixel) → State → State
  | .error (e, off), s => decodeFail e off s
  | .ok out, s => decodeDone out s

theorem rleDecEffect_eq_decodeEnd (s : State) : rleDecEffect s =
    decodeEnd (rleDecode (memRead s (opSrc s.lat) (opLen s.lat)) (opPixels s.lat)) s := by
  rw [rleDecEffect]
  split <;> rename_i h <;> rw [h] <;> rfl

/-- A completion ends the hidden decoder, whatever it held (R39). -/
theorem decodeEnd_setDec (x : Except (ErrCode × Nat) (List Pixel)) (d : Decoder) (s : State) :
    decodeEnd x (setDec d s) = decodeEnd x s := by
  cases x <;> rfl

theorem runSteps_one {s t : State} (h : step s = .next t) : runSteps 1 s = .next t := runSteps_succ_of_step h 0

/-- The walk from any decoder that has enough fuel reaches the end that the loop gives. -/
theorem runSteps_walk (fuel : Nat) {s : State} (ha : s.dec.active = true) (hpos : s.dec.pos ≤ s.dec.stream.length)
    (hfuel : s.dec.stream.length < s.dec.pos + fuel) :
    ∃ k, runSteps k s = .next (decodeEnd (decodeLoop fuel s.dec) s) := by
  induction fuel generalizing s with
  | zero => omega
  | succ fuel ih =>
    have hstep : step s = decoderStep s := if_pos ha
    cases decoderPass s.dec with
    | fails e _ same => exact ⟨1, by rw [runSteps_one (hstep.trans (same.walk s rfl)), same.loop]; rfl⟩
    | ends _ same => exact ⟨1, by rw [runSteps_one (hstep.trans (same.walk s rfl)), same.loop]; rfl⟩
    | moves d adv same =>
      have hmoved := adv.moved
      have hstream := adv.stream
      obtain ⟨k, hk⟩ := ih (s := setDec d s) (adv.active.trans ha) (hstream ▸ adv.inside)
        (by rw [setDec_dec, hstream]; omega)
      refine ⟨k + 1, ?_⟩
      rw [runSteps_succ_of_step (hstep.trans (same.walk s rfl)), hk, same.loop, decodeEnd_setDec]
      rfl

/-- Settles O31: the first step starts the decoder, the others are `runSteps_walk`. -/
theorem tokenWalkEqualsOneStep : Obligations.TokenWalkEqualsOneStep := by
  intro s ts ha hb ht hcmd hcheck hturns
  have hready : decoderReady (setTurns ts s) = true := (decoderReady_iff _).2 ⟨hb, hcmd, ht, hcheck⟩
  have hstep : step s = .next (startDecoder (setTurns ts s)) := by
    rw [step, if_neg (by simp [ha]), hturns]
    exact if_pos hready
  obtain ⟨k, hk⟩ := runSteps_walk (s := startDecoder (setTurns ts s))
    ((startDecoder (setTurns ts s)).dec.stream.length + 1) rfl (Nat.zero_le _) (by omega)
  refine ⟨k + 1, ?_⟩
  rw [runSteps_succ_of_step hstep, hk, startDecoder_eq_setDec, decodeEnd_setDec, setDec_dec]
  exact congrArg _ ((runCommand_effect (s := setTurns ts s) ht hcheck).trans (rleDecEffect_eq_decodeEnd _)).symm

end Sys2Proof.Machine
end

/-! ### The round trip -/

section
namespace Sys2Proof.Machine

/-! #### The encoder's tokens, as the decoder reads them -/

/-- The token of a run stands for its pixels, at least seven a byte where the run has seven (R202). -/
theorem runInstr_isRunToken (v : Pixel) {r : Nat} (h7 : 7 ≤ r) (hr : r ≤ 0xFFFF) :
    ∃ size, IsRunToken (runInstr v r) size v r ∧ 7 * size ≤ r := by
  unfold runInstr
  split
  · have hlen : (BitVec.ofNat 5 r).toNat = r := by rw [BitVec.toNat_ofNat, Nat.mod_eq_of_lt (by omega)]
    exact ⟨1, by simpa only [hlen] using IsRunToken.run1 v false (BitVec.ofNat 5 r), by omega⟩
  · split
    · have hlen : (BitVec.ofNat 8 r).toNat = r := by rw [BitVec.toNat_ofNat, Nat.mod_eq_of_lt (by omega)]
      exact ⟨2, by simpa only [hlen] using IsRunToken.run2 v (BitVec.ofNat 8 r), by omega⟩
    · have hlen : (BitVec.ofNat 8 (r % 256)).toNat + 256 * (BitVec.ofNat 8 (r / 256)).toNat = r := by
        rw [BitVec.toNat_ofNat, BitVec.toNat_ofNat]
        omega
      exact ⟨3, by simpa only [hlen] using IsRunToken.run3 v (BitVec.ofNat 8 (r % 256)) (BitVec.ofNat 8 (r / 256)),
        by omega⟩

/-- The encoder never emits one of the 1-byte runs without an encoding (log 14). -/
theorem CanonicalToken.wellFormed {i : Instr} (h : CanonicalToken i) : i.isCommand = false ∧ i.wellFormed = true := by
  obtain ⟨p, rfl⟩ | ⟨v, r, rfl, hr⟩ | ⟨v, n, rfl, _⟩ | ⟨v, lo, hi, rfl, _⟩ := h
  · exact ⟨rfl, rfl⟩
  · exact ⟨rfl, decide_eq_true (Nat.le_trans (by decide) hr)⟩
  · exact ⟨rfl, rfl⟩
  · exact ⟨rfl, rfl⟩

/-- A canonical token in a stream is read at its first byte. -/
theorem CanonicalToken.decode_at {i : Instr} (h : CanonicalToken i) (pre rest : List Byte) :
    decodeToken ((pre ++ (encode i ++ rest)).drop pre.length) = .ok i := by
  obtain ⟨hi, hwf⟩ := h.wellFormed
  rw [List.drop_left, encode_token hi, decodeToken_tokenBytes hi hwf]

theorem runAt_le_length (P : List Pixel) : runAt P ≤ P.length := by
  cases P with
  | nil => exact Nat.le_refl 0
  | cons v rest => exact Nat.le_trans (Nat.min_le_right _ _) (List.takeWhile_sublist _).length_le

/-- The pixels of the run at the cursor (R201). -/
theorem take_runAt (v : Pixel) (rest : List Pixel) :
    (v :: rest).take (runAt (v :: rest)) = List.replicate (runAt (v :: rest)) v := by
  have hfits := runAt_le_length (v :: rest)
  refine List.eq_replicate_iff.2 ⟨by rw [List.length_take, Nat.min_eq_left hfits], fun w hw => ?_⟩
  have hwhile := List.take_left (l₁ := (v :: rest).takeWhile (· == v)) (l₂ := (v :: rest).dropWhile (· == v))
  rw [List.takeWhile_append_dropWhile] at hwhile
  rw [runAt, ← List.take_take, hwhile] at hw
  simpa using List.mem_takeWhile_imp (List.mem_of_mem_take hw)

theorem fieldPixels_literalField (P : List Pixel) : fieldPixels (literalField P) = takePad 7 false P := by
  refine List.ext_getElem (by simp) fun j hj hj' => ?_
  have hj7 : j < 7 := by simpa using hj
  rw [← List.getD_eq_getElem _ false hj', takePad_getD 7 false P j hj7, ← literalField_pixel P hj7]
  simp [fieldPixels]

/-- The pixels of a literal block, cut to those of the plane (R203, R208). -/
theorem take_fieldPixels_literalField (P : List Pixel) : (fieldPixels (literalField P)).take P.length = P.take 7 := by
  have hpad : min (P.length - min 7 P.length) (7 - P.length) = 0 := by omega
  have hcut : P.take (min P.length 7) = P.take 7 := by rw [Nat.min_comm, ← List.take_take, List.take_length]
  rw [fieldPixels_literalField, takePad, List.take_append, List.take_take, hcut, List.take_replicate, List.length_take,
    hpad, List.replicate_zero, List.append_nil]

/-! #### One pass of the encoder, undone by one pass of the decoder -/

/-- The encoding of P begins with the token `i` for its next `k` pixels, at least seven a byte but where one byte ends
the plane, and the decoder's loop reads the token as those pixels. -/
structure EncoderPass (P : List Pixel) (i : Instr) (k : Nat) : Prop where
  nonempty : 1 ≤ (encode i).length
  dense : 7 * (encode i).length ≤ k
  inside : k ≤ P.length ∨ (encode i).length = 1
  emits : rleEncode P = encode i ++ rleEncode (P.drop k)
  undone : ∀ pre tail out fuel,
    rleDecodeFrom (pre ++ (encode i ++ tail)) (out.length + P.length) (fuel + 1) pre.length out =
      rleDecodeFrom (pre ++ (encode i ++ tail)) (out.length + P.length) fuel (pre.length + (encode i).length)
        (out ++ P.take k)

theorem encoderPass (v : Pixel) (rest : List Pixel) : ∃ i k, EncoderPass (v :: rest) i k := by
  have hroom (out : List Pixel) : out.length < out.length + (v :: rest).length := by simp
  by_cases h : 7 ≤ runAt (v :: rest)
  · have hfits := runAt_le_length (v :: rest)
    obtain ⟨size, hi, hdense⟩ := runInstr_isRunToken v h (runAt_le (v :: rest))
    have hsize := hi.encode_length
    refine ⟨_, _, hsize.symm ▸ hi.size_pos, hsize.symm ▸ hdense, .inl hfits, rleEncode_run h,
      fun pre tail out fuel => ?_⟩
    have hd := (runInstr_canonical v h (runAt_le _)).decode_at pre tail
    rw [rleDecodeFrom_run fuel (hroom out) hd hi, if_neg (by omega), hsize, take_runAt]
  · refine ⟨.rleLit (literalField (v :: rest)), 7, Nat.le_refl 1, Nat.le_refl 7, .inr rfl, rleEncode_literal h,
      fun pre tail out fuel => ?_⟩
    have hd := CanonicalToken.decode_at (.inl ⟨literalField (v :: rest), rfl⟩) pre tail
    rw [rleDecodeFrom_literal fuel (hroom out) hd, Nat.add_sub_cancel_left, take_fieldPixels_literalField]
    rfl

/-- Induction along the passes of the encoder, each of which shortens the plane. -/
theorem encoderPass_induction {motive : List Pixel → Prop} (nil : motive [])
    (pass : ∀ v rest i k, EncoderPass (v :: rest) i k → motive ((v :: rest).drop k) → motive (v :: rest))
    (P : List Pixel) : motive P := by
  induction hn : P.length using Nat.strongRecOn generalizing P with
  | ind n ih =>
    subst hn
    cases P with
    | nil => exact nil
    | cons v rest =>
      obtain ⟨i, k, hpass⟩ := encoderPass v rest
      have hk : 1 ≤ k := by
        have hnonempty := hpass.nonempty
        have hdense := hpass.dense
        omega
      have hshorter : ((v :: rest).drop k).length < (v :: rest).length := by
        rw [List.length_drop, List.length_cons]
        omega
      exact pass v rest i k hpass (ih _ hshorter _ rfl)

/-- From the place where the encoding of P begins, the decoder's loop appends P and ends. -/
theorem rleDecodeFrom_rleEncode (P : List Pixel) (pre : List Byte) (out : List Pixel) {fuel : Nat}
    (hfuel : (rleEncode P).length < fuel) :
    rleDecodeFrom (pre ++ rleEncode P) (out.length + P.length) fuel pre.length out = .ok (out ++ P) := by
  obtain ⟨fuel, rfl⟩ : ∃ m, fuel = m + 1 := ⟨fuel - 1, by omega⟩
  induction P using encoderPass_induction generalizing pre out fuel with
  | nil => simp [rleDecodeFrom, rleEncode]
  | pass v rest i k hpass ih =>
    obtain ⟨hnonempty, _, _, hemits, hundone⟩ := hpass
    have hlen := congrArg List.length hemits
    rw [List.length_append] at hlen
    have hout : (out ++ (v :: rest).take k).length + ((v :: rest).drop k).length =
        out.length + (v :: rest).length := by
      rw [List.length_append, Nat.add_assoc, ← List.length_append, List.take_append_drop]
    obtain ⟨fuel, rfl⟩ : ∃ m, fuel = m + 1 := ⟨fuel - 1, by omega⟩
    have hrest := ih (pre ++ encode i) (out ++ (v :: rest).take k) fuel (by omega)
    rw [hout, List.append_assoc, List.append_assoc, List.take_append_drop, List.length_append] at hrest
    rw [hemits, hundone, hrest]

/-- Settles O47: the loop by `rleDecodeFrom_rleEncode`; the converse fails for two pixels in a 1-byte run, which the
encoder gives as a literal block. -/
theorem rleRoundTrip : Obligations.RleRoundTrip := by
  refine ⟨fun P _ => ?_, [0x02], 2, [false, false], by decide, by decide⟩
  simpa [rleDecode] using rleDecodeFrom_rleEncode P [] [] (Nat.lt_succ_self _)

/-! #### The length of the stream (R206) -/

theorem rleEncode_length_le (P : List Pixel) : (rleEncode P).length ≤ (P.length + 6) / 7 := by
  induction P using encoderPass_induction with
  | nil => exact Nat.zero_le _
  | pass v rest i k hpass ih =>
    obtain ⟨_, hdense, hinside, hemits, _⟩ := hpass
    rw [List.length_drop] at ih
    rw [hemits, List.length_append]
    have hplane : 1 ≤ (v :: rest).length := Nat.succ_pos _
    omega

theorem one_le_rleEncode_length {P : List Pixel} (h : 1 ≤ P.length) : 1 ≤ (rleEncode P).length := by
  cases P with
  | nil => exact absurd h (by decide)
  | cons v rest =>
    obtain ⟨i, k, hpass⟩ := encoderPass v rest
    rw [hpass.emits, List.length_append]
    exact Nat.le_trans hpass.nonempty (Nat.le_add_right _ _)

end Sys2Proof.Machine
end

/-! ### RLE_ENC and RLE_DEC -/

section
namespace Sys2Proof.Machine

/-! #### The checks (R133) -/

/-- A plane has a pixel at least, so its range is never empty (R68, R93). -/
theorem planeSize_opPixels_pos (l : Latch) : 0 < planeSize (opPixels l) := by
  rw [planeSize_opPixels]
  have hpixels : 0 < ((l.dim.extractLsb' 0 16).toNat + 1) * ((l.dim.extractLsb' 16 15).toNat + 1) := by positivity
  omega

/-- The checks of the plane codec: its two ranges, then their overlap (R133, R212, R213). -/
theorem commonCheck_planeCodec {i : Instr} (hi : i = .rleEnc ∨ i = .rleDec) {s : State} {input output : Range}
    (hin : inputRange i s.lat = some input) (hout : outputRange i s.lat = some output) : commonCheck i s =
      if s.params.lmemSize < input.start + input.len ∨ s.params.lmemSize < output.start + output.len then some .range
      else if input.overlaps output = true then some .overlap else none := by
  have hoverlap : badOverlap i s.lat = input.overlaps output := by
    rcases hi with rfl | rfl <;> simp [badOverlap, hin, hout]
  rcases hi with rfl | rfl <;>
    simp [commonCheck, firstError, hin, hout, hoverlap, badRange_some_eq, badParam, needsKey, locksKey, countsPackets,
      badSeq, ite_or]

/-- The checks of RLE_ENC: the plane at SRC, the capacity LEN at DST. -/
theorem commonCheck_rleEnc (s : State) : commonCheck .rleEnc s =
    if s.params.lmemSize < s.lat.src.toNat + planeSize (opPixels s.lat) ∨
      s.params.lmemSize < s.lat.dst.toNat + s.lat.len.toNat then some .range
    else if s.lat.len ≠ 0 ∧ s.lat.src.toNat < s.lat.dst.toNat + s.lat.len.toNat ∧
      s.lat.dst.toNat < s.lat.src.toNat + planeSize (opPixels s.lat) then some .overlap
    else none := by
  have hplane := planeSize_opPixels_pos s.lat
  rw [commonCheck_planeCodec (.inl rfl) rfl rfl]
  simp [Range.overlaps, hplane, opSrc, opDst, opLen, BitVec.toNat_pos, BitVec.pos_iff_ne_zero]

/-- The checks of RLE_DEC: the stream of LEN bytes at SRC, the plane at DST. -/
theorem commonCheck_rleDec (s : State) : commonCheck .rleDec s =
    if s.params.lmemSize < s.lat.src.toNat + s.lat.len.toNat ∨
      s.params.lmemSize < s.lat.dst.toNat + planeSize (opPixels s.lat) then some .range
    else if s.lat.len ≠ 0 ∧ s.lat.src.toNat < s.lat.dst.toNat + planeSize (opPixels s.lat) ∧
      s.lat.dst.toNat < s.lat.src.toNat + s.lat.len.toNat then some .overlap
    else none := by
  have hplane := planeSize_opPixels_pos s.lat
  rw [commonCheck_planeCodec (.inr rfl) rfl rfl]
  simp [Range.overlaps, hplane, opSrc, opDst, opLen, BitVec.toNat_pos, BitVec.pos_iff_ne_zero]

/-- Ranges that the claims place apart do not overlap, and an empty stream range overlaps nothing (R65). -/
theorem not_overlap_of_apart {len : Word} {a b c d : Nat} (h : len = 0 ∨ b ≤ c ∨ d ≤ a) :
    ¬(len ≠ 0 ∧ a < d ∧ c < b) := by
  rintro ⟨hlen, hlt, hlt'⟩
  obtain hempty | hbefore | hafter := h
  · exact hlen hempty
  · omega
  · omega

/-! #### The effects -/

/-- A stream that fits is written to DST and its length to RESULT (R212). -/
theorem rleEncEffect_fits {s : State} {S : List Byte}
    (hS : S = rleEncode (planeRead s s.lat.src.toNat (opPixels s.lat))) (h : S.length ≤ s.lat.len.toNat) :
    rleEncEffect s = endedWith (succeeded s.status) (BitVec.ofNat 32 S.length)
      { s with mem := Memory.writeList s.mem s.lat.dst.toNat S } := by
  subst hS
  refine (if_neg (Nat.not_lt.2 h)).trans ?_
  rw [complete_eq_finish, finish_noError]
  rfl

/-- A longer stream is ENC_OVERFLOW with the length needed (R212, R255). -/
theorem rleEncEffect_overflow {s : State} {S : List Byte}
    (hS : S = rleEncode (planeRead s s.lat.src.toNat (opPixels s.lat))) (h : s.lat.len.toNat < S.length) :
    rleEncEffect s = raiseError .encOverflow (BitVec.ofNat 32 S.length)
      (unspecify (rangeOffsets s.params.lmemSize (some ⟨s.lat.dst.toNat, s.lat.len.toNat⟩)) s) := by
  subst hS
  exact if_pos h

theorem decodeDone_eq_endedWith (out : List Pixel) (s : State) :
    decodeDone out s = endedWith (succeeded s.status) s.lat.len
      { s with mem := Memory.writeList s.mem s.lat.dst.toNat (planeBytes (planeSize (opPixels s.lat)) out) } := by
  rw [decodeDone, complete_eq_finish, finish_noError]
  rfl

/-! #### The claims -/

/-- Settles O21: no check of `commonCheck_rleEnc` fails, and the stream fits LEN or not. -/
theorem rleEncWritesStream : Obligations.RleEncWritesStream := by
  intro s ht hsrc hdst hplaces S hS
  have hcheck := commonCheck_rleEnc s
  rw [if_neg (by omega), if_neg (not_overlap_of_apart hplaces)] at hcheck
  refine ⟨fun hfits => ⟨_, ?_, stores_writeList s _ _⟩, fun hlong => ?_⟩
  · rw [exec_rleEnc, runCommand_effect ht hcheck, rleEncEffect_fits hS hfits]
  · obtain ⟨m, n, hend, hkeep, hfree⟩ := raiseError_unspecify (e := .encOverflow) (by decide)
      (BitVec.ofNat 32 S.length) s ⟨s.lat.dst.toNat, s.lat.len.toNat⟩
    refine ⟨m, n, ?_, hkeep, fun j hj => hfree j hj ?_⟩
    · rw [exec_rleEnc, runCommand_effect ht hcheck, rleEncEffect_overflow hS hlong, hend]
    · exact Nat.lt_of_lt_of_le (Nat.add_lt_add_left hj _) hdst

/-- Settles O22: no check of `commonCheck_rleDec` fails, and the answer of the decoder is a plane or an error. -/
theorem rleDecWritesPlane : Obligations.RleDecWritesPlane := by
  intro s ht hsrc hdst hplaces
  have hcheck := commonCheck_rleDec s
  rw [if_neg (by omega), if_neg (not_overlap_of_apart hplaces)] at hcheck
  have hexec (x) (hx : rleDecode (memRead s s.lat.src.toNat s.lat.len.toNat) (opPixels s.lat) = x) :
      exec .rleDec s = .next (decodeEnd x s) := by
    rw [exec_rleDec, runCommand_effect ht hcheck, rleDecEffect_eq_decodeEnd, ← hx]
    rfl
  refine ⟨fun P hP => ⟨_, ?_, stores_writeList s _ _⟩, fun e off he => ?_⟩
  · rw [hexec _ hP, decodeEnd, decodeDone_eq_endedWith]
  · have hcode : e ≠ .noError := by
      rintro rfl
      simpa using rleDecodeFrom_code he
    obtain ⟨m, n, hend, hkeep, hfree⟩ := decodeFail_frees_plane hcode off s
    refine ⟨m, n, ?_, hkeep, fun j hj => hfree j hj ?_⟩
    · rw [hexec _ he, decodeEnd, hend]
    · exact Nat.lt_of_lt_of_le (Nat.add_lt_add_left hj _) hdst

/-- Settles O23: the four cases are those of `commonCheck_rleEnc` and `commonCheck_rleDec`. -/
theorem planeCodecErrors : Obligations.PlaneCodecErrors := by
  intro s ht
  have henc := commonCheck_rleEnc s
  have hdec := commonCheck_rleDec s
  refine ⟨fun hrange => ?_, fun hrange => ?_, fun hsrc hdst hlen hlt hlt' => ?_, fun hsrc hdst hlen hlt hlt' => ?_⟩
  · rw [if_pos hrange] at henc
    rw [exec_rleEnc, runCommand_error ht henc]
  · rw [if_pos hrange] at hdec
    rw [exec_rleDec, runCommand_error ht hdec]
  · rw [if_neg (by omega), if_pos ⟨hlen, hlt, hlt'⟩] at henc
    rw [exec_rleEnc, runCommand_error ht henc]
  · rw [if_neg (by omega), if_pos ⟨hlen, hlt, hlt'⟩] at hdec
    rw [exec_rleDec, runCommand_error ht hdec]

/-- Settles O46: the bounds of the stream, of which the upper one is a capacity that RLE_ENC does not overflow. -/
theorem encodedLengthBound : Obligations.EncodedLengthBound := by
  refine ⟨fun P h => ⟨one_le_rleEncode_length h, rleEncode_length_le P⟩, fun s ht hcheck hlen => ?_, rfl⟩
  have hbound := rleEncode_length_le (planeRead s s.lat.src.toNat (opPixels s.lat))
  rw [planeRead_length] at hbound
  refine ⟨_, exec_rleEnc s, ?_⟩
  rw [runCommand_effect ht hcheck, rleEncEffect_fits rfl (Nat.le_trans hbound hlen)]
  rfl

end Sys2Proof.Machine
end

/-! ### PKT_BUILD and PKT_STREAM -/

section
namespace Sys2Proof.Machine

/-! #### Chunks and packets (R231, R232, R235) -/

/-- The first chunks, joined: the front of the payload, zero past its end (R231). -/
theorem flatMap_chunk (pay : List Byte) (n : Nat) :
    (List.range n).flatMap (fun s => chunk pay (s + 1)) = takePad (200 * n) 0 pay := by
  induction n with
  | zero => simp [takePad]
  | succ n ih => rw [List.range_succ, List.flatMap_append, ih, List.flatMap_singleton, Nat.mul_succ, takePad_add]; rfl

/-- A list that fits is padded behind its end. -/
theorem takePad_of_length_le {α : Type} {n : Nat} (x : α) {L : List α} (h : L.length ≤ n) :
    takePad n x L = L ++ List.replicate (n - L.length) x := by
  rw [takePad, List.take_of_length_le h]

/-- be_n is the same bytes as the little-endian lanes, the other way round (R10, R69). -/
theorem reverse_beBytes (n v : Nat) : (beBytes n v).reverse = leBytes n v := by
  refine List.ext_getElem (by simp) fun i hi _ => ?_
  have hin : i < n := by simpa using hi
  simp only [List.getElem_reverse, beBytes, leBytes, List.getElem_map, List.getElem_range, List.length_map,
    List.length_range]
  rw [show n - 1 - (n - 1 - i) = i by omega]

/-- A number of 16 bits is read back from its two bytes. -/
theorem leValue_reverse_beBytes_two {v : Nat} (h : v ≤ 0xFFFF) : leValue (beBytes 2 v).reverse = v := by
  rw [reverse_beBytes, leValue_leBytes, Nat.mod_eq_of_lt (by omega)]

/-- Bytes 14 and 15 of the transaction header announce the packet count (R98, R235). -/
theorem txnPlain_count (p : Params) (n : Nat) : ((txnPlain p n).drop 14).take 2 = beBytes 2 (packetCount n) := rfl

/-- The key removed from a packet (R232, R235). -/
theorem xorBytes_packet (p : Params) (pay : List Byte) (s : Nat) (k : Byte) : xorBytes k (packet p pay s k) =
    beBytes 2 s ++ chunk pay s ++ beBytes 2 (checksum p (beBytes 2 s ++ chunk pay s)).toNat :=
  xorBytes_xorBytes k _

/-- Settles O50: the chunks joined are `takePad` of the payload, and 200 × P is past its end by 1 to 200 bytes. -/
theorem packetsCarryPayload : Obligations.PacketsCarryPayload := by
  rintro p pay P rfl hP
  refine ⟨?_, by omega, by omega, txnPlain_count p pay.length, leValue_reverse_beBytes_two hP,
    fun s k => ⟨chunk_length pay s, packet_length p pay s k, xorBytes_packet p pay s k⟩⟩
  rw [flatMap_chunk, takePad_of_length_le 0 (by omega)]

/-! #### The checks (R133) -/

/-- PARAM without a bit above bit 15 is the sequence number (R93, R233). -/
theorem opSeq_eq {l : Latch} (h : ¬0x10000 ≤ l.param.toNat) : opSeq l = l.param.toNat := by
  rw [opSeq, BitVec.extractLsb'_toNat, Nat.shiftRight_zero, Nat.mod_eq_of_lt (by omega)]

/-- A payload overlaps the packets' range, which is never empty (R65, R133). -/
theorem badOverlap_packets {i : Instr} (hi : i = .pktBuild ∨ i = .pktStream) {l : Latch} {output : Range}
    (hout : outputRange i l = some output) (hpos : 0 < output.len) : badOverlap i l =
      decide (0 < l.len.toNat ∧ l.src.toNat < output.start + output.len ∧
        output.start < l.src.toNat + l.len.toNat) := by
  rcases hi with rfl | rfl <;>
    simp [badOverlap, inputRange, hout, Range.overlaps, hpos, opSrc, opLen]

/-- The checks of PKT_BUILD in their order (R133, R233). -/
theorem commonCheck_pktBuild (s : State) : commonCheck .pktBuild s =
    if 0x10000 ≤ s.lat.param.toNat then some .badParam
    else if s.status.keyv = false then some .noKey
    else if 0xFFFF < s.lat.len.toNat / 200 + 1 then some .countOverflow
    else if s.lat.param.toNat = 0 ∨ s.lat.len.toNat / 200 + 1 < s.lat.param.toNat then some .badSeq
    else if s.params.lmemSize < s.lat.src.toNat + s.lat.len.toNat then some .range
    else if s.params.lmemSize < s.lat.dst.toNat + 204 then some .range
    else if 0 < s.lat.len.toNat ∧ s.lat.src.toNat < s.lat.dst.toNat + 204 ∧
      s.lat.dst.toNat < s.lat.src.toNat + s.lat.len.toNat then some .overlap
    else none := by
  have hparam : badParam .pktBuild s.lat = decide (0x10000 ≤ s.lat.param.toNat) :=
    extractLsb'_top_ne_zero s.lat.param (by decide)
  have hinput : badRange s.params.lmemSize (inputRange .pktBuild s.lat) =
      decide (s.params.lmemSize < s.lat.src.toNat + s.lat.len.toNat) := badRange_some_eq _ _
  have houtput : badRange s.params.lmemSize (outputRange .pktBuild s.lat) =
      decide (s.params.lmemSize < s.lat.dst.toNat + 204) := badRange_some_eq _ _
  have hoverlap := badOverlap_packets (.inl rfl) (l := s.lat) (output := ⟨s.lat.dst.toNat, 204⟩) rfl (by simp)
  by_cases hp : 0x10000 ≤ s.lat.param.toNat
  · simp [commonCheck, firstError, hparam, hp]
  · simp [commonCheck, firstError, hparam, hp, hinput, houtput, hoverlap, needsKey, locksKey, countsPackets, badSeq,
      opSeq_eq hp, packetCount_eq, opLen]

/-- The checks of PKT_STREAM in their order (R133, R234). -/
theorem commonCheck_pktStream (s : State) : commonCheck .pktStream s =
    if s.status.keyv = false then some .noKey
    else if 0xFFFF < s.lat.len.toNat / 200 + 1 then some .countOverflow
    else if s.params.lmemSize < s.lat.src.toNat + s.lat.len.toNat then some .range
    else if s.params.lmemSize < s.lat.dst.toNat + 204 * (s.lat.len.toNat / 200 + 1) then some .range
    else if 0 < s.lat.len.toNat ∧ s.lat.src.toNat < s.lat.dst.toNat + 204 * (s.lat.len.toNat / 200 + 1) ∧
      s.lat.dst.toNat < s.lat.src.toNat + s.lat.len.toNat then some .overlap
    else none := by
  have hinput : badRange s.params.lmemSize (inputRange .pktStream s.lat) =
      decide (s.params.lmemSize < s.lat.src.toNat + s.lat.len.toNat) := badRange_some_eq _ _
  have houtput : badRange s.params.lmemSize (outputRange .pktStream s.lat) =
      decide (s.params.lmemSize < s.lat.dst.toNat + 204 * (s.lat.len.toNat / 200 + 1)) := badRange_some_eq _ _
  have hoverlap := badOverlap_packets (.inr rfl) (l := s.lat)
    (output := ⟨s.lat.dst.toNat, 204 * (s.lat.len.toNat / 200 + 1)⟩) rfl (by simp)
  simp [commonCheck, firstError, hinput, houtput, hoverlap, badParam, needsKey, locksKey, countsPackets, badSeq,
    packetCount_eq, opLen]

/-- A payload that the claims place apart from the packets overlaps nothing. -/
theorem not_payload_overlap {len : Word} {a b c d : Nat} (h : len = 0 ∨ b ≤ c ∨ d ≤ a) :
    ¬(0 < len.toNat ∧ a < d ∧ c < b) := by
  rintro ⟨hpos, hover⟩
  exact not_overlap_of_apart h ⟨by rintro rfl; exact absurd hpos (by decide), hover⟩

/-- The error that a claim names with NONE for "no check fails" is the one the checks find. -/
theorem runCommand_namedError {i : Instr} {f : State → State} {s : State} {e : ErrCode} (ht : s.touched = [])
    (he : e = (commonCheck i s).getD .noError) (hne : e ≠ .noError) :
    runCommand i f s = endedWith (failed e s.status) 0 s := by
  cases hcheck : commonCheck i s with
  | none => exact absurd (by rw [he, hcheck]; rfl) hne
  | some e' =>
    obtain rfl : e = e' := by rw [he, hcheck]; rfl
    exact runCommand_error ht hcheck

/-! #### The effects -/

/-- PKT_BUILD past its checks: packet s at DST, its checksum in ACC, the packet count in RESULT (R233). -/
theorem pktBuildEffect_eq (s : State) : pktBuildEffect s =
    endedWith (succeeded s.status) (BitVec.ofNat 32 (s.lat.len.toNat / 200 + 1))
      { s with
        mem := Memory.writeList s.mem s.lat.dst.toNat
          (packet s.params (memRead s s.lat.src.toNat s.lat.len.toNat) (opSeq s.lat) s.key8)
        acc := checksum s.params
          (beBytes 2 (opSeq s.lat) ++ chunk (memRead s s.lat.src.toNat s.lat.len.toNat) (opSeq s.lat)) } := by
  rw [pktBuildEffect, complete_eq_finish, finish_noError]
  rfl

/-- PKT_STREAM past its checks: the loop's packets, the checksum of the last one in ACC, their number in RESULT (R234). -/
theorem pktStreamEffect_eq {s : State} {P : Nat} (hP : P = s.lat.len.toNat / 200 + 1) : pktStreamEffect s =
    endedWith (succeeded s.status) (BitVec.ofNat 32 P)
      { s with
        mem := streamPackets s.params (memRead s s.lat.src.toNat s.lat.len.toNat) s.key8 s.lat.dst.toNat P s.mem
        acc := packetChecksum s.params (memRead s s.lat.src.toNat s.lat.len.toNat) P } := by
  subst hP
  rw [pktStreamEffect, complete_eq_finish, finish_noError]
  rfl

section Stream
variable (s : State) (p : Params) (pay : List Byte) (k : Byte) (d n : Nat)

/-- LMEM reads packet s from d + 204 × (s − 1) on (R234). -/
theorem readByte_streamPackets_inside {seq j : Nat} (hseq : 1 ≤ seq) (hn : seq ≤ n) (hj : j < 204) :
    readByte { s with mem := streamPackets p pay k d n s.mem } (d + 204 * (seq - 1) + j) =
      (packet p pay seq k).getD j 0 := by
  obtain ⟨t, rfl⟩ : ∃ t, seq = t + 1 := ⟨seq - 1, by omega⟩
  have hread := read_streamPackets_inside p pay k d n s.mem (s := t) hn (j := j) hj
  exact congrArg (fun b => Option.getD b _) hread

theorem streamPackets_keepsOutside :
    KeepsOutside s { s with mem := streamPackets p pay k d n s.mem } (some ⟨d, 204 * n⟩) := by
  intro a ha
  have hread := read_streamPackets_outside p pay k d n s.mem (a := a) (of_decide_eq_false ha)
  exact congrArg (fun b => Option.getD b _) hread

end Stream

/-! #### The claims -/

/-- Settles O24: no check of `commonCheck_pktBuild` fails, and the packet is what reads show. -/
theorem pktBuildWritesPacket : Obligations.PktBuildWritesPacket := by
  rintro s seq ht hkey rfl hone hseq hlen hsrc hdst hplaces
  have hcheck := commonCheck_pktBuild s
  rw [if_neg (by omega), if_neg (by simp [hkey]), if_neg (by omega), if_neg (by omega), if_neg (by omega),
    if_neg (by omega), if_neg (not_payload_overlap hplaces)] at hcheck
  refine ⟨_, ?_, stores_writeList s _ _⟩
  rw [exec_pktBuild, runCommand_effect ht hcheck, pktBuildEffect_eq, opSeq_eq (by omega)]

/-- Settles O25: the claim's order is that of `commonCheck_pktBuild`. -/
theorem pktBuildErrorOrder : Obligations.PktBuildErrorOrder := by
  intro s e ht he hne
  rw [exec_pktBuild, runCommand_namedError ht ?_ hne]
  rw [he, commonCheck_pktBuild]
  simp only [apply_ite (Option.getD · ErrCode.noError), Option.getD_some, Option.getD_none]

/-- Settles O26: no check of `commonCheck_pktStream` fails, and the loop's LMEM is read inside and outside the packets. -/
theorem pktStreamWritesPackets : Obligations.PktStreamWritesPackets := by
  intro s P ht hkey hP hlen hsrc hdst hplaces
  have hcheck := commonCheck_pktStream s
  rw [← hP, if_neg (by simp [hkey]), if_neg (by omega), if_neg (by omega), if_neg (by omega),
    if_neg (not_payload_overlap hplaces)] at hcheck
  refine ⟨_, ?_, fun seq j hone hseq hj => readByte_streamPackets_inside s _ _ _ _ P hone hseq hj,
    streamPackets_keepsOutside s _ _ _ _ P⟩
  rw [exec_pktStream, runCommand_effect ht hcheck, pktStreamEffect_eq hP]

/-- Settles O27: the claim's order is that of `commonCheck_pktStream`. -/
theorem pktStreamErrorOrder : Obligations.PktStreamErrorOrder := by
  intro s e ht he hne
  rw [exec_pktStream, runCommand_namedError ht ?_ hne]
  rw [he, commonCheck_pktStream]
  simp only [apply_ite (Option.getD · ErrCode.noError), Option.getD_some, Option.getD_none]

end Sys2Proof.Machine
end

/-! ### Errors of the checks, and the interrupt line -/

section
namespace Sys2Proof.Machine

/-! #### Errors of the checks (R133, R254) -/

/-- The codes of the checks 2 to 7 of R133. -/
theorem commonCheck_mem_checkCodes {i : Instr} {s : State} {e : ErrCode} (h : commonCheck i s = some e) :
    e ∈ [ErrCode.badParam, .noKey, .keyLocked, .countOverflow, .badSeq, .range, .overlap] := by
  have hcode := List.mem_map_of_mem (f := Prod.snd) (firstError_mem h)
  simpa using hcode

/-- An undisturbed command that fails a check does not reach its own effect. -/
theorem exec_checkError {i : Instr} (hi : i.isCommand = true) {s : State} (ht : s.touched = []) {e : ErrCode}
    (hc : commonCheck i s = some e) : exec i s = .next (endedWith (failed e s.status) 0 s) := by
  obtain ⟨f, hexec⟩ := exec_eq_runCommand i hi
  rw [hexec, runCommand_error ht hc]

/-- An illegal word is an error completion (R141). -/
theorem illegalCommand_eq_endedWith (s : State) :
    illegalCommand s = endedWith (failed .illegalCmd s.status) 0 s :=
  finish_error (by decide) 0 s

/-! #### The interrupt line (R262) -/

/-- A completion sets DONE, so the line is low only where its causes are masked. -/
theorem irq_finish (e : ErrCode) (r : Word) (s : State) :
    irq (finish e r s) = (s.ctrl.ieDone || ((finish e r s).status.err && s.ctrl.ieErr)) := by
  simp only [irq, finish_status_done, finish_ctrl, Bool.true_and]

/-- With DONE and ERR written 1 nothing is left that raises the line (R25). -/
theorem irq_statusWrite_clears {w : Word} (hdone : w.getLsbD 1 = true) (herr : w.getLsbD 2 = true) (s : State) :
    irq (csrWrite .status w s) = false := by
  simp only [irq, csrWrite, clearStatus_eq, hdone, herr, if_true, Bool.false_and, Bool.or_false]

/-- A CTRL write without SRST (R23). -/
theorem writeCtrl_enables {w : Word} (hsrst : w.getLsbD 31 = false) (s : State) :
    writeCtrl w s = { s with ctrl := { ieDone := w.getLsbD 0, ieErr := w.getLsbD 1 } } := by
  rw [writeCtrl, if_neg (Bool.eq_false_iff.1 hsrst)]

/-- CTRL reads back the two enable bits of the word written (R23, R42). -/
theorem ctrlWord_enables (w : Word) :
    ctrlWord { ieDone := w.getLsbD 0, ieErr := w.getLsbD 1 } = w &&& 0x00000003 := by
  apply BitVec.eq_of_getLsbD_eq
  intro i hi
  rw [ctrlWord_eq_append]
  simp only [BitVec.getLsbD_append]
  interval_cases i <;> simp

/-! #### The claims -/

/-- Settles O35: check 1 of R133 is the decoder's, and the other checks come before the command's own effect. -/
theorem checkErrorsArePrecise : Obligations.CheckErrorsArePrecise := by
  refine ⟨fun s r hb he => ?_, fun i s e hi ht hc => ⟨exec_checkError hi ht hc, commonCheck_mem_checkCodes hc⟩⟩
  rw [engineStep_illegal hb he, illegalCommand_eq_endedWith]

/-- Settles O59: every command is a completion (`exec_command_form`) that keeps CTRL, and the line is a function of STATUS
and CTRL in the state that each write leaves. -/
theorem interruptLine : Obligations.InterruptLine := by
  refine ⟨fun i s t hi ht => ?completion, fun s w hdone herr => irq_statusWrite_clears hdone herr s,
    fun s w ts ha ht hsrst => ⟨_, ?step, rfl, ctrlWord_enables w, rfl⟩⟩
  case completion =>
    obtain ⟨e, r, u, hx, _, heff⟩ := exec_command_form i hi s
    cases hx.symm.trans ht
    rw [irq_finish, heff.ctrl]
  case step =>
    have hstep : step s = .next (writeCtrl w (setTurns ts s)) := step_writeCsr (c := .ctrl) ha ht
    rw [hstep, writeCtrl_enables hsrst]
    rfl

end Sys2Proof.Machine
end

/-! ### Reset, and what host and running command do to each other -/

section
namespace Sys2Proof.Machine

/-! #### Unspecified bytes, at a list of offsets (R255, R283, R289) -/

/-- Every byte that is not drawn is kept. -/
theorem readByte_drawInto_other (s : State) {offs : List Nat} {a : Nat} (h : a ∉ offs) :
    readByte { s with mem := Memory.drawInto s.mem s.draw offs } a = readByte s a :=
  readByte_unspecify_other offs s h

/-- A drawn byte holds a free value whose draw number is new and counted. -/
theorem readByte_drawInto_drawn (s : State) {offs : List Nat} {a : Nat} (h : a ∈ offs) :
    ∃ k, s.draw ≤ k ∧ k < s.draw + offs.length ∧
      readByte { s with mem := Memory.drawInto s.mem s.draw offs } a = Config.freeByte k := by
  obtain ⟨k, hge, hlt, hread⟩ := read_drawInto_drawn offs s.mem s.draw h
  exact ⟨k, hge, hlt, by simp [readByte, hread]⟩

/-! #### The disturbed command (R289) -/

/-- The bytes that a disturbed command leaves unspecified: those of its output range that exist, and the written ones. -/
def disturbedBytes (i : Instr) (s : State) : List Nat :=
  rangeOffsets s.params.lmemSize (outputRange i s.lat) ++ s.touched

theorem mem_disturbedBytes_iff (i : Instr) (s : State) (a : Nat) : a ∈ disturbedBytes i s ↔
    (inRange (outputRange i s.lat) a = true ∧ a < s.params.lmemSize) ∨ a ∈ s.touched := by
  rw [disturbedBytes, List.mem_append, mem_rangeOffsets]

/-- A disturbed completion draws the unspecified bytes, then one number each for ACC, the code and RESULT. -/
theorem finishDisturbed_eq_endedWith (i : Instr) (s : State) : ∃ e r,
    (e = .noError ∨ e ∈ commandCodes i) ∧
    finishDisturbed i s = endedWith
      { s.status with errcode := e, err := s.status.err || (e != .noError), done := true, busy := false } r
      { s with
        acc := disturbedAcc i s.acc (s.draw + (disturbedBytes i s).length)
        mem := Memory.drawInto s.mem s.draw (disturbedBytes i s)
        draw := s.draw + (disturbedBytes i s).length + 3 } :=
  ⟨_, _, disturbedCode_mem i _, rfl⟩

/-- A command with a recorded host write neither runs its checks nor its own effect. -/
theorem exec_disturbed {i : Instr} (hi : i.isCommand = true) {s : State} (ht : s.touched ≠ []) :
    exec i s = .next (finishDisturbed i s) := by
  obtain ⟨f, hexec⟩ := exec_eq_runCommand i hi
  rw [hexec, runCommand, if_pos ht]

/-- Settles O39: the completion is `finishDisturbed_eq_endedWith`, and the open bytes are the drawn ones. -/
theorem disturbedCommandCompletes : Obligations.DisturbedCommandCompletes := by
  intro i s hi ht
  obtain ⟨e, r, he, hend⟩ := finishDisturbed_eq_endedWith i s
  refine ⟨e, r, _, _, _, (exec_disturbed hi ht).trans (congrArg _ hend), he, fun hacc => ?acc, by omega,
    fun a hout htouched => ?kept, fun a hsize hopen => ?drawn⟩
  case acc => simp [disturbedAcc, hacc]
  case kept =>
    have hkept : a ∉ disturbedBytes i s := by simp [mem_disturbedBytes_iff, hout, htouched]
    exact readByte_drawInto_other s hkept
  case drawn =>
    have hdrawn : a ∈ disturbedBytes i s :=
      (mem_disturbedBytes_iff i s a).2 (hopen.imp_left fun hout => ⟨hout, hsize⟩)
    obtain ⟨k, hge, hlt, hread⟩ := readByte_drawInto_drawn s hdrawn
    exact ⟨k, hge, by omega, hread⟩

/-! #### The running command reads no operand register (R38, R290) -/

/-- The state with the operand registers of another one. -/
def withOperandsOf (o s : State) : State :=
  { s with
    src := o.src, dst := o.dst, len := o.len, param := o.param, dim := o.dim, addrLo := o.addrLo, addrHi := o.addrHi }

/-- What the function does depends on no operand register, and it changes none. -/
def OperandBlind (f : State → State) : Prop := ∀ o s : State, f (withOperandsOf o s) = withOperandsOf o (f s)

section WithOperandsOf
variable (o s : State)

@[simp] theorem withOperandsOf_params : (withOperandsOf o s).params = s.params := rfl
@[simp] theorem withOperandsOf_key8 : (withOperandsOf o s).key8 = s.key8 := rfl
@[simp] theorem withOperandsOf_lat : (withOperandsOf o s).lat = s.lat := rfl
@[simp] theorem withOperandsOf_mem : (withOperandsOf o s).mem = s.mem := rfl
@[simp] theorem withOperandsOf_touched : (withOperandsOf o s).touched = s.touched := rfl

@[simp] theorem memRead_withOperandsOf (a n : Nat) : memRead (withOperandsOf o s) a n = memRead s a n :=
  memRead_congr rfl a n

@[simp] theorem planeRead_withOperandsOf (p n : Nat) : planeRead (withOperandsOf o s) p n = planeRead s p n := by
  simp [planeRead]

@[simp] theorem commonCheck_withOperandsOf (i : Instr) : commonCheck i (withOperandsOf o s) = commonCheck i s := rfl

@[simp] theorem setMem_withOperandsOf (m : Memory) : setMem m (withOperandsOf o s) = withOperandsOf o (setMem m s) := rfl

@[simp] theorem setAcc_withOperandsOf (h : Half) : setAcc h (withOperandsOf o s) = withOperandsOf o (setAcc h s) := rfl

@[simp] theorem memWrite_withOperandsOf (a : Nat) (L : List Byte) :
    memWrite a L (withOperandsOf o s) = withOperandsOf o (memWrite a L s) := rfl

@[simp] theorem unspecify_withOperandsOf (offs : List Nat) :
    unspecify offs (withOperandsOf o s) = withOperandsOf o (unspecify offs s) := rfl

@[simp] theorem finish_withOperandsOf (e : ErrCode) (r : Word) :
    finish e r (withOperandsOf o s) = withOperandsOf o (finish e r s) := rfl

@[simp] theorem finishDisturbed_withOperandsOf (i : Instr) :
    finishDisturbed i (withOperandsOf o s) = withOperandsOf o (finishDisturbed i s) := rfl

end WithOperandsOf

theorem rleEncEffect_operandBlind : OperandBlind rleEncEffect := by
  intro o s
  simp only [rleEncEffect, withOperandsOf_lat, withOperandsOf_params, planeRead_withOperandsOf]
  split <;> simp

theorem decodeEnd_operandBlind (x : Except (ErrCode × Nat) (List Pixel)) : OperandBlind (decodeEnd x) := by
  intro o s
  cases x <;> rfl

theorem rleDecEffect_operandBlind : OperandBlind rleDecEffect := by
  intro o s
  rw [rleDecEffect_eq_decodeEnd, rleDecEffect_eq_decodeEnd, ← decodeEnd_operandBlind, withOperandsOf_lat,
    memRead_withOperandsOf]

/-- Every command is an effect that takes its operands from the latch, inside `runCommand` (R93). -/
theorem exec_eq_runCommand_operandBlind (i : Instr) (hi : i.isCommand = true) :
    ∃ f, OperandBlind f ∧ ∀ s, exec i s = .next (runCommand i f s) := by
  cases i with
  | nop => exact ⟨_, fun _ _ => rfl, exec_nop⟩
  | ckInit => exact ⟨_, fun _ _ => rfl, exec_ckInit⟩
  | ckByte => exact ⟨_, fun _ _ => rfl, exec_ckByte⟩
  | ckRun => exact ⟨_, fun _ _ => rfl, exec_ckRun⟩
  | ckCalc => exact ⟨_, fun _ _ => rfl, exec_ckCalc⟩
  | keyLoad => exact ⟨_, fun _ _ => rfl, exec_keyLoad⟩
  | keyClear => exact ⟨_, fun _ _ => rfl, exec_keyClear⟩
  | xorBlock => exact ⟨_, fun _ _ => by simp [xorBlockEffect], exec_xorBlock⟩
  | phBuild => exact ⟨_, fun _ _ => by simp [phBuildEffect], exec_phBuild⟩
  | thBuild => exact ⟨_, fun _ _ => by simp [thBuildEffect], exec_thBuild⟩
  | rleEnc => exact ⟨_, rleEncEffect_operandBlind, exec_rleEnc⟩
  | rleDec => exact ⟨_, rleDecEffect_operandBlind, exec_rleDec⟩
  | pktBuild => exact ⟨_, fun _ _ => by simp [pktBuildEffect], exec_pktBuild⟩
  | pktStream => exact ⟨_, fun _ _ => by simp [pktStreamEffect], exec_pktStream⟩
  | rleLit _ => cases hi
  | rleRun3 _ _ _ => cases hi
  | rleRun2 _ _ => cases hi
  | rleRun1 _ _ _ => cases hi

/-- The checks and the disturbed completion take everything from the latch as well. -/
theorem runCommand_operandBlind (i : Instr) {f : State → State} (hf : OperandBlind f) :
    OperandBlind (runCommand i f) := by
  intro o s
  rw [runCommand, runCommand, withOperandsOf_touched, commonCheck_withOperandsOf, finishDisturbed_withOperandsOf, hf]
  split
  · rfl
  · cases commonCheck i s <;> rfl

/-- Operand registers set before the command are set after it, and the command is otherwise the same (R290). -/
theorem exec_withOperandsOf {i : Instr} (hi : i.isCommand = true) (o : State) {s t : State} (ht : exec i s = .next t) :
    exec i (withOperandsOf o s) = .next (withOperandsOf o t) := by
  obtain ⟨f, hf, hexec⟩ := exec_eq_runCommand_operandBlind i hi
  cases (hexec s).symm.trans ht
  rw [hexec, runCommand_operandBlind i hf]

/-- The operand registers of `t` are those of `s`. -/
def SameOperands (s t : State) : Prop := withOperandsOf s t = t

/-- No command writes an operand register (R38). -/
theorem exec_command_sameOperands {i : Instr} (hi : i.isCommand = true) {s t : State} (ht : exec i s = .next t) :
    SameOperands s t := by
  obtain ⟨e, r, u, hx, _, heff⟩ := exec_command_form i hi s
  cases hx.symm.trans ht
  simp only [SameOperands, withOperandsOf, ← heff.src, ← heff.dst, ← heff.len, ← heff.param, ← heff.dim, ← heff.addrLo,
    ← heff.addrHi]
  rfl

/-- A host write to an operand register sets operand registers only, and equal ones to equal ones (R27 to R32). -/
theorem csrWrite_eq_withOperandsOf {c : Csr} (hc : c ∈ [Csr.src, .dst, .len, .param, .dim, .addrLo, .addrHi]) (w : Word)
    {s t : State} (h : SameOperands s t) : csrWrite c w t = withOperandsOf (csrWrite c w s) t := by
  rw [← h]
  simp only [List.mem_cons, List.not_mem_nil, or_false] at hc
  rcases hc with rfl | rfl | rfl | rfl | rfl | rfl | rfl <;> rfl

/-- Settles O40: before and after the command the write sets the same operand registers, and the command sees none. -/
theorem operandWritesDoNotReachCommand : Obligations.OperandWritesDoNotReachCommand := by
  intro i s t c w hi ht hc
  have hs : SameOperands s s := rfl
  rw [csrWrite_eq_withOperandsOf hc w hs, csrWrite_eq_withOperandsOf hc w (exec_command_sameOperands hi ht)]
  exact exec_withOperandsOf hi _ ht

/-! #### Soft reset (R283) -/

theorem runningOutput_idle {s : State} (hb : s.status.busy = false) : runningOutput s = none := by
  simp [runningOutput, hb]

theorem writeCtrl_softReset {w : Word} (hsrst : w.getLsbD 31 = true) (s : State) : writeCtrl w s = softReset s := by
  rw [writeCtrl, if_pos hsrst]

/-- Settles O55: the host's turn is `softReset`, whose drawn bytes are those of the aborted command's output range. -/
theorem softResetRestores : Obligations.SoftResetRestores := by
  intro s w ts ha ht hsrst
  have hstep : step s = .next (writeCtrl w (setTurns ts s)) := step_writeCsr (c := .ctrl) ha ht
  rw [writeCtrl_softReset hsrst] at hstep
  refine ⟨_, _, hstep, fun hb => ?idle, fun a hout => ?kept, fun a hin hsize => ?drawn⟩
  case idle =>
    have hnone : runningOutput (setTurns ts s) = none := runningOutput_idle hb
    rw [hnone]
    rfl
  case kept =>
    refine readByte_drawInto_other s fun hmem => ?_
    exact Bool.false_ne_true (hout.symm.trans (mem_rangeOffsets.1 hmem).1)
  case drawn => exact readByte_drawInto_drawn s (mem_rangeOffsets.2 ⟨hin, hsize⟩)

/-! #### Reads while a command runs (R288) -/

/-- An answer while a command runs moves the counter past the numbers it may have drawn. -/
theorem answer_busy {s : State} (hb : s.status.busy = true) (v : Word) :
    answer v s = { s with busReads := v :: s.busReads, draw := s.draw + 4 } := by
  simp [answer, hb]

/-- The ERRCODE field of a STATUS word (R24). -/
theorem statusWord_errcode (st : Status) (code : Byte) : (statusWord st code).extractLsb' 8 8 = code := by
  apply BitVec.eq_of_getLsbD_eq
  intro i hi
  rw [BitVec.getLsbD_extractLsb']
  interval_cases i <;> simp [statusWord, bitAt]

/-- The five flags of a STATUS word (R24). -/
theorem statusWord_flags (st : Status) (code : Byte) :
    (statusWord st code).getLsbD 0 = st.busy ∧ (statusWord st code).getLsbD 1 = st.done ∧
      (statusWord st code).getLsbD 2 = st.err ∧ (statusWord st code).getLsbD 3 = st.keyv ∧
      (statusWord st code).getLsbD 4 = st.ovr := by
  simp [statusWord, bitAt]

section Busy
variable {s : State} (hb : s.status.busy = true)
include hb

theorem csrRead_status_open : csrRead .status s = statusWord s.status (Config.freeByte s.draw) := by
  simp [csrRead, hb]

theorem csrRead_acc_open : csrRead .acc s = (Config.freeHalf s.draw).zeroExtend 32 := by simp [csrRead, hb]

theorem csrRead_result_open : csrRead .result s = Config.freeWord s.draw := by simp [csrRead, hb]

theorem csrRead_key_open : csrRead .key s = (Config.freeByte s.draw).zeroExtend 32 := by simp [csrRead, hb]

end Busy

/-- Settles O56, clause by clause: the fields of STATUS, the register turn `step_readCsr` with the four open registers, and
the window's turn `step_readLmem` with its lanes. -/
theorem readsWhileBusy : Obligations.ReadsWhileBusy := by
  intro s ts ha hb
  refine ⟨fun b => ?status, fun c v hrow ht => ?register,
    fun w off halign hend ht => ⟨lmemRead w off s, ?window, lmemRead_lt w off s, fun i hi => lmemRead_lane hi off s⟩⟩
  case status =>
    obtain ⟨hbusy, hdone, herr, hkeyv, hovr⟩ := statusWord_flags s.status b
    exact ⟨hbusy.trans hb, hdone, herr, hkeyv, hovr, statusWord_errcode s.status b⟩
  case register =>
    suffices hv : csrRead c s = v by
      rw [step_readCsr ha ht, answer_busy (s := setTurns ts s) hb, hv]
      rfl
    simp only [List.mem_cons, Prod.mk.injEq, List.not_mem_nil, or_false] at hrow
    rcases hrow with ⟨rfl, rfl⟩ | ⟨rfl, rfl⟩ | ⟨rfl, rfl⟩ | ⟨rfl, rfl⟩ | ⟨rfl, rfl⟩ | ⟨rfl, rfl⟩ | ⟨rfl, rfl⟩ |
      ⟨rfl, rfl⟩ | ⟨rfl, rfl⟩ | ⟨rfl, rfl⟩ | ⟨rfl, rfl⟩ | ⟨rfl, rfl⟩ | ⟨rfl, rfl⟩ | ⟨rfl, rfl⟩
    · exact csrRead_status_open hb
    · exact csrRead_acc_open hb
    · exact csrRead_result_open hb
    · exact csrRead_key_open hb
    all_goals rfl
  case window =>
    rw [step_readLmem halign hend ha ht, answer_busy (s := setTurns ts s) hb]
    rfl

/-! #### Power-on reset (R44, R280) -/

/-- Settles O5: each register's read is evaluated at the reset state. -/
theorem resetRegisterValues : Obligations.ResetRegisterValues :=
  ⟨rfl, rfl, rfl, rfl, rfl, rfl, rfl, rfl, rfl, rfl, rfl, rfl, rfl, rfl, rfl, rfl, rfl⟩

end Sys2Proof.Machine
end
